-- ==== Sys2Proof/Word.lean ====
section
/-! DEFINITION. The words of the engine: bytes, 32-bit header words, pixels (10_state.md R22). -/

namespace Sys2Proof

/-- An unsigned 8-bit value (R7). -/
abbrev Byte := BitVec 8

/-- A header word: `WIDTH` and `HEIGHT` are 32 bits wide (R33). -/
abbrev Word32 := BitVec 32

/-- A pixel: four unsigned 8-bit channels in the order r, g, b, a; equality is component-wise (R9, R22). -/
structure Pixel where
  r : Byte
  g : Byte
  b : Byte
  a : Byte
  deriving DecidableEq, Repr

end Sys2Proof
end

