-- ==== Sys2Proof/Syntax.lean ====
section
/-! DEFINITION. The instructions: the six chunk encodings of spec/opcode_table.json, with their operands as
30_encoding.md R102 assembles them and R107 writes them. -/

namespace Sys2Proof

/-- A chunk of the stream (R2, R93). Signed operands are integers, as R102 gives them. -/
inductive Instr where
  /-- RGB, tag byte `0xFE`: three raw channels (R98). -/
  | rgb (r g b : Byte)
  /-- RGBA, tag byte `0xFF`: four raw channels (R99). -/
  | rgba (r g b a : Byte)
  /-- INDEX: a cache slot 0..63 (R94). -/
  | index (i : BitVec 6)
  /-- DIFF: three deltas, each -2..1 (R95). -/
  | diff (dr dg db : Int)
  /-- LUMA: `dg` -32..31, then `dr - dg` and `db - dg`, each -8..7 (R96). -/
  | luma (dg drOff dbOff : Int)
  /-- RUN: a run length 1..62 (R97). -/
  | run (n : Nat)
  deriving DecidableEq, Repr

end Sys2Proof
end

