-- ==== Sys2Proof/WellFormed.lean ====
section
/-! DEFINITION. Which instructions an encoding exists for: the operand ranges of 30_encoding.md R102. -/

namespace Sys2Proof

/-- The range of a DIFF delta (R95, R102). -/
def diffDeltaOk (d : Int) : Bool := decide (-2 ≤ d) && decide (d ≤ 1)

/-- The range of LUMA's green delta (R96, R102). -/
def lumaGreenOk (d : Int) : Bool := decide (-32 ≤ d) && decide (d ≤ 31)

/-- The range of LUMA's red and blue offsets (R96, R102). -/
def lumaOffsetOk (d : Int) : Bool := decide (-8 ≤ d) && decide (d ≤ 7)

/-- The range of a run length: field values 62 and 63 are the RGB and RGBA tags (R97). -/
def runLengthOk (n : Nat) : Bool := decide (1 ≤ n) && decide (n ≤ 62)

/-- Every operand is in the range R102 gives it. -/
def wellFormed : Instr → Bool
  | .rgb _ _ _ => true
  | .rgba _ _ _ _ => true
  | .index _ => true
  | .diff dr dg db => diffDeltaOk dr && diffDeltaOk dg && diffDeltaOk db
  | .luma dg drOff dbOff => lumaGreenOk dg && lumaOffsetOk drOff && lumaOffsetOk dbOff
  | .run n => runLengthOk n

end Sys2Proof
end

