-- ==== Sys2Proof/Decode.lean ====
section
/-! DEFINITION. Decoding chunks from bytes (30_encoding.md R93 to R103), and after it the encoder of the same tables. -/

namespace Sys2Proof

/-- The kinds of chunk R100 tells apart by the tag byte. -/
inductive Kind where
  | rgb | rgba | index | diff | luma | run
  deriving DecidableEq, Repr

/-- The 2-bit tag `b[7:6]` of a tag byte (R7, R100). -/
def tagBits (b : Byte) : BitVec 2 := b.extractLsb' 6 2

/-- The low 6 bits `b[5:0]` of a byte (R7, R102). -/
def low6 (b : Byte) : BitVec 6 := b.extractLsb' 0 6

/-- The kind of the chunk whose tag byte is `b`: the full-byte tests first (R100, R103). -/
def kind (b : Byte) : Kind :=
  if b = 0xFE#8 then .rgb
  else if b = 0xFF#8 then .rgba
  else if tagBits b = 0b00#2 then .index
  else if tagBits b = 0b01#2 then .diff
  else if tagBits b = 0b10#2 then .luma
  else .run

/-- The length in bytes of a chunk of a kind (R101). -/
def Kind.length : Kind → Nat
  | .rgb => 4
  | .rgba => 5
  | .index => 1
  | .diff => 1
  | .luma => 2
  | .run => 1

/-- `len(b)`: the chunk's length as a function of its tag byte alone (R101). -/
def tagLength (b : Byte) : Nat := (kind b).length

/-- Why a list of bytes holds no chunk at its head. No byte value is a reason: every tag decodes (R104). -/
inductive DecodeError where
  /-- There is no byte at all. -/
  | noTagByte
  /-- The tag byte promises more bytes than there are (the list-level form of R224). -/
  | operandBytesMissing (k : Kind)
  deriving DecidableEq, Repr

/-- An unsigned field minus its bias (R102). -/
def biased (field bias : Nat) : Int := (field : Int) - (bias : Int)

/-- DIFF's operands: `b[5:4] - 2`, `b[3:2] - 2`, `b[1:0] - 2` (R95, R102). -/
def diffOf (b : Byte) : Instr :=
  .diff (biased (b.extractLsb' 4 2).toNat 2) (biased (b.extractLsb' 2 2).toNat 2) (biased (b.extractLsb' 0 2).toNat 2)

/-- LUMA's operands: `(b0 & 0x3F) - 32`, `(b1 >> 4) - 8`, `(b1 & 0xF) - 8` (R96, R102). -/
def lumaOf (b0 b1 : Byte) : Instr :=
  .luma (biased (low6 b0).toNat 32) (biased (b1.extractLsb' 4 4).toNat 8) (biased (b1.extractLsb' 0 4).toNat 8)

/-- RUN's operand: `(b & 0x3F) + 1` (R97, R102). -/
def runOf (b : Byte) : Instr := .run ((low6 b).toNat + 1)

/-- The chunk at the head of a list of bytes, with the bytes after it (R93, R100 to R103). -/
def decode : List Byte → Except DecodeError (Instr × List Byte)
  | [] => .error .noTagByte
  | b :: rest =>
    match kind b with
    | .rgb =>
      match rest with
      | r :: g :: bl :: rest' => .ok (.rgb r g bl, rest')
      | _ => .error (.operandBytesMissing .rgb)
    | .rgba =>
      match rest with
      | r :: g :: bl :: a :: rest' => .ok (.rgba r g bl a, rest')
      | _ => .error (.operandBytesMissing .rgba)
    | .index => .ok (.index (low6 b), rest)
    | .diff => .ok (diffOf b, rest)
    | .luma =>
      match rest with
      | b1 :: rest' => .ok (lumaOf b b1, rest')
      | _ => .error (.operandBytesMissing .luma)
    | .run => .ok (runOf b, rest)

/-- The `k` lowest bytes of a number, the least significant first. -/
def lowBytes : Nat → Nat → List Byte
  | 0, _ => []
  | k + 1, w => BitVec.ofNat 8 w :: lowBytes k (w / 256)

/-- The length in bytes of the longest chunk (R101). -/
def maxChunkLength : Nat := 5

/-- An instruction given as the opcode table numbers its bits (bit 0 the least significant bit of the FIRST byte), laid
out in memory order; every bit from `nbits` up is 0, up to the longest chunk. -/
def tableBytes (nbits w : Nat) : List Byte := lowBytes maxChunkLength (w % 2 ^ nbits)

/-- What the decoder reads from an instruction whose bits are `w`. -/
def decodeTableWord (nbits w : Nat) : Option Instr :=
  match decode (tableBytes nbits w) with
  | .ok (i, _) => some i
  | .error _ => none

/-- The kind of chunk an instruction is. -/
def Instr.kind : Instr → Kind
  | .rgb _ _ _ => .rgb
  | .rgba _ _ _ _ => .rgba
  | .index _ => .index
  | .diff _ _ _ => .diff
  | .luma _ _ _ => .luma
  | .run _ => .run

/-- The length in bytes of an instruction's chunk (R101). -/
def Instr.length (i : Instr) : Nat := i.kind.length

/-- An operand plus its bias, as the field of `n` bits the format holds (R95, R96). -/
def biasField (n : Nat) (d : Int) (bias : Nat) : BitVec n := BitVec.ofInt n (d + (bias : Int))

/-- The bytes of an instruction: R94 (INDEX), R95 (DIFF), R96 (LUMA), R97 (RUN), R98 (RGB), R99 (RGBA). -/
def encode : Instr → List Byte
  | .rgb r g b => [0xFE#8, r, g, b]
  | .rgba r g b a => [0xFF#8, r, g, b, a]
  | .index i => [0b00#2 ++ i]
  | .diff dr dg db => [0b01#2 ++ biasField 2 dr 2 ++ biasField 2 dg 2 ++ biasField 2 db 2]
  | .luma dg drOff dbOff => [0b10#2 ++ biasField 6 dg 32, biasField 4 drOff 8 ++ biasField 4 dbOff 8]
  | .run n => [0b11#2 ++ BitVec.ofNat 6 (n - 1)]

end Sys2Proof
end

