-- ==== Sys2Proof/Config.lean ====
section
/-! DEFINITION. What an implementation fixes (the parameters of 00_scope.md R6) and the free values: values the spec
leaves unspecified and a model draws (93_implementation_defined.md, `any value`). -/

namespace Sys2Proof

/-- The interface registers the host reaches on its bus (R33, R34, R35, R37). -/
inductive CsrReg where
  | cmd | status | width | height | channels | colorspace | inBase | inLen | outBase | outLen
  deriving DecidableEq, Repr

/-- `CSR_MAP` (R6, R37): the bus address of each interface register, and the width in bits of a bus address (R60). -/
structure CsrMap where
  addressBits : Nat
  cmd         : Nat
  status      : Nat
  width       : Nat
  height      : Nat
  channels    : Nat
  colorspace  : Nat
  inBase      : Nat
  inLen       : Nat
  outBase     : Nat
  outLen      : Nat
  deriving DecidableEq, Repr, Inhabited

/-- The parameters of R6, apart from `OUT_CAPACITY`, which the host provides before each operation, and `CURSOR_BITS`, for
which the spec has a model use unbounded naturals. They are arguments of the model: a state carries them (`State.params`),
no step changes them, and a statement about every state holds for every value of them. `magic` is `MAGIC[0..3]`;
`checkMagic` is `CHECK_MAGIC` (R132); `csrMap` is `CSR_MAP` (R37). -/
structure Params where
  magic      : Vector Byte 4
  checkMagic : Bool
  csrMap     : CsrMap
  deriving DecidableEq, Repr

/-- The value of `MAGIC` in `State.reset`. The spec gives the four bytes no value (R6, D4): no body. -/
opaque Config.magic : Vector Byte 4

/-- The value of `CSR_MAP` in `State.reset`. The spec gives no address and no width (R6, R37, R60, D2): no body. -/
opaque Config.csrMap : CsrMap

/-- The `n`-th free byte (log entry 1). -/
opaque Config.freeByte : Nat → Byte

/-- The `n`-th free 32-bit word (log entry 1). -/
opaque Config.freeWord : Nat → Word32

/-- The `n`-th free natural number (log entry 1). -/
opaque Config.freeNat : Nat → Nat

/-- The `n`-th free bit (log entry 1). -/
opaque Config.freeBit : Nat → Bool

end Sys2Proof
end

