-- ==== Sys2Proof/Machine/Pixel.lean ====
section
/-! DEFINITION. The named pixels (10_state.md R23), the hash of `pixel_cache_lookup` (41_pixel_cache.md R150), the
encoder's signed byte deltas (42_encoder.md R179) and the decoder's wrapping updates (43_decoder.md R229, R230). -/

namespace Sys2Proof.Machine

/-- `ZERO_PIXEL`, the initial value of every cache slot (R23). -/
def zeroPixel : Pixel := ⟨0#8, 0#8, 0#8, 0#8⟩

/-- `PREV_INIT`, the initial value of `prev` (R23). -/
def prevInit : Pixel := ⟨0#8, 0#8, 0#8, 255#8⟩

/-- HASH: `(3*r + 5*g + 7*b + 11*a) mod 64` over the unbounded sum (R150). -/
def pixelHash (p : Pixel) : BitVec 6 := BitVec.ofNat 6 (3 * p.r.toNat + 5 * p.g.toNat + 7 * p.b.toNat + 11 * p.a.toNat)

/-- `s8(wrap8(x - y))`: the 8-bit wraparound difference read as signed, -128..127 (R8, R179). -/
def signedDelta (x y : Byte) : Int := (x - y).toInt

/-- `wrap8(c + d)`: a channel plus a signed operand, modulo 256 (R8, R229, R230). -/
def wrapAdd (c : Byte) (d : Int) : Byte := BitVec.ofInt 8 ((c.toNat : Int) + d)

/-- The channels of a pixel as the raw pixel buffer holds them: r, g, b and, with 4 channels only, a (R61, R225). -/
def pixelBytes (channels : Byte) (p : Pixel) : List Byte :=
  if channels = 4#8 then [p.r, p.g, p.b, p.a] else [p.r, p.g, p.b]

end Sys2Proof.Machine
end

