-- ==== Sys2Proof/Machine/State.lean ====
section
/-! DEFINITION. The state of the engine and of the host beside it (10_state.md R20 to R40), the reasons a step can stop,
and the state after power-on reset (10_state.md R40, 70_reset_and_hazards.md R290). -/

namespace Sys2Proof.Machine

/-- `STATUS.STATE` (R35). -/
inductive EngineState where
  | idle | busy | done | error
  deriving DecidableEq, Repr

/-- `STATUS.ERR` (R35, R260). The values 6 and 7 are never written (U19). -/
inductive Err where
  | noError | invalidChannelCount | invalidColorspace | truncatedStream | invalidInputLength | badMagic
  deriving DecidableEq, Repr

/-- `CMD.OP` (R34). -/
inductive Op where
  | encode | decode
  deriving DecidableEq, Repr

/-- `PHASE` (R32). The value 3 is never held. -/
inductive Phase where
  | hdr | body | ftr
  deriving DecidableEq, Repr

/-- The model's own: which whole step of R298 comes next while `PHASE = HDR` (log entry 12): OPINIT, then ENCVALID or
DECVALID, then HEADER_EMIT or HEADER_PARSE. -/
inductive HdrStep where
  | opInit | check | header
  deriving DecidableEq, Repr

/-- The registers the host may read while `STATE` is not `BUSY` (R36), `STATUS` apart. -/
inductive HostReg where
  | width | height | channels | colorspace | inBase | inLen | outBase | outLen
  deriving DecidableEq, Repr

/-- What the host can do (R36, R265, R290, R293, R294). An access R36 grants nobody (a write of `OUT_LEN` or `STATUS`, a
read of `CMD`, any access to `cache`, `prev`, `run`, `pix`, `pos`, `PHASE`, R39) is no action at all. -/
inductive HostAct where
  | writeWidth (v : Word32)
  | writeHeight (v : Word32)
  | writeChannels (v : Byte)
  | writeColorspace (v : Byte)
  | writeInBase (a : Nat)
  | writeInLen (n : Nat)
  | writeOutBase (a : Nat)
  /-- Provide `OUT_CAPACITY` writable bytes at `OUT_BASE` (R68, R293). -/
  | provideOutput (capacity : Nat)
  /-- Write one byte of host memory (R293 duty 3). -/
  | placeByte (a : Nat) (v : Byte)
  /-- Write `CMD`: the ISSUE action (R34, R265). -/
  | issue (op : Op)
  /-- Poll: read `STATUS` (R294); the one access allowed while `BUSY` (R266). -/
  | readStatus
  | readReg (r : HostReg)
  /-- Write a value to the interface register at a bus address (R37): the same access as the named one above, which
  `CSR_MAP` finds. -/
  | busWrite (address value : Nat)
  /-- Read the interface register at a bus address (R37). -/
  | busRead (address : Nat)
  /-- Read one byte of host memory (R60, R294 collect). -/
  | readByte (a : Nat)
  /-- Power-on reset, asserted at any time (R290). -/
  | powerOnReset
  /-- The model's own: the host stands back for one turn of the engine (log entry 11). -/
  | tick
  /-- The model's own: the host polls until it reads a `STATE` other than `BUSY`, the synchronous call of D20
  (log entry 11). -/
  | await
  deriving DecidableEq, Repr

/-- What the host's last read returned (log entry 11): nothing yet, the codes of `STATUS.STATE` and `STATUS.ERR`, a
register's value, or a byte of memory. -/
inductive HostAnswer where
  | nothing
  | status (state : BitVec 2) (err : BitVec 3)
  | number (n : Nat)
  | byte (v : Byte)
  deriving DecidableEq, Repr

/-- Host memory: the bytes that something has written, by rising address (R60; log entry 5). -/
abbrev Memory := List Host.Cell

/-- Everything the spec gives the machine, and the five fields of the model's own at its end. -/
structure State where
  /-- `STATUS.STATE` (R35) -/
  state       : EngineState
  /-- `STATUS.ERR` (R35) -/
  err         : Err
  /-- `CMD.OP` (R34) -/
  op          : Op
  /-- `WIDTH` (R33) -/
  width       : Word32
  /-- `HEIGHT` (R33) -/
  height      : Word32
  /-- `CHANNELS` (R33) -/
  channels    : Byte
  /-- `COLORSPACE` (R33), the raw byte (R136) -/
  colorspace  : Byte
  /-- `IN_BASE` (R34), a byte address -/
  inBase      : Nat
  /-- `IN_LEN` (R34) -/
  inLen       : Nat
  /-- `OUT_BASE` (R34), a byte address -/
  outBase     : Nat
  /-- `OUT_LEN` (R31) -/
  outLen      : Nat
  /-- `OUT_CAPACITY`, the bytes the host provides at `OUT_BASE` (R6, R68) -/
  outCapacity : Nat
  /-- `PHASE` (R32) -/
  phase       : Phase
  /-- `cache[0..63]` (R27) -/
  cache       : Vector Pixel 64
  /-- `prev` (R24) -/
  prev        : Pixel
  /-- `run` (R25) -/
  run         : BitVec 6
  /-- `pix` (R29) -/
  pix         : Nat
  /-- `pos` (R30) -/
  pos         : Nat
  /-- host memory (R60) -/
  mem         : Memory
  /-- `MAGIC`, `CHECK_MAGIC` and `CSR_MAP` (R6) -/
  params      : Params
  /-- the model's own: the position within `PHASE = HDR` (log entry 12) -/
  hdrStep     : HdrStep
  /-- the model's own: the host's actions still to come, oldest first (log entry 11) -/
  host        : List HostAct
  /-- the model's own: what the host's last read returned (log entry 11) -/
  answer      : HostAnswer
  /-- the model's own: an operation was issued and the host has not yet read a final `STATE` of it (R71; log entry 26) -/
  unread      : Bool
  /-- the model's own: the counter of free values (log entry 1) -/
  free        : Nat
  deriving DecidableEq, Repr

/-- Why the machine stops with a fault. -/
inductive Fault where
  /-- Raised by the append that would pass `OUT_CAPACITY`: the engine has no further step and never reaches `DONE`
  (R68, D3, U6: stuck). Safe. -/
  | outputStuck
  /-- Raised by an engine read `In(k)` with `k >= IN_LEN`, where `In` is not defined (R10), or of an input byte the host
  never placed, a broken duty (R293). Safe. -/
  | noInputByte
  /-- Raised by a host read of a byte of memory nothing has written (log entry 5). Safe. -/
  | unwrittenByte
  /-- Raised by a host access to a byte of memory at an address wider than the bus address (R60; log entry 28). Safe. -/
  | noSuchAddress
  /-- Raised in a sequencer position no rule gives a step to (`FTR` of a DECODE, R32; a body step with
  `pix >= NPIX`, R174). No run reaches one. Safe. -/
  | noEngineStep
  deriving DecidableEq, Repr

/-- Why the machine has no meaning for what is asked. -/
inductive Refusal where
  /-- Raised by `exec` for an instruction that has no meaning yet. Safe. -/
  | notModelled (mnemonic : String)
  /-- Raised by a host action other than a `STATUS` read or a reset while `STATE = BUSY`: the host has no such move
  (R266, U10: refuse). Safe. -/
  | hostAccessWhileBusy
  /-- Raised by a host action other than a `STATUS` read or a reset after `STATE` has left `BUSY` and before the host has
  read `DONE` or `ERROR`: the host has no such move (R71, R74, R297). Safe. -/
  | finalStatusUnread
  /-- Raised by ISSUE with overlapping input and output buffers: the host has no such move (R69, U11: refuse). Safe. -/
  | overlappingBuffers
  /-- Raised by ISSUE with a buffer that has a byte beyond the bus address: the host has no such move, it provides
  `OUT_CAPACITY` writable bytes and places its input (R60, R293). Safe. -/
  | bufferBeyondMemory
  /-- Raised by ISSUE with a byte of the input buffer that nothing has written: the host has no such move (R293 duty 3,
  R294). Safe. -/
  | inputNotPlaced
  /-- Raised by a bus access where `CSR_MAP` places no register or several, by one R36 grants nobody, and by a write of a
  value that does not fit its register (R11): the host has no such move (R36, R37; log entry 19). Safe. -/
  | noSuchAccess
  deriving DecidableEq, Repr

/-- The machine right after power-on reset (R40, R290). `STATE`, `ERR` and `OUT_LEN` are the spec's; the value of every
other register is a DESIGN CHOICE (log entry 6; log entries 2 and 3 for the parameters). -/
def State.reset : State where
  state := .idle
  err := .noError
  op := .encode
  width := 0#32
  height := 0#32
  channels := 0#8
  colorspace := 0#8
  inBase := 0
  inLen := 0
  outBase := 0
  outLen := 0
  outCapacity := 0
  phase := .hdr
  cache := Vector.replicate 64 zeroPixel
  prev := prevInit
  run := 0#6
  pix := 0
  pos := 0
  mem := []
  params := ⟨Config.magic, false, Config.csrMap⟩
  hdrStep := .opInit
  host := []
  answer := .nothing
  unread := false
  free := 0

end Sys2Proof.Machine
end

