-- ==== Sys2Proof/Machine/Ops.lean ====
section
/-! DEFINITION. The named operations over memory and registers: reading and appending bytes (00_scope.md R10), the byte
order of the header (20_memory.md R63), the pixel cache (41_pixel_cache.md R152 to R154), the free values, ABORT
(60_exceptions.md R263), the end of an operation and power-on reset (70_reset_and_hazards.md R290). -/

namespace Sys2Proof.Machine

/-! ## Memory: a list of cells by rising address -/

/-- The canonical form: addresses strictly rising. An unlisted address reads as no value (log entry 5), so no entry can
equal what an unlisted address reads as. -/
abbrev Memory.wf (m : Memory) : Prop := m.Pairwise (fun c d => c.1 < d.1)

/-- The byte at an address, `none` where nothing has written one: the ONE definition of what an unlisted address reads
as (log entry 5). -/
def Memory.read : Memory → Nat → Option Byte
  | [], _ => none
  | (b, v) :: m, a => if a = b then some v else Memory.read m a

/-- `MemWrite(addr, 1, v)` (R10). -/
def Memory.write : Memory → Nat → Byte → Memory
  | [], a, v => [(a, v)]
  | (b, w) :: m, a, v =>
    if a < b then (a, v) :: (b, w) :: m
    else if a = b then (a, v) :: m
    else (b, w) :: Memory.write m a v

/-- The bytes of a list written at rising addresses from `a`. -/
def Memory.writeList : Memory → Nat → List Byte → Memory
  | m, _, [] => m
  | m, a, v :: vs => Memory.writeList (m.write a v) (a + 1) vs

/-- `n` cells from address `a` that hold the free bytes `ctr`, `ctr + 1`, ... (log entry 1). -/
def freeCells (a ctr : Nat) : Nat → Memory
  | 0 => []
  | n + 1 => (a, Config.freeByte ctr) :: freeCells (a + 1) (ctr + 1) n

/-- The `n` bytes from address `a` replaced by free bytes, every other byte kept. -/
def Memory.fillFree (m : Memory) (a ctr n : Nat) : Memory :=
  m.filter (fun c => decide (c.1 < a)) ++ freeCells a ctr n ++ m.filter (fun c => decide (a + n ≤ c.1))

/-! ## The input and output buffers -/

/-- `In(k)`: byte `k` of the input buffer, defined only for `k < IN_LEN` (R10). -/
def State.readIn (s : State) (k : Nat) : Option Byte := if k < s.inLen then s.mem.read (s.inBase + k) else none

/-- `In(k), In(k+1), ..., In(k+n-1)`. -/
def State.readInBytes (s : State) (k : Nat) : Nat → Option (List Byte)
  | 0 => some []
  | n + 1 =>
    match s.readIn k, s.readInBytes (k + 1) n with
    | some v, some vs => some (v :: vs)
    | _, _ => none

/-- `OutAppend(v)` (R10). `none`: the append would pass `OUT_CAPACITY`, and the engine has no step there (R68). -/
def State.outAppend (v : Byte) (s : State) : Option State :=
  if s.outLen < s.outCapacity then
    some { s with mem := s.mem.write (s.outBase + s.outLen) v, outLen := s.outLen + 1 }
  else none

/-- `OutAppendAll(v0, v1, ...)`: `OutAppend` of each byte in the order written (R10). -/
def State.outAppendAll : List Byte → State → Option State
  | [], s => some s
  | v :: vs, s =>
    match s.outAppend v with
    | some t => State.outAppendAll vs t
    | none => none

/-- Whether the input buffer `[IN_BASE, IN_BASE + IN_LEN)` and the output buffer `[OUT_BASE, OUT_BASE + OUT_CAPACITY)` have
no byte in common (R69). -/
def State.buffersDisjoint (s : State) : Bool :=
  decide (s.inBase + s.inLen ≤ s.outBase) || decide (s.outBase + s.outCapacity ≤ s.inBase)
    || decide (s.inLen = 0) || decide (s.outCapacity = 0)

/-- Whether a bus address of host memory exists: it is as wide as `CSR_MAP` says at most (R60; log entry 28). -/
def State.addressExists (s : State) (a : Nat) : Bool := decide (a < 2 ^ s.params.csrMap.addressBits)

/-- Whether every byte of both buffers exists (R60, R293). -/
def State.buffersExist (s : State) : Bool :=
  (decide (s.inLen = 0) || decide (s.inBase + s.inLen ≤ 2 ^ s.params.csrMap.addressBits))
    && (decide (s.outCapacity = 0) || decide (s.outBase + s.outCapacity ≤ 2 ^ s.params.csrMap.addressBits))

/-- Whether the host has placed every byte of the input buffer (R293 duty 3). -/
def State.inputPresent (s : State) : Bool := (List.range s.inLen).all (fun k => (s.readIn k).isSome)

/-! ## Byte order (R63): big-endian 32-bit integers -/

/-- The four bytes of a header word, the most significant first. -/
def beBytes (w : Word32) : List Byte :=
  [w.extractLsb' 24 8, w.extractLsb' 16 8, w.extractLsb' 8 8, w.extractLsb' 0 8]

/-- The header word whose bytes are `b3` (most significant) to `b0`. -/
def beWord (b3 b2 b1 b0 : Byte) : Word32 := b3 ++ b2 ++ b1 ++ b0

/-! ## The pixel cache and `prev` -/

/-- `cache[i]` (R27). -/
def State.cacheRead (s : State) (i : BitVec 6) : Pixel := s.cache[i.toNat]'i.isLt

/-- `cache[i] <- p` (R27). -/
def State.cacheWrite (i : BitVec 6) (p : Pixel) (s : State) : State := { s with cache := s.cache.set i.toNat p i.isLt }

/-- UPDATE: `cache[hash(p)] <- p` (R153). -/
def State.cacheUpdate (p : Pixel) (s : State) : State := s.cacheWrite (pixelHash p) p

/-- `prev <- p` (R24). -/
def State.setPrev (p : Pixel) (s : State) : State := { s with prev := p }

/-- `pos <- pos + n` (R30). -/
def State.advancePos (n : Nat) (s : State) : State := { s with pos := s.pos + n }

/-! ## The codes the host reads (R34, R35, R32) -/

def EngineState.code : EngineState → BitVec 2
  | .idle => 0#2
  | .busy => 1#2
  | .done => 2#2
  | .error => 3#2

def Err.code : Err → BitVec 3
  | .noError => 0#3
  | .invalidChannelCount => 1#3
  | .invalidColorspace => 2#3
  | .truncatedStream => 3#3
  | .invalidInputLength => 4#3
  | .badMagic => 5#3

def Op.code : Op → BitVec 1
  | .encode => 0#1
  | .decode => 1#1

def Phase.code : Phase → BitVec 2
  | .hdr => 0#2
  | .body => 1#2
  | .ftr => 2#2

/-! ## Free values: what the spec leaves unspecified (93_implementation_defined.md; log entries 1, 7, 8, 9, 15) -/

/-- A pixel of four free bytes. -/
def freePixel (ctr : Nat) : Pixel :=
  ⟨Config.freeByte ctr, Config.freeByte (ctr + 1), Config.freeByte (ctr + 2), Config.freeByte (ctr + 3)⟩

/-- A cache of free pixels. -/
def freeCache (ctr : Nat) : Vector Pixel 64 := Vector.ofFn (fun i => freePixel (ctr + 4 * i.val))

/-- A free value of `run` within the range 0..62 that R25 gives it (log entry 21). -/
def freeRun (ctr : Nat) : BitVec 6 := BitVec.ofNat 6 (Config.freeNat ctr % 63)

/-- A free value of `PHASE`, one of the three it can hold (R32). -/
def freePhase (ctr : Nat) : Phase :=
  if Config.freeBit ctr then .hdr else if Config.freeBit (ctr + 1) then .body else .ftr

/-- The output buffer from byte `k` on, `[OUT_BASE + k, OUT_BASE + OUT_CAPACITY)`, holds unspecified values (U7, U9, U13). -/
def State.freeOutput (k : Nat) (s : State) : State :=
  { s with mem := s.mem.fillFree (s.outBase + k) s.free (s.outCapacity - k), free := s.free + (s.outCapacity - k) }

/-- The four header registers hold unspecified values (R263, U8). -/
def State.freeHeader (s : State) : State :=
  { s with width := Config.freeWord s.free, height := Config.freeWord (s.free + 1),
           channels := Config.freeByte s.free, colorspace := Config.freeByte (s.free + 1), free := s.free + 2 }

/-- `cache`, `prev`, `run`, `pos`, `pix` and `PHASE` hold unspecified values: between operations (R39, U14), after an ABORT
(R263) and after power-on reset (R40). -/
def State.freeInternals (s : State) : State :=
  { s with cache := freeCache s.free, prev := freePixel (s.free + 256), phase := freePhase s.free,
           run := freeRun s.free, pos := Config.freeNat (s.free + 1), pix := Config.freeNat (s.free + 2),
           free := s.free + 260 }

/-- The buffer registers and `CMD` hold unspecified values; an address register holds an address (R40, U12; log entry 21). -/
def State.freeCommand (s : State) : State :=
  { s with op := (if Config.freeBit s.free then .decode else .encode),
           inBase := Config.freeNat s.free % 2 ^ s.params.csrMap.addressBits, inLen := Config.freeNat (s.free + 1),
           outBase := Config.freeNat (s.free + 2) % 2 ^ s.params.csrMap.addressBits,
           free := s.free + 3 }

/-! ## The ends of an operation -/

/-- ABORT, what `raise E` does (R263): the code, `STATE <- ERROR`, `OUT_LEN <- 0`; the output buffer, after a DECODE the
header registers, and the discarded working state hold unspecified values. There is no return from it (R264). -/
def State.abort (e : Err) (s : State) : State :=
  let s1 := s.freeOutput 0
  let s2 := if s.op = .decode then s1.freeHeader else s1
  { s2.freeInternals with state := .error, err := e, outLen := 0 }

/-- `STATE <- DONE` (R133, R232). The output bytes below `OUT_LEN` are the result; those beyond it hold unspecified values
(U9), and so does the working state between operations (R39, U14). -/
def State.complete (s : State) : State := { (s.freeOutput s.outLen).freeInternals with state := .done }

/-- PORESET (R290): the values of R40, every unspecified one a free value (log entry 7). Host memory keeps its bytes, but
for the output buffer of an operation the reset interrupts, or whose end the host had not read (U13, R71; log entry 7). -/
def State.powerOn (s : State) : State :=
  let s1 := if s.state = .busy ∨ s.unread = true then s.freeOutput 0 else s
  { s1.freeHeader.freeInternals.freeCommand with state := .idle, err := .noError, outLen := 0, unread := false }

/-! ## Placing a chunk where the engine fetches its next instruction (log entry 16) -/

/-- `s` in the body of a DECODE whose chunk region holds exactly the bytes `bs` from `pos` on, followed by room for the
footer, with an output buffer beyond the input that takes the longest result of one chunk (62 pixels of 4 bytes). -/
def State.placeChunk (s : State) (bs : List Byte) : State :=
  { s with state := .busy, err := .noError, op := .decode, phase := .body, host := [], unread := true,
           channels := (if s.channels = 4#8 then 4#8 else 3#8),
           inLen := s.pos + bs.length + 8,
           outBase := s.inBase + s.pos + bs.length + 8,
           outCapacity := s.outLen + 248,
           mem := s.mem.writeList (s.inBase + s.pos) bs }

end Sys2Proof.Machine
end

