-- ==== Sys2Proof/Machine/Operands.lean ====
section
/-! DEFINITION. The operand forms: the encoder's input pixel (42_encoder.md R172), the header a stream carries
(40_framing.md R130), the decoder's reconstructed pixels (43_decoder.md R226 to R230) and PIXEL_OUT (R225). The fields of
a chunk become operands in the decoder of chunks (30_encoding.md R102). -/

namespace Sys2Proof.Machine

/-- `NPIX = WIDTH * HEIGHT`, exact (R29, R170). -/
def State.npix (s : State) : Nat := s.width.toNat * s.height.toNat

/-- PIXEL_FETCH: pixel `i` of the raw pixel buffer; alpha is 255 when there are 3 channels (R61, R172). -/
def State.fetchPixel (s : State) (i : Nat) : Option Pixel :=
  let ch := s.channels.toNat
  match s.readIn (i * ch), s.readIn (i * ch + 1), s.readIn (i * ch + 2) with
  | some r, some g, some b =>
    if s.channels = 4#8 then
      match s.readIn (i * ch + 3) with
      | some a => some ⟨r, g, b, a⟩
      | none => none
    else some ⟨r, g, b, 255#8⟩
  | _, _, _ => none

/-- The 14 header bytes: `MAGIC`, width, height, channel count, colorspace (R90, R130, R136). -/
def State.headerBytes (s : State) : List Byte :=
  s.params.magic.toList ++ beBytes s.width ++ beBytes s.height ++ [s.channels, s.colorspace]

/-- The 8 footer bytes: seven zero bytes and one byte of value 1 (R92). -/
def footerBytes : List Byte := [0#8, 0#8, 0#8, 0#8, 0#8, 0#8, 0#8, 1#8]

/-- `HEADER_LEN` (R5). -/
def headerLength : Nat := 14

/-- `FOOTER_LEN` (R5). -/
def footerLength : Nat := 8

/-- The pixel an RGB chunk reconstructs: alpha unchanged (R226). -/
def rgbPixel (r g b : Byte) (prev : Pixel) : Pixel := ⟨r, g, b, prev.a⟩

/-- The pixel a DIFF chunk reconstructs: the deltas added with wrapping, alpha unchanged (R229). -/
def diffPixel (dr dg db : Int) (prev : Pixel) : Pixel :=
  ⟨wrapAdd prev.r dr, wrapAdd prev.g dg, wrapAdd prev.b db, prev.a⟩

/-- The pixel a LUMA chunk reconstructs: `dg + dr_off`, `dg`, `dg + db_off` added with wrapping, alpha unchanged (R230). -/
def lumaPixel (dg drOff dbOff : Int) (prev : Pixel) : Pixel :=
  ⟨wrapAdd prev.r (dg + drOff), wrapAdd prev.g dg, wrapAdd prev.b (dg + dbOff), prev.a⟩

/-- PIXEL_OUT: one reconstructed pixel appended (R225). -/
def State.pixelOut (p : Pixel) (s : State) : Option State := s.outAppendAll (pixelBytes s.channels p)

/-- `repeat n times: PIXEL_OUT(p)` (R231). -/
def State.pixelOutRepeat (p : Pixel) : Nat → State → Option State
  | 0, s => some s
  | n + 1, s =>
    match s.pixelOut p with
    | some t => State.pixelOutRepeat p n t
    | none => none

end Sys2Proof.Machine
end

