-- ==== Sys2Proof/Machine/Flags.lean ====
section
/-! DEFINITION. The comparisons the engine chooses by. It has no stored flags or condition codes (10_state.md R38): each of
these is computed where a rule uses it. -/

namespace Sys2Proof.Machine

/-- One DIFF delta in range: -2..1, not symmetric (R179). -/
def inDiffRange (d : Int) : Bool := decide (-2 ≤ d) && decide (d ≤ 1)

/-- `DIFF_OK(dr, dg, db)` (R179). -/
def diffOk (dr dg db : Int) : Bool := inDiffRange dr && inDiffRange dg && inDiffRange db

/-- `-8 <= d <= 7` (R179). -/
def inLumaOffsetRange (d : Int) : Bool := decide (-8 ≤ d) && decide (d ≤ 7)

/-- `LUMA_OK(dr, dg, db)` (R179). -/
def lumaOk (dr dg db : Int) : Bool :=
  decide (-32 ≤ dg) && decide (dg ≤ 31) && inLumaOffsetRange (dr - dg) && inLumaOffsetRange (db - dg)

/-- LOOKUP's `hit`: `cache[hash(cur)] == cur` (R152). -/
def State.cacheHit (s : State) (cur : Pixel) : Bool := decide (s.cacheRead (pixelHash cur) = cur)

/-- TRUNC's test: `pos + n > IN_LEN - 8`, over the integers (R224). -/
def State.truncated (s : State) (n : Nat) : Bool := decide (s.inLen < s.pos + n + footerLength)

/-- Whether the chunk region still holds a byte: `pos < IN_LEN - 8` (R220, R223). -/
def State.chunksRemain (s : State) : Bool := decide (s.pos + footerLength < s.inLen)

/-- `last`: the current pixel is the last of the image (R174). -/
def State.lastPixel (s : State) : Bool := decide (s.pix + 1 = s.npix)

/-- A legal channel count, 3 or 4 (R33). -/
def legalChannels (c : Byte) : Bool := decide (c = 3#8) || decide (c = 4#8)

/-- A legal colorspace byte, 0 or 1 (R33). -/
def legalColorspace (c : Byte) : Bool := decide (c = 0#8) || decide (c = 1#8)

end Sys2Proof.Machine
end

