-- ==== Sys2Proof/Machine/Chunks.lean ====
section
/-! DEFINITION. What each chunk does in a DECODE: 43_decoder.md R224 (TRUNC) and R226 to R231, one meaning per chunk. -/

namespace Sys2Proof.Machine

/-- A chunk of length `n`: TRUNC first (R224), then the chunk's own effect, then `pos <- pos + n` (R223). An effect whose
output would pass `OUT_CAPACITY` leaves the engine stuck (R68). -/
def chunkStep (n : Nat) (effect : State → Option State) (s : State) : Host.Outcome State Fault Refusal :=
  if s.truncated n then .next (s.abort .truncatedStream)
  else
    match effect s with
    | some t => .next (t.advancePos n)
    | none => .fault .outputStuck

/-- `prev <- p; cache[hash(prev)] <- prev; PIXEL_OUT(prev)`: what RGB, RGBA, DIFF and LUMA do with the pixel they
reconstruct (R226, R227, R229, R230). -/
def reconstruct (p : Pixel) (s : State) : Option State := ((s.setPrev p).cacheUpdate p).pixelOut p

/-- DRGB (R226). -/
def execRgb (r g b : Byte) (s : State) : Host.Outcome State Fault Refusal :=
  chunkStep 4 (reconstruct (rgbPixel r g b s.prev)) s

/-- DRGBA (R227); accepted in a 3-channel stream too (R234). -/
def execRgba (r g b a : Byte) (s : State) : Host.Outcome State Fault Refusal :=
  chunkStep 5 (reconstruct ⟨r, g, b, a⟩) s

/-- DINDEX: IDXREAD of the slot as given, the cache not written (R154, R228). -/
def execIndex (i : BitVec 6) (s : State) : Host.Outcome State Fault Refusal :=
  chunkStep 1 (fun s => (s.setPrev (s.cacheRead i)).pixelOut (s.cacheRead i)) s

/-- DDIFF (R229). -/
def execDiff (dr dg db : Int) (s : State) : Host.Outcome State Fault Refusal :=
  chunkStep 1 (reconstruct (diffPixel dr dg db s.prev)) s

/-- DLUMA (R230). -/
def execLuma (dg drOff dbOff : Int) (s : State) : Host.Outcome State Fault Refusal :=
  chunkStep 2 (reconstruct (lumaPixel dg drOff dbOff s.prev)) s

/-- DRUN: `prev` and the cache unchanged (R155, R231). -/
def execRun (n : Nat) (s : State) : Host.Outcome State Fault Refusal :=
  chunkStep 1 (fun s => s.pixelOutRepeat s.prev n) s

end Sys2Proof.Machine
end

