-- ==== Sys2Proof/Machine/Encoder.lean ====
section
/-! DEFINITION. The body of ENCODE (42_encoder.md R174 to R183): `run_length_encoder`, the cache tier and
`differential_pixel_encoder`. `none` is an append that would pass `OUT_CAPACITY` (20_memory.md R68). -/

namespace Sys2Proof.Machine

/-- A chunk appended to the output in its encoding (R94 to R99). -/
def emit (i : Instr) (s : State) : Option State := s.outAppendAll (encode i)

/-- `run <- n` (R25). -/
def State.setRun (n : BitVec 6) (s : State) : State := { s with run := n }

/-- The pending run emitted and cleared: `OutAppend(0xC0 | (run - 1)); run <- 0` (R175, R176). -/
def emitRun (s : State) : Option State :=
  match emit (.run s.run.toNat) s with
  | some t => some (t.setRun 0#6)
  | none => none

/-- RUNDET, for a pixel equal to `prev` (R175). -/
def runDet (last : Bool) (s : State) : Option State :=
  let s1 := s.setRun (s.run + 1#6)
  if s1.run = 62#6 ∨ last = true then emitRun s1 else some s1

/-- RUNFLUSH, for a pixel that differs from `prev` (R176). -/
def runFlush (s : State) : Option State := if s.run = 0#6 then some s else emitRun s

/-- ENCINDEX: a hit emits the slot's number, the cache not written (R177). -/
def encIndex (h : BitVec 6) (s : State) : Option State := emit (.index h) s

/-- ENCDIFF (R180). -/
def encDiff (dr dg db : Int) (s : State) : Option State := emit (.diff dr dg db) s

/-- ENCLUMA (R181). -/
def encLuma (dr dg db : Int) (s : State) : Option State := emit (.luma dg (dr - dg) (db - dg)) s

/-- ENCRGB (R182). -/
def encRgb (cur : Pixel) (s : State) : Option State := emit (.rgb cur.r cur.g cur.b) s

/-- ENCRGBA (R183). -/
def encRgba (cur : Pixel) (s : State) : Option State := emit (.rgba cur.r cur.g cur.b cur.a) s

/-- The choice of `differential_pixel_encoder` in the order DIFF, LUMA, RGB, or RGBA when alpha changed (R174, R179). -/
def encDifferential (cur : Pixel) (s : State) : Option State :=
  if cur.a = s.prev.a then
    let dr := signedDelta cur.r s.prev.r
    let dg := signedDelta cur.g s.prev.g
    let db := signedDelta cur.b s.prev.b
    if diffOk dr dg db then encDiff dr dg db s
    else if lumaOk dr dg db then encLuma dr dg db s
    else encRgb cur s
  else encRgba cur s

/-- ENCMISS: the cache written before the chunk is chosen, whichever it is (R178). -/
def encMiss (cur : Pixel) (s : State) : Option State := encDifferential cur (s.cacheWrite (pixelHash cur) cur)

/-- A pixel that is not part of a run, after the flush: LOOKUP, then the cache tier or a miss (R152, R174). -/
def encCachedOrMiss (cur : Pixel) (s : State) : Option State :=
  if s.cacheHit cur then encIndex (pixelHash cur) s else encMiss cur s

/-- The output of one pixel: RUN before INDEX before DIFF, LUMA, RGB and RGBA (R174). -/
def encPixel (cur : Pixel) (s : State) : Option State :=
  if cur = s.prev then runDet s.lastPixel s
  else
    match runFlush s with
    | some t => encCachedOrMiss cur t
    | none => none

/-- `prev <- cur; pix <- pix + 1`, and the footer after the last pixel (R174). -/
def advancePixel (cur : Pixel) (s : State) : State :=
  { s with prev := cur, pix := s.pix + 1, phase := (if s.pix + 1 = s.npix then .ftr else s.phase) }

/-- ENCSTEP: one input pixel (R174). It has a step only while `pix < NPIX`. -/
def encStep (s : State) : Host.Outcome State Fault Refusal :=
  if s.pix < s.npix then
    match s.fetchPixel s.pix with
    | none => .fault .noInputByte
    | some cur =>
      match encPixel cur s with
      | some t => .next (advancePixel cur t)
      | none => .fault .outputStuck
  else .fault .noEngineStep

end Sys2Proof.Machine
end

