-- ==== Sys2Proof/Machine/Framing.lean ====
section
/-! DEFINITION. OPINIT (70_reset_and_hazards.md R291), the operand and length checks (42_encoder.md R171, 43_decoder.md
R221), the header and footer operations (40_framing.md R130 to R134) and DSTOP (43_decoder.md R232). Each is one whole
step of 70_reset_and_hazards.md R298. -/

namespace Sys2Proof.Machine

/-- OPINIT: 64 zero slots, `prev <- PREV_INIT`, `run <- 0` (R291). -/
def opInit (s : State) : State :=
  { s with cache := Vector.replicate 64 zeroPixel, prev := prevInit, run := 0#6, hdrStep := .check }

/-- ENCVALID: channels, then colorspace, then the exact length (R171, R262). -/
def encValid (s : State) : State :=
  if legalChannels s.channels = false then s.abort .invalidChannelCount
  else if legalColorspace s.colorspace = false then s.abort .invalidColorspace
  else if s.inLen ≠ s.width.toNat * s.height.toNat * s.channels.toNat then s.abort .invalidInputLength
  else { s with hdrStep := .header }

/-- DECVALID: an input shorter than a header and a footer (R221). -/
def decValid (s : State) : State :=
  if s.inLen < headerLength + footerLength then s.abort .truncatedStream else { s with hdrStep := .header }

/-- The start of the encoder's body: `pix <- 0`, and at once the footer for an image of no pixels (R170, D13). -/
def enterEncodeBody (s : State) : State :=
  { s with pix := 0, phase := (if s.npix = 0 then .ftr else .body) }

/-- The start of the decoder's body: `pos <- 14` (R220). -/
def enterDecodeBody (s : State) : State := { s with pos := headerLength, phase := .body }

/-- HEADER_EMIT (R130). -/
def headerEmit (s : State) : Host.Outcome State Fault Refusal :=
  match s.outAppendAll s.headerBytes with
  | some t => .next (enterEncodeBody t)
  | none => .fault .outputStuck

/-- The four header registers from the stream (R131). -/
def State.setHeader (w h : Word32) (ch cs : Byte) (s : State) : State :=
  { s with width := w, height := h, channels := ch, colorspace := cs }

/-- HEADER_PARSE after its channel and colorspace checks: width and height, big-endian (R63, R131). -/
def parseSizes (ch cs : Byte) (s : State) : Host.Outcome State Fault Refusal :=
  match s.readInBytes 4 8 with
  | some [w3, w2, w1, w0, h3, h2, h1, h0] =>
    .next (enterDecodeBody (s.setHeader (beWord w3 w2 w1 w0) (beWord h3 h2 h1 h0) ch cs))
  | _ => .fault .noInputByte

/-- HEADER_PARSE's checks of bytes 12 and 13, in that order (R131, R262). -/
def parseFields (s : State) : Host.Outcome State Fault Refusal :=
  match s.readIn 12 with
  | none => .fault .noInputByte
  | some ch =>
    if legalChannels ch = false then .next (s.abort .invalidChannelCount)
    else
      match s.readIn 13 with
      | none => .fault .noInputByte
      | some cs =>
        if legalColorspace cs = false then .next (s.abort .invalidColorspace)
        else parseSizes ch cs s

/-- HEADER_PARSE: the magic check first, and only when `CHECK_MAGIC` is true (R131, R132). -/
def headerParse (s : State) : Host.Outcome State Fault Refusal :=
  if s.params.checkMagic then
    match s.readInBytes 0 4 with
    | none => .fault .noInputByte
    | some m => if m = s.params.magic.toList then parseFields s else .next (s.abort .badMagic)
  else parseFields s

/-- FOOTER_EMIT: the eight footer bytes, then `STATE <- DONE` (R133). -/
def footerEmit (s : State) : Host.Outcome State Fault Refusal :=
  match s.outAppendAll footerBytes with
  | some t => .next t.complete
  | none => .fault .outputStuck

/-- DSTOP: the chunk region is used up, the footer is not read (R134, R232). -/
def decodeStop (s : State) : State := s.complete

end Sys2Proof.Machine
end

