-- ==== Sys2Proof/Machine/Sequencer.lean ====
section
/-! DEFINITION. The engine's own step: which whole step of 70_reset_and_hazards.md R298 comes next in ENCODE (42_encoder.md
R170) and in DECODE (43_decoder.md R220, R223). -/

namespace Sys2Proof.Machine

/-- The chunk of length `n` at `pos`, read from the input buffer and decoded (R223). -/
def State.fetchChunk (s : State) (n : Nat) : Option Instr :=
  match s.readInBytes s.pos n with
  | none => none
  | some bs =>
    match decode bs with
    | .ok (i, _) => some i
    | .error _ => none

/-- DSTEP: the tag byte, its length, TRUNC before any operand byte is read (so that no footer byte is ever taken as one,
R224), then the chunk (R223). -/
def decStep (s : State) : Host.Outcome State Fault Refusal :=
  match s.readIn s.pos with
  | none => .fault .noInputByte
  | some b =>
    if s.truncated (tagLength b) then .next (s.abort .truncatedStream)
    else
      match s.fetchChunk (tagLength b) with
      | some i => exec i s
      | none => .fault .noInputByte

/-- The step of `PHASE = HDR` that comes next (R170, R220, R298). -/
def headerPhase (s : State) : Host.Outcome State Fault Refusal :=
  match s.hdrStep, s.op with
  | .opInit, _ => .next (opInit s)
  | .check, .encode => .next (encValid s)
  | .check, .decode => .next (decValid s)
  | .header, .encode => headerEmit s
  | .header, .decode => headerParse s

/-- The step of a DECODE's body: a chunk while the chunk region lasts, then DSTOP (R220). -/
def decodeBody (s : State) : Host.Outcome State Fault Refusal :=
  if s.chunksRemain then decStep s else .next (decodeStop s)

/-- One whole step of the operation in progress (R170, R220, R298). -/
def engineStep (s : State) : Host.Outcome State Fault Refusal :=
  match s.phase, s.op with
  | .hdr, _ => headerPhase s
  | .body, .encode => encStep s
  | .body, .decode => decodeBody s
  | .ftr, .encode => footerEmit s
  | .ftr, .decode => .fault .noEngineStep

/-- The engine's turn: it moves while `BUSY` and stays as it is otherwise (R276, R294). -/
def engineTurn (s : State) : Host.Outcome State Fault Refusal :=
  if s.state = .busy then engineStep s else .next s

end Sys2Proof.Machine
end

