-- ==== Sys2Proof/Machine/HostMoves.lean ====
section
/-! DEFINITION. The host: its accesses (10_state.md R36, R37), ISSUE (60_exceptions.md R265), its duties while `BUSY` (R266),
power-on reset (70_reset_and_hazards.md R290), and whose turn it is (log entry 11). -/

namespace Sys2Proof.Machine

/-- The value of a register as the host reads it (R36). -/
def State.hostRegister (s : State) : HostReg → Nat
  | .width => s.width.toNat
  | .height => s.height.toNat
  | .channels => s.channels.toNat
  | .colorspace => s.colorspace.toNat
  | .inBase => s.inBase
  | .inLen => s.inLen
  | .outBase => s.outBase
  | .outLen => s.outLen

/-- The interface registers. -/
def csrRegs : List CsrReg := [.cmd, .status, .width, .height, .channels, .colorspace, .inBase, .inLen, .outBase, .outLen]

/-- The bus address of a register (R37). -/
def csrAddr (m : CsrMap) : CsrReg → Nat
  | .cmd => m.cmd
  | .status => m.status
  | .width => m.width
  | .height => m.height
  | .channels => m.channels
  | .colorspace => m.colorspace
  | .inBase => m.inBase
  | .inLen => m.inLen
  | .outBase => m.outBase
  | .outLen => m.outLen

/-- The register at a bus address, where there is exactly one (R37; log entry 19). -/
def csrAt (m : CsrMap) (a : Nat) : Option CsrReg :=
  match csrRegs.filter (fun r => decide (csrAddr m r = a)) with
  | [r] => some r
  | _ => none

/-- A write of a value to a register, where R36 grants one and the value fits the register (R11, R33, R34). -/
def csrWrite (r : CsrReg) (v : Nat) : Option HostAct :=
  match r with
  | .cmd => if v = 0 then some (.issue .encode) else if v = 1 then some (.issue .decode) else none
  | .status => none
  | .width => if v < 2 ^ 32 then some (.writeWidth (BitVec.ofNat 32 v)) else none
  | .height => if v < 2 ^ 32 then some (.writeHeight (BitVec.ofNat 32 v)) else none
  | .channels => if v < 2 ^ 8 then some (.writeChannels (BitVec.ofNat 8 v)) else none
  | .colorspace => if v < 2 ^ 8 then some (.writeColorspace (BitVec.ofNat 8 v)) else none
  | .inBase => some (.writeInBase v)
  | .inLen => some (.writeInLen v)
  | .outBase => some (.writeOutBase v)
  | .outLen => none

/-- A read of a register, where R36 grants one. -/
def csrRead (r : CsrReg) : Option HostAct :=
  match r with
  | .cmd => none
  | .status => some .readStatus
  | .width => some (.readReg .width)
  | .height => some (.readReg .height)
  | .channels => some (.readReg .channels)
  | .colorspace => some (.readReg .colorspace)
  | .inBase => some (.readReg .inBase)
  | .inLen => some (.readReg .inLen)
  | .outBase => some (.readReg .outBase)
  | .outLen => some (.readReg .outLen)

/-- A bus access as the access to the named register that `CSR_MAP` finds, if there is one; every other action as it is
(R37). -/
def resolveBus (m : CsrMap) (a : HostAct) : HostAct :=
  match a with
  | .busWrite k v => ((csrAt m k).bind (fun r => csrWrite r v)).getD a
  | .busRead k => ((csrAt m k).bind csrRead).getD a
  | _ => a

/-- ISSUE's effect (R265): a write of `CMD` starts the operation at OPINIT. -/
def State.startOperation (op : Op) (s : State) : State :=
  { s with op := op, state := .busy, err := .noError, outLen := 0, phase := .hdr, hdrStep := .opInit, unread := true }

/-- ISSUE; the host has no such move when the buffers overlap (R69, U11), when a byte of them does not exist, or when a byte
of the input has not been placed (R293, R294). -/
def issueCommand (op : Op) (s : State) : Host.Outcome State Fault Refusal :=
  if s.buffersDisjoint = false then .refused .overlappingBuffers
  else if s.buffersExist = false then .refused .bufferBeyondMemory
  else if s.inputPresent = false then .refused .inputNotPlaced
  else .next (s.startOperation op)

/-- A poll: the codes of `STATE` and `ERR` (R35, R294); one that reads `DONE` or `ERROR` orders the operation before the
host's later accesses (R71, R72). -/
def readStatus (s : State) : State :=
  { s with answer := .status s.state.code s.err.code,
           unread := if s.state = .done ∨ s.state = .error then false else s.unread }

/-- A host read of one byte of memory (R60). -/
def readHostByte (a : Nat) (s : State) : Host.Outcome State Fault Refusal :=
  if s.addressExists a then
    match s.mem.read a with
    | some v => .next { s with answer := .byte v }
    | none => .fault .unwrittenByte
  else .fault .noSuchAddress

/-- A host write of one byte of memory (R60). -/
def writeHostByte (a : Nat) (v : Byte) (s : State) : Host.Outcome State Fault Refusal :=
  if s.addressExists a then .next { s with mem := s.mem.write a v } else .fault .noSuchAddress

/-- A write of `a` to a register that holds an address (R34, R60), which `a` must be (R11). -/
def whenAddress (s : State) (a : Nat) (o : Host.Outcome State Fault Refusal) : Host.Outcome State Fault Refusal :=
  if s.addressExists a then o else .refused .noSuchAccess

/-- An access the host has only while `STATE` is not `BUSY` (R36, R266) and once it has read the final `STATE` of the last
operation (R71, R74, R297). -/
def whenHostMay (s : State) (o : Host.Outcome State Fault Refusal) : Host.Outcome State Fault Refusal :=
  if s.state = .busy then .refused .hostAccessWhileBusy
  else if s.unread then .refused .finalStatusUnread
  else o

/-- One action of the host, a bus access resolved. One that is left finds no register or no access (R36, R37). -/
def directMove (a : HostAct) (s : State) : Host.Outcome State Fault Refusal :=
  match a with
  | .writeWidth v => whenHostMay s (.next { s with width := v })
  | .writeHeight v => whenHostMay s (.next { s with height := v })
  | .writeChannels v => whenHostMay s (.next { s with channels := v })
  | .writeColorspace v => whenHostMay s (.next { s with colorspace := v })
  | .writeInBase n => whenHostMay s (whenAddress s n (.next { s with inBase := n }))
  | .writeInLen n => whenHostMay s (.next { s with inLen := n })
  | .writeOutBase n => whenHostMay s (whenAddress s n (.next { s with outBase := n }))
  | .provideOutput n => whenHostMay s (.next { s with outCapacity := n })
  | .placeByte k v => whenHostMay s (writeHostByte k v s)
  | .issue op => whenHostMay s (issueCommand op s)
  | .readStatus => .next (readStatus s)
  | .readReg r => whenHostMay s (.next { s with answer := .number (s.hostRegister r) })
  | .readByte k => whenHostMay s (readHostByte k s)
  | .busWrite _ _ => whenHostMay s (.refused .noSuchAccess)
  | .busRead _ => whenHostMay s (.refused .noSuchAccess)
  | .powerOnReset => .next s.powerOn
  | .tick => engineTurn s
  | .await => engineTurn s

/-- One action of the host. -/
def hostMove (a : HostAct) (s : State) : Host.Outcome State Fault Refusal := directMove (resolveBus s.params.csrMap a) s

/-- Whose turn it is (log entry 11): with no action pending the engine's; while the host awaits, the engine's until `STATE`
leaves `BUSY`, which the host then reads; otherwise the host's oldest action. -/
def nextTurn (s : State) : Host.Outcome State Fault Refusal :=
  match s.host with
  | [] => engineTurn s
  | .await :: rest => if s.state = .busy then engineTurn s else .next (readStatus { s with host := rest })
  | a :: rest => hostMove a { s with host := rest }

end Sys2Proof.Machine
end

