-- ==== Sys2Proof/Machine/Step.lean ====
section
/-! DEFINITION. One step of the machine, and the state in which the next step runs a given instruction. -/

namespace Sys2Proof.Machine

/-- One step: a whole step of the engine (R298) or one action of the host (R294). -/
def step (s : State) : Host.Outcome State Fault Refusal := nextTurn s

/-- `s` with an instruction of the opcode table stored where the engine fetches its next one (log entry 16). -/
def State.withFetchWord (s : State) (nbits w : Nat) : State := s.placeChunk (tableBytes nbits w)

end Sys2Proof.Machine
end

