-- ==== Sys2Proof/Safety.lean ====
section
/-! DEFINITION. What the statements are said in terms of: the invariant of the machine, the working position of an
operation, the steps an operation has left, and what a completed append looks like. -/

namespace Sys2Proof.Machine

/-- The header registers hold legal values (R33). -/
def State.headerLegal (s : State) : Prop := legalChannels s.channels = true ∧ legalColorspace s.colorspace = true

/-- What ENCVALID has established (R171). -/
def State.encodeChecked (s : State) : Prop :=
  s.headerLegal ∧ s.inLen = s.width.toNat * s.height.toNat * s.channels.toNat

/-- The working state OPINIT leaves (R291). -/
def State.workingFresh (s : State) : Prop :=
  s.cache = Vector.replicate 64 zeroPixel ∧ s.prev = prevInit ∧ s.run = 0#6

/-- What holds while an operation is in progress, by its position (R29, R30, R32, R170, R184, R220). -/
def State.positionInv (s : State) : Prop :=
  match s.phase, s.op with
  | .hdr, op =>
    s.outLen = 0
      ∧ (s.hdrStep ≠ .opInit → s.workingFresh)
      ∧ (s.hdrStep = .header → op = .encode → s.encodeChecked)
      ∧ (s.hdrStep = .header → op = .decode → headerLength + footerLength ≤ s.inLen)
  | .body, .encode =>
    s.encodeChecked ∧ s.pix < s.npix ∧ s.run.toNat ≤ 61 ∧ (s.channels = 3#8 → s.prev.a = 255#8)
  | .body, .decode => s.headerLegal ∧ headerLength ≤ s.pos ∧ s.pos + footerLength ≤ s.inLen
  | .ftr, .encode => s.encodeChecked ∧ s.pix = s.npix ∧ s.run = 0#6
  | .ftr, .decode => False

/-- The invariant of the machine: memory is in canonical form; `run` is at most 62 (R25); an error code is held exactly in
`ERROR` (R35), where there is no result (R263); and while an operation is in progress its buffers are apart (R69), it has
not passed the output capacity (R68), and its position is a legal one. -/
def State.Inv (s : State) : Prop :=
  s.mem.wf ∧ s.run.toNat ≤ 62 ∧ (s.err = .noError ↔ s.state ≠ .error) ∧ (s.state = .idle ∨ s.state = .error → s.outLen = 0)
    ∧ (s.state = .busy → s.buffersDisjoint = true ∧ s.outLen ≤ s.outCapacity ∧ s.positionInv)

/-- R28: a slot holds a pixel whose hash is the slot's number, or the zero pixel. -/
def State.slotsHashed (s : State) : Prop :=
  ∀ i : BitVec 6, s.cacheRead i = zeroPixel ∨ pixelHash (s.cacheRead i) = i

/-- The engine is to move: `BUSY`, and the host has no action pending. -/
def State.engineMoves (s : State) : Prop := s.state = .busy ∧ s.host = []

/-- The body of an ENCODE at a pixel whose value is `cur` (R174). -/
def State.atPixel (s : State) (cur : Pixel) : Prop :=
  s.engineMoves ∧ s.op = .encode ∧ s.phase = .body ∧ s.pix < s.npix ∧ s.fetchPixel s.pix = some cur

/-- The body of a DECODE with chunks left (R223). -/
def State.atChunk (s : State) : Prop :=
  s.engineMoves ∧ s.op = .decode ∧ s.phase = .body ∧ s.chunksRemain = true

/-- Every byte of the input buffer has been placed (R293). -/
def State.inputPlaced (s : State) : Prop := ∀ k, k < s.inLen → (s.readIn k).isSome = true

/-- The host may touch registers and memory: no operation is in progress, and the host has read the end of the last one
(R36, R71). -/
def State.hostMayAccess (s : State) : Prop := s.state ≠ .busy ∧ s.unread = false

/-- No two registers share a bus address (R37: `CSR_MAP` says where each register sits). -/
def csrDistinct (m : CsrMap) : Prop := ∀ q r : CsrReg, csrAddr m q = csrAddr m r → q = r

/-- What the host's duties (R294) establish: while an operation is in progress its end is unread; from ISSUE until the host
reads that end the buffers are apart and exist and the input stays placed (R69, R74, R293); and an address register holds an
address (R11, R60). -/
def State.dutiesKept (s : State) : Prop :=
  (s.state = .busy → s.unread = true) ∧ (s.state = .idle → s.unread = false)
    ∧ (s.unread = true → s.buffersDisjoint = true ∧ s.buffersExist = true ∧ s.inputPlaced)
    ∧ s.addressExists s.inBase = true ∧ s.addressExists s.outBase = true

/-- `n` more bytes fit the output buffer (R68). -/
def State.fits (s : State) (n : Nat) : Prop := s.outLen + n ≤ s.outCapacity

/-- `t`'s output is `s`'s with `bs` appended, and every other byte of memory is as it was (R10). -/
def Appended (s t : State) (bs : List Byte) : Prop :=
  t.outBase = s.outBase ∧ t.outLen = s.outLen + bs.length
    ∧ (∀ k v, bs[k]? = some v → t.mem.read (s.outBase + s.outLen + k) = some v)
    ∧ (∀ a, a < s.outBase + s.outLen ∨ s.outBase + s.outLen + bs.length ≤ a → t.mem.read a = s.mem.read a)

/-- Every register of the interface but `OUT_LEN`, the parameters and the model's own fields are as they were, and so is
the operation's progress through its phases. -/
def SameInterface (s t : State) : Prop :=
  t.state = s.state ∧ t.err = s.err ∧ t.op = s.op ∧ t.width = s.width ∧ t.height = s.height ∧ t.channels = s.channels
    ∧ t.colorspace = s.colorspace ∧ t.inBase = s.inBase ∧ t.inLen = s.inLen ∧ t.outBase = s.outBase
    ∧ t.outCapacity = s.outCapacity ∧ t.params = s.params ∧ t.hdrStep = s.hdrStep ∧ t.host = s.host
    ∧ t.answer = s.answer ∧ t.unread = s.unread ∧ t.free = s.free

/-- The bytes that flush a pending run (R176): none, or the RUN byte `0xC0 | (run - 1)`. -/
def State.pendingRun (s : State) : List Byte :=
  if s.run = 0#6 then [] else [0xC0#8 ||| BitVec.ofNat 8 (s.run.toNat - 1)]

/-- The body of an ENCODE at a pixel `cur` that differs from `prev`, with room for the pending run and the chunk bytes
`bs` (R174, R176). -/
def State.atNewPixel (s : State) (cur : Pixel) (bs : List Byte) : Prop :=
  s.atPixel cur ∧ cur ≠ s.prev ∧ s.run.toNat ≤ 61 ∧ s.fits (s.pendingRun.length + bs.length)

/-- What ENCSTEP leaves after a pixel `cur` that differs from `prev`: the pending run and the chunk `bs` appended in that
order, `prev`, `run`, `pix` and `PHASE` written (R174, R176). -/
def NewPixelDone (s t : State) (cur : Pixel) (bs : List Byte) : Prop :=
  Appended s t (s.pendingRun ++ bs) ∧ t.prev = cur ∧ t.run = 0#6 ∧ t.pix = s.pix + 1
    ∧ t.phase = (if s.pix + 1 = s.npix then .ftr else .body) ∧ t.pos = s.pos ∧ SameInterface s t

/-- The cache of `t` is that of `s` with `p` written to the slot its hash names (R153). -/
def CacheUpdated (s t : State) (p : Pixel) : Prop :=
  ∀ j : BitVec 6, t.cacheRead j = if j = pixelHash p then p else s.cacheRead j

/-- An issued operation at its first step (R265). -/
def State.atStart (s : State) (op : Op) : Prop :=
  s.engineMoves ∧ s.op = op ∧ s.phase = .hdr ∧ s.hdrStep = .opInit ∧ s.err = .noError ∧ s.outLen = 0 ∧ s.mem.wf
    ∧ s.run.toNat ≤ 62 ∧ s.buffersDisjoint = true

/-- An issued ENCODE whose operands pass ENCVALID, whose input has been placed and whose output buffer takes the largest
result of R68. -/
def State.encodeReady (s : State) : Prop :=
  s.atStart .encode ∧ s.encodeChecked ∧ s.inputPlaced
    ∧ headerLength + footerLength + s.npix * (s.channels.toNat + 1) ≤ s.outCapacity

/-- The steps an operation has at most left (R236, R299). -/
def State.stepsLeft (s : State) : Nat :=
  match s.phase, s.op with
  | .hdr, .encode =>
    s.npix + 1 + (match s.hdrStep with | .opInit => 3 | .check => 2 | .header => 1)
  | .hdr, .decode =>
    (s.inLen - headerLength - footerLength) + 1 + (match s.hdrStep with | .opInit => 3 | .check => 2 | .header => 1)
  | .body, .encode => (s.npix - s.pix) + 1
  | .body, .decode => (s.inLen - footerLength - s.pos) + 1
  | .ftr, _ => 1

end Sys2Proof.Machine
end

