-- ==== Sys2Proof/Certificates/Slice0/Obligations.lean ====
section
/-! DEFINITION. The statements for the provers, from the numbered rules of spec/. -/

open Sys2Proof Sys2Proof.Machine

/-! ## Encoding (30_encoding.md) -/

/-- R102, R94 to R99: the encoder adds the biases the decoder subtracts, so every well-formed chunk decodes back from its
bytes, whatever bytes follow. -/
def Obligations.EncodedChunksDecodeBack : Prop :=
  ∀ (i : Instr) (rest : List Byte), wellFormed i = true → decode (encode i ++ rest) = .ok (i, rest)

/-- R104: every chunk the decoder reads is well formed, and its bytes are exactly its encoding: no bit is dropped. -/
def Obligations.DecodedBytesAreTheEncoding : Prop :=
  ∀ (bs rest : List Byte) (i : Instr), decode bs = .ok (i, rest) → wellFormed i = true ∧ bs = encode i ++ rest

/-- R94 to R99: one word of each chunk, written out from the formats. -/
def Obligations.SampleWordsDecodeToTheirChunks : Prop :=
  decode [0b00001010#8] = .ok (.index 10#6, []) ∧ decode [0b01011110#8] = .ok (.diff (-1) 1 0, [])
    ∧ decode [0b10011111#8, 0b10001111#8] = .ok (.luma (-1) 0 7, []) ∧ decode [0b11111101#8] = .ok (.run 62, [])
    ∧ decode [0b11111110#8, 1#8, 2#8, 3#8] = .ok (.rgb 1#8 2#8 3#8, [])
    ∧ decode [0b11111111#8, 1#8, 2#8, 3#8, 4#8] = .ok (.rgba 1#8 2#8 3#8 4#8, [])

/-- R103: every value of the tag byte, by range, with its kind and its length. -/
def Obligations.TagByteRangesGiveKindAndLength : Prop :=
  ∀ b : Byte,
    (b.toNat ≤ 0x3F → kind b = .index ∧ tagLength b = 1)
      ∧ (0x40 ≤ b.toNat → b.toNat ≤ 0x7F → kind b = .diff ∧ tagLength b = 1)
      ∧ (0x80 ≤ b.toNat → b.toNat ≤ 0xBF → kind b = .luma ∧ tagLength b = 2)
      ∧ (0xC0 ≤ b.toNat → b.toNat ≤ 0xFD → kind b = .run ∧ tagLength b = 1)
      ∧ (b.toNat = 0xFE → kind b = .rgb ∧ tagLength b = 4)
      ∧ (b.toNat = 0xFF → kind b = .rgba ∧ tagLength b = 5)

/-! ## Arithmetic and the hash (00_scope.md R8, 41_pixel_cache.md) -/

/-- R8, R179: a byte delta is the difference modulo 256 read as a signed value. -/
def Obligations.ByteDeltasWrapAndAreSigned : Prop :=
  ∀ x y : Byte, signedDelta x y =
    (let d := ((x.toNat : Int) - (y.toNat : Int)) % 256; if d < 128 then d else d - 256)

/-- R150, R151: the hash, and that the low 6 bits of each channel decide it. -/
def Obligations.HashDependsOnLowSixBits : Prop :=
  ∀ p : Pixel,
    (pixelHash p).toNat = (3 * p.r.toNat + 5 * p.g.toNat + 7 * p.b.toNat + 11 * p.a.toNat) % 64
      ∧ (pixelHash p).toNat =
          (3 * (p.r.toNat % 64) + 5 * (p.g.toNat % 64) + 7 * (p.b.toNat % 64) + 11 * (p.a.toNat % 64)) % 64

/-- R156: after two updates of one slot a lookup of the first pixel misses, unless the two are the same pixel. -/
def Obligations.CollidingUpdateOverwritesTheSlot : Prop :=
  ∀ (s : State) (p q : Pixel), pixelHash p = pixelHash q → p ≠ q →
    ((s.cacheUpdate p).cacheUpdate q).cacheRead (pixelHash q) = q
      ∧ ((s.cacheUpdate p).cacheUpdate q).cacheHit p = false

/-! ## The decoder's chunks (43_decoder.md) -/

/-- When the bytes at `pos` decode to a chunk that lies in the chunk region, the step is `exec` of that chunk, and when the
tag byte promises more bytes than the region holds, it is TruncatedStream (R223, R224). -/
def Obligations.StepRunsTheFetchedChunk : Prop :=
  ∀ s : State, s.atChunk →
    (∀ (bs : List Byte) (i : Instr), s.readInBytes s.pos bs.length = some bs → decode bs = .ok (i, []) →
        s.truncated bs.length = false → step s = exec i s)
      ∧ (∀ b : Byte, s.readIn s.pos = some b → s.truncated (tagLength b) = true →
          step s = .next (s.abort .truncatedStream))

/-- R224: a chunk that would end beyond `IN_LEN - 8` raises TruncatedStream, whichever it is; where the region still holds
the tag byte that is a LUMA, an RGB or an RGBA. -/
def Obligations.ChunksBeyondTheRegionAreTruncated : Prop :=
  ∀ (i : Instr) (s : State), s.inLen < s.pos + i.length + 8 →
    exec i s = .next (s.abort .truncatedStream)
      ∧ (s.pos + 8 < s.inLen → i.kind = .luma ∨ i.kind = .rgb ∨ i.kind = .rgba)

/-- R226: RGB, its completion, its truncation (fewer than 3 bytes after the tag) and its bytes. -/
def Obligations.RgbReplacesColourKeepsAlpha : Prop :=
  ∀ (r g b : Byte) (s : State),
    (s.pos + 4 + 8 ≤ s.inLen → s.fits (if s.channels = 4#8 then 4 else 3) →
      ∃ t, exec (.rgb r g b) s = .next t ∧ t.prev = ⟨r, g, b, s.prev.a⟩ ∧ CacheUpdated s t ⟨r, g, b, s.prev.a⟩
        ∧ Appended s t (if s.channels = 4#8 then [r, g, b, s.prev.a] else [r, g, b]) ∧ t.pos = s.pos + 4)
      ∧ (s.inLen < s.pos + 4 + 8 → exec (.rgb r g b) s = .next (s.abort .truncatedStream))
      ∧ decode [0xFE#8, r, g, b] = .ok (.rgb r g b, [])

/-- R227: RGBA; with 3 channels alpha is stored and not output. -/
def Obligations.RgbaReplacesAllFourChannels : Prop :=
  ∀ (r g b a : Byte) (s : State),
    (s.pos + 5 + 8 ≤ s.inLen → s.fits (if s.channels = 4#8 then 4 else 3) →
      ∃ t, exec (.rgba r g b a) s = .next t ∧ t.prev = ⟨r, g, b, a⟩ ∧ CacheUpdated s t ⟨r, g, b, a⟩
        ∧ Appended s t (if s.channels = 4#8 then [r, g, b, a] else [r, g, b]) ∧ t.pos = s.pos + 5)
      ∧ (s.inLen < s.pos + 5 + 8 → exec (.rgba r g b a) s = .next (s.abort .truncatedStream))
      ∧ decode [0xFF#8, r, g, b, a] = .ok (.rgba r g b a, [])

/-- R228: INDEX reads the slot as given and leaves the cache alone; its operand is the low 6 bits of its byte. -/
def Obligations.IndexReadsTheSlotAndKeepsTheCache : Prop :=
  (∀ (i : BitVec 6) (s : State), s.pos + 1 + 8 ≤ s.inLen → s.fits (if s.channels = 4#8 then 4 else 3) →
    ∃ t, exec (.index i) s = .next t ∧ t.prev = s.cacheRead i ∧ t.cache = s.cache
      ∧ Appended s t (pixelBytes s.channels (s.cacheRead i)) ∧ t.pos = s.pos + 1)
    ∧ ∀ b : Byte, b.toNat ≤ 0x3F → decode [b] = .ok (.index (BitVec.ofNat 6 b.toNat), [])

/-- R229: DIFF adds its deltas modulo 256, alpha unchanged; each delta is a field of 2 bits less 2. -/
def Obligations.DiffAddsItsDeltasModulo256 : Prop :=
  (∀ (dr dg db : Int) (s : State), s.pos + 1 + 8 ≤ s.inLen → s.fits (if s.channels = 4#8 then 4 else 3) →
    ∃ t, exec (.diff dr dg db) s = .next t
      ∧ (t.prev.r.toNat : Int) = ((s.prev.r.toNat : Int) + dr) % 256
      ∧ (t.prev.g.toNat : Int) = ((s.prev.g.toNat : Int) + dg) % 256
      ∧ (t.prev.b.toNat : Int) = ((s.prev.b.toNat : Int) + db) % 256
      ∧ t.prev.a = s.prev.a ∧ CacheUpdated s t t.prev
      ∧ Appended s t (pixelBytes s.channels t.prev) ∧ t.pos = s.pos + 1)
    ∧ ∀ b : Byte, 0x40 ≤ b.toNat → b.toNat ≤ 0x7F →
        decode [b] = .ok (.diff ((b.toNat / 16 % 4 : Nat) - 2) ((b.toNat / 4 % 4 : Nat) - 2) ((b.toNat % 4 : Nat) - 2), [])

/-- R230: LUMA adds `dg + dr_off`, `dg`, `dg + db_off` modulo 256, alpha unchanged; its truncation (no second byte), and
its fields less 32, 8 and 8. -/
def Obligations.LumaAddsGreenAndOffsetsModulo256 : Prop :=
  (∀ (dg drOff dbOff : Int) (s : State),
    (s.pos + 2 + 8 ≤ s.inLen → s.fits (if s.channels = 4#8 then 4 else 3) →
      ∃ t, exec (.luma dg drOff dbOff) s = .next t
        ∧ (t.prev.r.toNat : Int) = ((s.prev.r.toNat : Int) + dg + drOff) % 256
        ∧ (t.prev.g.toNat : Int) = ((s.prev.g.toNat : Int) + dg) % 256
        ∧ (t.prev.b.toNat : Int) = ((s.prev.b.toNat : Int) + dg + dbOff) % 256
        ∧ t.prev.a = s.prev.a ∧ CacheUpdated s t t.prev
        ∧ Appended s t (pixelBytes s.channels t.prev) ∧ t.pos = s.pos + 2)
      ∧ (s.inLen < s.pos + 2 + 8 → exec (.luma dg drOff dbOff) s = .next (s.abort .truncatedStream)))
    ∧ ∀ b0 b1 : Byte, 0x80 ≤ b0.toNat → b0.toNat ≤ 0xBF →
        decode [b0, b1]
          = .ok (.luma ((b0.toNat % 64 : Nat) - 32) ((b1.toNat / 16 : Nat) - 8) ((b1.toNat % 16 : Nat) - 8), [])

/-- R231: RUN appends `prev` as many times as it says; `prev` and the cache are unchanged; its length is the field plus 1. -/
def Obligations.RunRepeatsThePreviousPixel : Prop :=
  (∀ (n : Nat) (s : State), s.pos + 1 + 8 ≤ s.inLen → s.fits (n * (if s.channels = 4#8 then 4 else 3)) →
    ∃ t, exec (.run n) s = .next t ∧ t.prev = s.prev ∧ t.cache = s.cache
      ∧ Appended s t (List.replicate n (pixelBytes s.channels s.prev)).flatten ∧ t.pos = s.pos + 1)
    ∧ ∀ b : Byte, 0xC0 ≤ b.toNat → b.toNat ≤ 0xFD → decode [b] = .ok (.run (b.toNat % 64 + 1), [])

/-- R225: PIXEL_OUT appends r, g, b and, with 4 channels only, a. -/
def Obligations.PixelOutFollowsTheChannelCount : Prop :=
  ∀ (p : Pixel) (s : State), s.fits (if s.channels = 4#8 then 4 else 3) →
    ∃ t, s.pixelOut p = some t
      ∧ (s.channels = 4#8 → Appended s t [p.r, p.g, p.b, p.a]) ∧ (s.channels = 3#8 → Appended s t [p.r, p.g, p.b])

/-- The frame of all six chunks: an interpreted chunk writes `prev`, at most the cache slot of the pixel it reconstructs,
`pos`, `OUT_LEN` and the output bytes it appends, and nothing else; INDEX and RUN leave the cache, RUN leaves `prev`
(R155, R226 to R231). -/
def Obligations.ChunksLeaveEverythingElse : Prop :=
  ∀ (i : Instr) (s t : State), s.pos + i.length + 8 ≤ s.inLen → exec i s = .next t →
    SameInterface s t ∧ t.phase = s.phase ∧ t.run = s.run ∧ t.pix = s.pix ∧ t.pos = s.pos + i.length
      ∧ s.outLen ≤ t.outLen
      ∧ (∀ a, a < s.outBase + s.outLen ∨ s.outBase + t.outLen ≤ a → t.mem.read a = s.mem.read a)
      ∧ (∀ j, j ≠ pixelHash t.prev → t.cacheRead j = s.cacheRead j)
      ∧ (i.kind = .index ∨ i.kind = .run → t.cache = s.cache)
      ∧ (i.kind = .run → t.prev = s.prev)

/-- R68, U6: an append that would pass `OUT_CAPACITY` has no step: the engine is stuck, never `DONE`. For a DECODE that is a
chunk whose pixels do not fit; for an ENCODE the header, the footer, the RUN byte of a full or last run, and for a pixel
that differs from `prev` the pending run with the chunk R174 chooses. The fault is the model's form of `no step` (log entry
10). -/
def Obligations.ChunksBeyondTheCapacityAreStuck : Prop :=
  (∀ (i : Instr) (s : State), wellFormed i = true → s.pos + i.length + 8 ≤ s.inLen →
    ¬ s.fits ((match i with | .run n => n | _ => 1) * (if s.channels = 4#8 then 4 else 3)) →
    exec i s = .fault .outputStuck)
    ∧ (∀ s : State, s.engineMoves → s.op = .encode →
        (s.phase = .hdr → s.hdrStep = .header → ¬ s.fits 14 → step s = .fault .outputStuck)
          ∧ (s.phase = .ftr → ¬ s.fits 8 → step s = .fault .outputStuck))
    ∧ ∀ (s : State) (cur : Pixel), s.atPixel cur → s.run.toNat ≤ 61 →
        (cur = s.prev → s.run.toNat = 61 ∨ s.pix + 1 = s.npix → ¬ s.fits 1 → step s = .fault .outputStuck)
          ∧ (let dr := signedDelta cur.r s.prev.r
             let dg := signedDelta cur.g s.prev.g
             let db := signedDelta cur.b s.prev.b
             let n := if s.cacheRead (pixelHash cur) = cur then 1
               else if cur.a ≠ s.prev.a then 5
               else if -2 ≤ dr ∧ dr ≤ 1 ∧ -2 ≤ dg ∧ dg ≤ 1 ∧ -2 ≤ db ∧ db ≤ 1 then 1
               else if -32 ≤ dg ∧ dg ≤ 31 ∧ -8 ≤ dr - dg ∧ dr - dg ≤ 7 ∧ -8 ≤ db - dg ∧ db - dg ≤ 7 then 2
               else 4
             cur ≠ s.prev → ¬ s.fits (s.pendingRun.length + n) → step s = .fault .outputStuck)

/-! ## ABORT and the checks (60_exceptions.md R260 to R263) -/

/-- R263: what `raise E` leaves, and what it does not touch: memory outside the output buffer, and for an ENCODE the
operand registers; and that no further step of the operation runs. -/
def Obligations.AbortRecordsOnlyTheCode : Prop :=
  ∀ (s : State) (e : Err),
    (s.abort e).err = e ∧ (s.abort e).state = .error ∧ (s.abort e).outLen = 0
      ∧ (s.op = .encode → (s.abort e).width = s.width ∧ (s.abort e).height = s.height
          ∧ (s.abort e).channels = s.channels ∧ (s.abort e).colorspace = s.colorspace)
      ∧ (s.abort e).inBase = s.inBase ∧ (s.abort e).inLen = s.inLen ∧ (s.abort e).outBase = s.outBase
      ∧ (∀ a, a < s.outBase ∨ s.outBase + s.outCapacity ≤ a → (s.abort e).mem.read a = s.mem.read a)
      ∧ (s.host = [] → step (s.abort e) = .next (s.abort e))

/-- R171, R262: ENCVALID's checks in their order; the first that fails is the error. -/
def Obligations.EncodeChecksInOrder : Prop :=
  ∀ s : State, s.engineMoves → s.op = .encode → s.phase = .hdr → s.hdrStep = .check →
    if s.channels ≠ 3#8 ∧ s.channels ≠ 4#8 then step s = .next (s.abort .invalidChannelCount)
    else if s.colorspace ≠ 0#8 ∧ s.colorspace ≠ 1#8 then step s = .next (s.abort .invalidColorspace)
    else if s.inLen ≠ s.width.toNat * s.height.toNat * s.channels.toNat then
      step s = .next (s.abort .invalidInputLength)
    else step s = .next { s with hdrStep := .header }

/-- R221: an input shorter than 22 bytes is truncated, whatever its bytes are. -/
def Obligations.ShortStreamsAreTruncated : Prop :=
  ∀ s : State, s.engineMoves → s.op = .decode → s.phase = .hdr → s.hdrStep = .check →
    if s.inLen < 22 then step s = .next (s.abort .truncatedStream) else step s = .next { s with hdrStep := .header }

/-- R131: HEADER_PARSE's checks in their order, of bytes 0 to 3 only when `CHECK_MAGIC` is true, and the registers it
writes. That `pos <- 14` (R220) belongs to this step is the model's (log entry 12). -/
def Obligations.HeaderParseChecksAndFields : Prop :=
  ∀ (s : State) (b : Nat → Byte), s.engineMoves → s.op = .decode → s.phase = .hdr → s.hdrStep = .header →
    (∀ k, k < 14 → (k < 4 → s.params.checkMagic = true) → s.readIn k = some (b k)) →
    if s.params.checkMagic = true ∧ [b 0, b 1, b 2, b 3] ≠ s.params.magic.toList then step s = .next (s.abort .badMagic)
    else if b 12 ≠ 3#8 ∧ b 12 ≠ 4#8 then step s = .next (s.abort .invalidChannelCount)
    else if b 13 ≠ 0#8 ∧ b 13 ≠ 1#8 then step s = .next (s.abort .invalidColorspace)
    else ∃ t, step s = .next t
      ∧ t.width.toNat = (b 4).toNat * 2 ^ 24 + (b 5).toNat * 2 ^ 16 + (b 6).toNat * 2 ^ 8 + (b 7).toNat
      ∧ t.height.toNat = (b 8).toNat * 2 ^ 24 + (b 9).toNat * 2 ^ 16 + (b 10).toNat * 2 ^ 8 + (b 11).toNat
      ∧ t.channels = b 12 ∧ t.colorspace = b 13 ∧ t.phase = .body ∧ t.pos = 14 ∧ t.pix = s.pix
      ∧ t.outLen = s.outLen ∧ t.mem = s.mem ∧ t.prev = s.prev ∧ t.cache = s.cache ∧ t.run = s.run
      ∧ SameInterface { s with width := t.width, height := t.height, channels := t.channels, colorspace := t.colorspace } t

/-! ## Framing (40_framing.md) and OPINIT (70_reset_and_hazards.md R291) -/

/-- R291: OPINIT writes 64 zero slots, `prev`, `run`, and nothing else of the engine. -/
def Obligations.OpInitGivesTheFreshWorkingState : Prop :=
  ∀ s : State, s.engineMoves → s.phase = .hdr → s.hdrStep = .opInit →
    ∃ t, step s = .next t ∧ (∀ i, t.cacheRead i = ⟨0#8, 0#8, 0#8, 0#8⟩) ∧ t.prev = ⟨0#8, 0#8, 0#8, 255#8⟩ ∧ t.run = 0#6
      ∧ t.mem = s.mem ∧ t.outLen = s.outLen ∧ t.phase = .hdr ∧ t.hdrStep = .check ∧ t.pix = s.pix ∧ t.pos = s.pos
      ∧ SameInterface { s with hdrStep := .check } t

/-- R130: HEADER_EMIT writes the 14 header bytes, the two sizes big-endian, and enters the body, or at once the footer for an
image of no pixels (R170): that the header and the entry into the body are one step is the model's (log entry 12). -/
def Obligations.HeaderEmitWritesFourteenBytes : Prop :=
  ∀ s : State, s.engineMoves → s.op = .encode → s.phase = .hdr → s.hdrStep = .header → s.fits 14 →
    ∃ t, step s = .next t
      ∧ Appended s t (s.params.magic.toList
          ++ [BitVec.ofNat 8 (s.width.toNat / 2 ^ 24), BitVec.ofNat 8 (s.width.toNat / 2 ^ 16),
              BitVec.ofNat 8 (s.width.toNat / 2 ^ 8), BitVec.ofNat 8 s.width.toNat]
          ++ [BitVec.ofNat 8 (s.height.toNat / 2 ^ 24), BitVec.ofNat 8 (s.height.toNat / 2 ^ 16),
              BitVec.ofNat 8 (s.height.toNat / 2 ^ 8), BitVec.ofNat 8 s.height.toNat]
          ++ [s.channels, s.colorspace])
      ∧ t.pix = 0 ∧ t.phase = (if s.width.toNat * s.height.toNat = 0 then .ftr else .body)
      ∧ t.cache = s.cache ∧ t.prev = s.prev ∧ t.run = s.run ∧ t.pos = s.pos ∧ SameInterface s t

/-- R133: FOOTER_EMIT writes seven zero bytes and a one, then `STATE <- DONE`. -/
def Obligations.FooterEmitEndsTheEncode : Prop :=
  ∀ s : State, s.engineMoves → s.op = .encode → s.phase = .ftr → s.fits 8 →
    ∃ t, step s = .next t ∧ t.state = .done ∧ t.err = s.err ∧ t.outLen = s.outLen + 8
      ∧ (∀ k v, [0#8, 0#8, 0#8, 0#8, 0#8, 0#8, 0#8, 1#8][k]? = some v →
          t.mem.read (s.outBase + s.outLen + k) = some v)
      ∧ (∀ a, a < s.outBase + s.outLen ∨ s.outBase + s.outCapacity ≤ a → t.mem.read a = s.mem.read a)

/-- R232, R134: at the end of the chunk region the operation is done, its output as it stands and its
buffer registers and `CMD.OP` as they were. -/
def Obligations.DecodeStopsAtTheEndOfTheRegion : Prop :=
  ∀ s : State, s.engineMoves → s.op = .decode → s.phase = .body → s.pos + 8 = s.inLen →
    ∃ t, step s = .next t ∧ t.state = .done ∧ t.err = s.err ∧ t.outLen = s.outLen
      ∧ t.width = s.width ∧ t.height = s.height ∧ t.channels = s.channels ∧ t.colorspace = s.colorspace
      ∧ t.inBase = s.inBase ∧ t.inLen = s.inLen ∧ t.outBase = s.outBase ∧ t.outCapacity = s.outCapacity ∧ t.op = s.op
      ∧ (∀ a, a < s.outBase + s.outLen ∨ s.outBase + s.outCapacity ≤ a → t.mem.read a = s.mem.read a)

/-- R134, U5: no step of a DECODE's body reads a footer byte. With any byte of the footer changed, the step is the same, and
leaves that byte as it was changed. -/
def Obligations.FooterBytesAreNeverRead : Prop :=
  ∀ (s : State) (a : Nat) (v : Byte), s.Inv → s.engineMoves → s.op = .decode → s.phase = .body →
    s.inBase + s.inLen - 8 ≤ a → a < s.inBase + s.inLen →
    match step s with
    | .next t => step { s with mem := s.mem.write a v } = .next { t with mem := t.mem.write a v }
    | .fault f => step { s with mem := s.mem.write a v } = .fault f
    | .refused r => step { s with mem := s.mem.write a v } = .refused r

/-! ## The encoder (42_encoder.md) -/

/-- R172: PIXEL_FETCH, alpha 255 with 3 channels. -/
def Obligations.PixelFetchReadsTheChannels : Prop :=
  ∀ (s : State) (i : Nat) (r g b : Byte),
    (s.channels = 3#8 → s.readIn (3 * i) = some r → s.readIn (3 * i + 1) = some g → s.readIn (3 * i + 2) = some b →
        s.fetchPixel i = some ⟨r, g, b, 255#8⟩)
      ∧ (∀ a : Byte, s.channels = 4#8 → s.readIn (4 * i) = some r → s.readIn (4 * i + 1) = some g →
          s.readIn (4 * i + 2) = some b → s.readIn (4 * i + 3) = some a → s.fetchPixel i = some ⟨r, g, b, a⟩)

/-- R175: a pixel equal to `prev` that neither fills the run nor ends the image only counts. -/
def Obligations.EqualPixelExtendsTheRun : Prop :=
  ∀ (s : State) (cur : Pixel), s.atPixel cur → cur = s.prev → s.run.toNat < 61 → s.pix + 1 ≠ s.npix →
    ∃ t, step s = .next t ∧ t.run.toNat = s.run.toNat + 1 ∧ t.mem = s.mem ∧ t.outLen = s.outLen
      ∧ t.pix = s.pix + 1 ∧ t.phase = .body ∧ t.prev = s.prev ∧ t.cache = s.cache ∧ t.pos = s.pos ∧ SameInterface s t

/-- R175: the 62nd pixel of a run, or the last of the image, emits the RUN byte and clears the count. -/
def Obligations.FullOrLastRunIsEmitted : Prop :=
  ∀ (s : State) (cur : Pixel), s.atPixel cur → cur = s.prev → s.run.toNat ≤ 61 →
    s.run.toNat = 61 ∨ s.pix + 1 = s.npix → s.fits 1 →
    ∃ t, step s = .next t ∧ Appended s t [0xC0#8 ||| BitVec.ofNat 8 s.run.toNat] ∧ t.run = 0#6
      ∧ t.pix = s.pix + 1 ∧ t.phase = (if s.pix + 1 = s.npix then .ftr else .body)
      ∧ t.prev = s.prev ∧ t.cache = s.cache ∧ t.pos = s.pos ∧ SameInterface s t

/-- R176, R177: a pixel found in its slot is an INDEX chunk, after the pending run; the cache is not written. -/
def Obligations.CachedPixelIsAnIndexChunk : Prop :=
  ∀ (s : State) (cur : Pixel), s.atNewPixel cur [BitVec.ofNat 8 (pixelHash cur).toNat] →
    s.cacheRead (pixelHash cur) = cur →
    ∃ t, step s = .next t ∧ NewPixelDone s t cur [BitVec.ofNat 8 (pixelHash cur).toNat] ∧ t.cache = s.cache

/-- R176, R178, R180: a miss with small deltas is a DIFF chunk, the cache written. -/
def Obligations.SmallDeltasAreADiffChunk : Prop :=
  ∀ (s : State) (cur : Pixel),
    let dr := signedDelta cur.r s.prev.r
    let dg := signedDelta cur.g s.prev.g
    let db := signedDelta cur.b s.prev.b
    let bs := [0x40#8 ||| (BitVec.ofInt 8 (dr + 2) <<< 4) ||| (BitVec.ofInt 8 (dg + 2) <<< 2) ||| BitVec.ofInt 8 (db + 2)]
    s.atNewPixel cur bs → s.cacheRead (pixelHash cur) ≠ cur → cur.a = s.prev.a →
    -2 ≤ dr → dr ≤ 1 → -2 ≤ dg → dg ≤ 1 → -2 ≤ db → db ≤ 1 →
    ∃ t, step s = .next t ∧ NewPixelDone s t cur bs ∧ CacheUpdated s t cur

/-- R176, R178, R181: a miss whose deltas fit LUMA and not DIFF is a LUMA chunk, the cache written. -/
def Obligations.BiasedDeltasAreALumaChunk : Prop :=
  ∀ (s : State) (cur : Pixel),
    let dr := signedDelta cur.r s.prev.r
    let dg := signedDelta cur.g s.prev.g
    let db := signedDelta cur.b s.prev.b
    let bs := [0x80#8 ||| BitVec.ofInt 8 (dg + 32), (BitVec.ofInt 8 (dr - dg + 8) <<< 4) ||| BitVec.ofInt 8 (db - dg + 8)]
    s.atNewPixel cur bs → s.cacheRead (pixelHash cur) ≠ cur → cur.a = s.prev.a →
    ¬ (-2 ≤ dr ∧ dr ≤ 1 ∧ -2 ≤ dg ∧ dg ≤ 1 ∧ -2 ≤ db ∧ db ≤ 1) →
    -32 ≤ dg → dg ≤ 31 → -8 ≤ dr - dg → dr - dg ≤ 7 → -8 ≤ db - dg → db - dg ≤ 7 →
    ∃ t, step s = .next t ∧ NewPixelDone s t cur bs ∧ CacheUpdated s t cur

/-- R176, R178, R182: a miss with alpha unchanged and deltas too large is an RGB chunk, the cache written. -/
def Obligations.LargeDeltasAreAnRgbChunk : Prop :=
  ∀ (s : State) (cur : Pixel),
    let dr := signedDelta cur.r s.prev.r
    let dg := signedDelta cur.g s.prev.g
    let db := signedDelta cur.b s.prev.b
    s.atNewPixel cur [0xFE#8, cur.r, cur.g, cur.b] → s.cacheRead (pixelHash cur) ≠ cur → cur.a = s.prev.a →
    ¬ (-2 ≤ dr ∧ dr ≤ 1 ∧ -2 ≤ dg ∧ dg ≤ 1 ∧ -2 ≤ db ∧ db ≤ 1) →
    ¬ (-32 ≤ dg ∧ dg ≤ 31 ∧ -8 ≤ dr - dg ∧ dr - dg ≤ 7 ∧ -8 ≤ db - dg ∧ db - dg ≤ 7) →
    ∃ t, step s = .next t ∧ NewPixelDone s t cur [0xFE#8, cur.r, cur.g, cur.b] ∧ CacheUpdated s t cur

/-- R176, R178, R183: a miss with alpha changed is an RGBA chunk whatever the colour deltas are, the cache written. -/
def Obligations.ChangedAlphaIsAnRgbaChunk : Prop :=
  ∀ (s : State) (cur : Pixel),
    s.atNewPixel cur [0xFF#8, cur.r, cur.g, cur.b, cur.a] → s.cacheRead (pixelHash cur) ≠ cur → cur.a ≠ s.prev.a →
    ∃ t, step s = .next t ∧ NewPixelDone s t cur [0xFF#8, cur.r, cur.g, cur.b, cur.a] ∧ CacheUpdated s t cur

/-- R33, R135: an engine step of an ENCODE changes no operand register, and never a byte of memory outside the output
buffer. -/
def Obligations.EncodeNeverChangesItsOperands : Prop :=
  ∀ s t : State, s.Inv → s.engineMoves → s.op = .encode → step s = .next t →
    t.width = s.width ∧ t.height = s.height ∧ t.channels = s.channels ∧ t.colorspace = s.colorspace
      ∧ t.inBase = s.inBase ∧ t.inLen = s.inLen ∧ t.outBase = s.outBase ∧ t.op = s.op
      ∧ (∀ a, a < s.outBase ∨ s.outBase + s.outCapacity ≤ a → t.mem.read a = s.mem.read a)

/-! ## The host (10_state.md R36, 60_exceptions.md R265, R266, 70_reset_and_hazards.md R290, R294) -/

/-- R265: ISSUE by a host that may access the engine, with the buffers apart and existing and the input placed, starts the
operation and writes nothing else; each broken duty (R69, R293) is no move of the host, in the model a refusal (log entries
14, 27, 28), and `unread` is the model's (log entry 26). -/
def Obligations.IssueStartsAnOperation : Prop :=
  ∀ (s : State) (op : Op) (rest : List HostAct), s.host = .issue op :: rest → s.hostMayAccess →
    (s.buffersDisjoint = true → s.buffersExist = true → s.inputPlaced → step s = .next { s with
        host := rest, op := op, state := .busy, err := .noError, outLen := 0, phase := .hdr, hdrStep := .opInit,
        unread := true })
      ∧ (s.buffersDisjoint = false → step s = .refused .overlappingBuffers)
      ∧ (s.buffersDisjoint = true → s.buffersExist = false → step s = .refused .bufferBeyondMemory)
      ∧ (s.buffersDisjoint = true → s.buffersExist = true → ¬ s.inputPlaced → step s = .refused .inputNotPlaced)

/-- R266, U10, R71, R74, R297: while `BUSY`, and then until it has read the final `STATE`, the host has no move but the poll
(by name or on the bus), the reset and standing back. The refusal is the form the model gives to `has no such move` (log
entries 13 and 26); `tick` and `await` are the model's own (log entry 11). -/
def Obligations.HostOnlyPollsWhileBusy : Prop :=
  ∀ (s : State) (a : HostAct) (rest : List HostAct), s.host = a :: rest →
    a ≠ .readStatus → a ≠ .powerOnReset → a ≠ .tick → a ≠ .await →
    (∀ k, a = .busRead k → csrAt s.params.csrMap k ≠ some .status) →
    (s.state = .busy → step s = .refused .hostAccessWhileBusy)
      ∧ (s.state ≠ .busy → s.unread = true → step s = .refused .finalStatusUnread)

/-- R35, R266, R294: a poll gives the host the codes of `STATE` and `ERR`, at any time, and changes nothing of the engine or
of memory. A poll that reads `DONE` or `ERROR` is the synchronisation of R71 (`unread` is the model's, log entry 26). -/
def Obligations.PollReturnsTheStatusCodes : Prop :=
  ∀ (s : State) (rest : List HostAct), s.host = .readStatus :: rest →
    ∃ st e, step s = .next { s with
          host := rest, answer := .status st e, unread := (match s.state with | .done => false | .error => false | _ => s.unread) }
      ∧ st.toNat = (match s.state with | .idle => 0 | .busy => 1 | .done => 2 | .error => 3)
      ∧ e.toNat = (match s.err with
          | .noError => 0 | .invalidChannelCount => 1 | .invalidColorspace => 2 | .truncatedStream => 3
          | .invalidInputLength => 4 | .badMagic => 5)

/-- R36: outside `BUSY`, the end of the last operation read (R71), a host write stores the value written, in that register
alone. An address register takes an address (R11, R60): a value that is none is no move of the host (log entry 28). -/
def Obligations.HostWritesStoreTheValue : Prop :=
  ∀ (s : State) (rest : List HostAct), s.hostMayAccess →
    (∀ v, s.host = .writeWidth v :: rest → step s = .next { s with host := rest, width := v })
      ∧ (∀ v, s.host = .writeHeight v :: rest → step s = .next { s with host := rest, height := v })
      ∧ (∀ v, s.host = .writeChannels v :: rest → step s = .next { s with host := rest, channels := v })
      ∧ (∀ v, s.host = .writeColorspace v :: rest → step s = .next { s with host := rest, colorspace := v })
      ∧ (∀ n, s.host = .writeInBase n :: rest → step s =
          if n < 2 ^ s.params.csrMap.addressBits then .next { s with host := rest, inBase := n } else .refused .noSuchAccess)
      ∧ (∀ n, s.host = .writeInLen n :: rest → step s = .next { s with host := rest, inLen := n })
      ∧ (∀ n, s.host = .writeOutBase n :: rest → step s =
          if n < 2 ^ s.params.csrMap.addressBits then .next { s with host := rest, outBase := n } else .refused .noSuchAccess)

/-- R36, R60: outside `BUSY`, the end of the last operation read (R71), the host reads a register or a byte of memory and
places a byte, each at an address that exists (log entry 28), and changes nothing else; it provides an output buffer, in the
model by setting the field `OUT_CAPACITY` (log entry 3). What a read returned is in `answer`, the model's (log entry 11). -/
def Obligations.HostReadsAndPlacesBytes : Prop :=
  ∀ (s : State) (rest : List HostAct), s.hostMayAccess →
    (∀ r, s.host = .readReg r :: rest → step s = .next { s with host := rest, answer := .number (match r with
        | .width => s.width.toNat | .height => s.height.toNat | .channels => s.channels.toNat
        | .colorspace => s.colorspace.toNat | .inBase => s.inBase | .inLen => s.inLen | .outBase => s.outBase
        | .outLen => s.outLen) })
      ∧ (∀ a v, s.host = .readByte a :: rest → s.addressExists a = true → s.mem.read a = some v →
          step s = .next { s with host := rest, answer := .byte v })
      ∧ (∀ a v, s.host = .placeByte a v :: rest → s.addressExists a = true →
          ∃ m : Memory, step s = .next { s with host := rest, mem := m } ∧ m.read a = some v
            ∧ ∀ k, k ≠ a → m.read k = s.mem.read k)
      ∧ (∀ a v, s.host = .readByte a :: rest ∨ s.host = .placeByte a v :: rest → s.addressExists a = false →
          step s = .fault .noSuchAddress)
      ∧ (∀ n, s.host = .provideOutput n :: rest → step s = .next { s with host := rest, outCapacity := n })

/-- The model's own turn taking (log entry 11): with nothing pending, and while the host awaits, a busy engine moves; when
the operation is over, `await` ends with the poll that reads it (R71) and the host goes on; a `tick` gives a busy engine one
step and an idle one none. Whatever the host has pending, the engine's step is the same step, so that what is said of an
engine with nothing pending holds while the host awaits or ticks. -/
def Obligations.AwaitingHostLetsTheEngineMove : Prop :=
  (∀ (s : State) (rest : List HostAct), s.host = .await :: rest →
    (s.state = .busy → step s = engineStep s)
      ∧ (s.state ≠ .busy → step s = step { s with host := .readStatus :: rest }))
    ∧ (∀ (s : State) (rest : List HostAct), s.host = .tick :: rest →
        (s.state = .busy → step s = engineStep { s with host := rest })
          ∧ (s.state ≠ .busy → step s = .next { s with host := rest }))
    ∧ (∀ u : State, u.engineMoves → step u = engineStep u)
    ∧ ∀ (s : State) (l : List HostAct),
        engineStep { s with host := l } =
          (match engineStep s with
            | .next t => .next { t with host := l }
            | .fault f => .fault f
            | .refused r => .refused r)

/-- R290, R40: after a power-on reset `STATE`, `ERR` and `OUT_LEN` are as R40 says; no byte of memory changes, but for the
output buffer of an operation the reset ends or whose end the host had not read, whose bytes are unspecified: the model's
reading of U13 and R71 beside R290 (log entry 7). -/
def Obligations.PowerOnResetLeavesMemory : Prop :=
  ∀ (s : State) (rest : List HostAct), s.host = .powerOnReset :: rest →
    ∃ t, step s = .next t ∧ t.state = .idle ∧ t.err = .noError ∧ t.outLen = 0 ∧ t.host = rest ∧ t.unread = false
      ∧ (s.state ≠ .busy → s.unread = false → t.mem = s.mem)
      ∧ (∀ a, a < s.outBase ∨ s.outBase + s.outCapacity ≤ a → t.mem.read a = s.mem.read a)

/-- R40, R290: what reset leaves in the three registers the spec gives a value. -/
def Obligations.ResetLeavesIdleNoErrorNoOutput : Prop :=
  State.reset.state = .idle ∧ State.reset.err = .noError ∧ State.reset.outLen = 0

/-- R276, R294: an idle engine stays as it is when the host does nothing. That this is a step that changes nothing
is the model's choice (log entry 22). -/
def Obligations.EngineRestsBetweenOperations : Prop :=
  ∀ s : State, s.state ≠ .busy → s.host = [] → step s = .next s

/-! ## The machine as a whole -/

/-- The invariant holds at reset. Its bound on `run` (R25) holds there by the value `run` has in `State.reset`, a DESIGN CHOICE
(log entry 6); the memory form is the model's own (log entry 5). The host's duties hold there too, by the
zero of the address registers (log entry 6) and by `unread` (log entry 26). -/
def Obligations.ResetMeetsTheInvariant : Prop := State.reset.Inv ∧ State.reset.dutiesKept

/-- The invariant is kept by every step of the engine and of the host, from every state that meets it. That
it includes a power-on reset rests, for the bound on `run`, on the model's reading that the unspecified `run` of a reset is
one of the values R25 gives it (log entry 21). -/
def Obligations.EveryStepKeepsTheInvariant : Prop := ∀ s t : State, s.Inv → step s = .next t → t.Inv

/-- R28: OPINIT establishes that every slot holds a pixel of its own hash or the zero pixel, and every later step of the
operation keeps it, as long as the operation lasts. -/
def Obligations.CacheSlotsHoldPixelsOfTheirHash : Prop :=
  ∀ s t : State, s.engineMoves → step s = .next t → t.state = .busy →
    (s.phase = .hdr ∧ s.hdrStep = .opInit) ∨ s.slotsHashed → t.slotsHashed

/-- R74, R296: no engine step changes a byte of the input buffer; and from ISSUE until the host has read the final `STATE`
(`unread`, log entry 26) no step of the engine or of the host does. -/
def Obligations.EngineNeverWritesItsInput : Prop :=
  (∀ s t : State, s.Inv → s.engineMoves → step s = .next t →
    ∀ k, k < s.inLen → t.mem.read (s.inBase + k) = s.mem.read (s.inBase + k))
    ∧ ∀ s t : State, s.Inv → s.dutiesKept → s.unread = true → step s = .next t →
        ∀ k, k < s.inLen → t.mem.read (s.inBase + k) = s.mem.read (s.inBase + k)

/-- R6: no step changes `MAGIC`, `CHECK_MAGIC` or `CSR_MAP`. -/
def Obligations.ParametersNeverChange : Prop := ∀ s t : State, step s = .next t → t.params = s.params

/-- R294: only the engine's own steps and a reset take `STATE` out of `BUSY`. -/
def Obligations.OnlyTheEngineEndsAnOperation : Prop :=
  ∀ (s t : State) (a : HostAct) (rest : List HostAct), s.state = .busy → s.host = a :: rest → step s = .next t →
    t.state ≠ .busy → a = .powerOnReset ∨ ((a = .tick ∨ a = .await) ∧ ∃ u, engineStep { s with host := u } = .next t)

/-- R236, R299: every engine step of an operation either ends it or leaves it strictly fewer steps. -/
def Obligations.EveryEngineStepApproachesTheEnd : Prop :=
  ∀ s t : State, s.Inv → s.engineMoves → step s = .next t → t.state ≠ .busy ∨ t.stepsLeft < s.stepsLeft

/-- R299: an ENCODE with valid operands, its input placed and room for its result takes OPINIT, ENCVALID, HEADER_EMIT,
exactly `NPIX` body steps and FOOTER_EMIT, and its result is no longer than R68 says. -/
def Obligations.EncodeFinishesInNpixPlusFourSteps : Prop :=
  ∀ s : State, s.encodeReady →
    (∀ k, k < s.npix + 4 → ∃ t : State, Host.Core.run Sys2Proof.core k s = .next t ∧ t.state = .busy)
      ∧ ∃ t : State, Host.Core.run Sys2Proof.core (s.npix + 4) s = .next t ∧ t.state = .done ∧ t.err = .noError
          ∧ t.outLen ≤ 22 + s.npix * (s.channels.toNat + 1)

/-- R236, R299: a DECODE whose input is placed, with room for 62 pixels of 4 bytes for every byte of the chunk region, ends
in `DONE` or `ERROR` after at most `IN_LEN - 22` body steps and the four steps around them. -/
def Obligations.DecodeFinishesWithinItsInputLength : Prop :=
  ∀ s : State, s.atStart .decode → s.inputPlaced → 248 * (s.inLen - 22) ≤ s.outCapacity →
    ∃ (k : Nat) (t : State), k ≤ (s.inLen - 22) + 4 ∧ Host.Core.run Sys2Proof.core k s = .next t
      ∧ (t.state = .done ∨ t.state = .error)

/-- R158: lockstep. From equal caches and `prev`, the chunk the encoder emits for a pixel that differs from `prev`, executed
by a decoder that has it, leaves the decoder's `prev` and cache equal to the encoder's and appends that pixel's bytes. -/
def Obligations.DecoderStaysInLockstepWithTheEncoder : Prop :=
  ∀ (s d e : State) (cur : Pixel), s.atPixel cur → cur ≠ s.prev → s.run = 0#6 → step s = .next e →
    d.cache = s.cache → d.prev = s.prev →
    ∃ i : Instr, wellFormed i = true ∧ Appended s e (encode i)
      ∧ (d.pos + i.length + 8 ≤ d.inLen → d.fits (if d.channels = 4#8 then 4 else 3) →
          ∃ t, exec i d = .next t ∧ t.prev = cur ∧ t.prev = e.prev ∧ t.cache = e.cache
            ∧ Appended d t (pixelBytes d.channels cur))

/-- R185: ENCODE is a function of its operands, its input bytes and `MAGIC`: two encodes that agree on these give the same
bytes, wherever their buffers are and whatever ran before. -/
def Obligations.EncodeDependsOnItsInputsAlone : Prop :=
  ∀ s1 s2 : State, s1.encodeReady → s2.encodeReady → s1.width = s2.width → s1.height = s2.height →
    s1.channels = s2.channels → s1.colorspace = s2.colorspace → s1.params.magic = s2.params.magic →
    (∀ k, k < s1.inLen → s1.readIn k = s2.readIn k) →
    ∃ t1 t2 : State, Host.Core.run Sys2Proof.core (s1.npix + 4) s1 = .next t1
      ∧ Host.Core.run Sys2Proof.core (s1.npix + 4) s2 = .next t2 ∧ t1.state = .done ∧ t2.state = .done
      ∧ t1.outLen = t2.outLen
      ∧ ∀ k, k < t1.outLen → t1.mem.read (t1.outBase + k) = t2.mem.read (t2.outBase + k)

/-- R186: ENCODE is lossless. A DECODE of the bytes an ENCODE leaves, with the same `MAGIC` and room for the result,
completes and returns exactly the input bytes and the same header values. -/
def Obligations.DecodeOfEncodeReturnsTheInput : Prop :=
  ∀ s : State, s.encodeReady →
    ∃ e : State, Host.Core.run Sys2Proof.core (s.npix + 4) s = .next e ∧ e.state = .done
      ∧ ∀ d : State, d.atStart .decode → d.params.magic = s.params.magic → d.inLen = e.outLen →
          (∀ k, k < e.outLen → d.readIn k = e.mem.read (e.outBase + k)) → s.inLen ≤ d.outCapacity →
          ∃ (k : Nat) (t : State), Host.Core.run Sys2Proof.core k d = .next t ∧ t.state = .done ∧ t.outLen = s.inLen
            ∧ t.width = s.width ∧ t.height = s.height ∧ t.channels = s.channels ∧ t.colorspace = s.colorspace
            ∧ ∀ j, j < s.inLen → t.mem.read (t.outBase + j) = s.readIn j

/-! ## The bus and the duties (10_state.md R37, 70_reset_and_hazards.md R294) -/

/-- R37, R36: a bus access at the address `CSR_MAP` gives a register is the host's access to that register, where no other
register sits at that address; an access that R36 does not grant (a write of `STATUS` or `OUT_LEN`, a read of `CMD`), a value
that does not fit (R11), and an address where no register sits, are no moves of the host (log entry 19). -/
def Obligations.BusAccessesReachTheMappedRegister : Prop :=
  ∀ (s : State) (rest : List HostAct), csrDistinct s.params.csrMap →
    let m := s.params.csrMap
    let as (a b : HostAct) : Prop := s.host = a :: rest → step s = step { s with host := b :: rest }
    (as (.busWrite m.cmd 0) (.issue .encode) ∧ as (.busWrite m.cmd 1) (.issue .decode)
      ∧ (∀ v : Word32, as (.busWrite m.width v.toNat) (.writeWidth v) ∧ as (.busWrite m.height v.toNat) (.writeHeight v))
      ∧ (∀ v : Byte, as (.busWrite m.channels v.toNat) (.writeChannels v)
          ∧ as (.busWrite m.colorspace v.toNat) (.writeColorspace v))
      ∧ ∀ n, as (.busWrite m.inBase n) (.writeInBase n) ∧ as (.busWrite m.inLen n) (.writeInLen n)
          ∧ as (.busWrite m.outBase n) (.writeOutBase n))
      ∧ (as (.busRead m.status) .readStatus ∧ as (.busRead m.width) (.readReg .width)
          ∧ as (.busRead m.height) (.readReg .height) ∧ as (.busRead m.channels) (.readReg .channels)
          ∧ as (.busRead m.colorspace) (.readReg .colorspace) ∧ as (.busRead m.inBase) (.readReg .inBase)
          ∧ as (.busRead m.inLen) (.readReg .inLen) ∧ as (.busRead m.outBase) (.readReg .outBase)
          ∧ as (.busRead m.outLen) (.readReg .outLen))
      ∧ (s.hostMayAccess → ∀ k v,
          (s.host = .busRead m.cmd :: rest ∨ s.host = .busWrite m.status v :: rest ∨ s.host = .busWrite m.outLen v :: rest
            ∨ (s.host = .busWrite m.cmd v :: rest ∧ 1 < v)
            ∨ ((s.host = .busWrite m.width v :: rest ∨ s.host = .busWrite m.height v :: rest) ∧ 2 ^ 32 ≤ v)
            ∨ ((s.host = .busWrite m.channels v :: rest ∨ s.host = .busWrite m.colorspace v :: rest) ∧ 2 ^ 8 ≤ v)
            ∨ ((s.host = .busRead k :: rest ∨ s.host = .busWrite k v :: rest) ∧ ∀ r, csrAddr m r ≠ k)) →
          step s = .refused .noSuchAccess)

/-- R299, R68: from every state that meets the invariant and the host's duties, an engine that is to move has a step, or is
stuck at the output capacity: there is no other way for an operation not to go on. -/
def Obligations.EngineStepsUnlessItIsStuck : Prop :=
  ∀ s : State, s.Inv → s.dutiesKept → s.engineMoves → (∃ t, step s = .next t) ∨ step s = .fault .outputStuck

/-- R69, R74, R293, R294: what the host's duties establish is kept by every step of the engine and of the host. It rests on
the model's `unread` (log entry 26) and, for a power-on reset, on the free address being an address (log entry 21). -/
def Obligations.EveryStepKeepsTheHostsDuties : Prop :=
  ∀ s t : State, s.Inv → s.dutiesKept → step s = .next t → t.dutiesKept
end

