-- ==== Sys2Proof/Laws/Memory.lean ====
section
/-! SUPPORT. The laws of memory: what a read gives after a write, and that every operation keeps the canonical form. -/

namespace Sys2Proof.Machine

@[simp] theorem Memory.read_nil (a : Nat) : Memory.read [] a = none := rfl

theorem Memory.read_cons (b : Nat) (v : Byte) (m : Memory) (a : Nat) :
    Memory.read ((b, v) :: m) a = if a = b then some v else Memory.read m a := rfl

theorem Memory.read_none_of_lt {m : Memory} {a : Nat} (h : ∀ c ∈ m, a < c.1) : Memory.read m a = none := by
  induction m with
  | nil => rfl
  | cons c m ih =>
    have hc := h c (by simp)
    rw [Memory.read_cons, if_neg (by omega)]
    exact ih (fun d hd => h d (by simp [hd]))

theorem Memory.read_write_same (m : Memory) (a : Nat) (v : Byte) : (m.write a v).read a = some v := by
  induction m with
  | nil => simp [Memory.write, Memory.read]
  | cons c m ih =>
    unfold Memory.write
    split
    · simp [Memory.read]
    · split
      · simp [Memory.read]
      · rename_i h
        simp [Memory.read, h, ih]

theorem Memory.read_write_other (m : Memory) {a b : Nat} (v : Byte) (h : b ≠ a) :
    (m.write a v).read b = m.read b := by
  induction m with
  | nil => simp [Memory.write, Memory.read, h]
  | cons c m ih =>
    unfold Memory.write
    split
    · simp [Memory.read, h]
    · split
      · rename_i h1
        simp [Memory.read, h, ← h1]
      · simp [Memory.read, ih]

theorem Memory.read_write (m : Memory) (a b : Nat) (v : Byte) :
    (m.write a v).read b = if b = a then some v else m.read b := by
  split
  · rename_i h
    rw [h, Memory.read_write_same]
  · exact Memory.read_write_other m v ‹_›

theorem Memory.mem_write {m : Memory} {a : Nat} {v : Byte} {c : Host.Cell} (h : c ∈ m.write a v) :
    c = (a, v) ∨ c ∈ m := by
  induction m with
  | nil => simpa [Memory.write] using h
  | cons d m ih =>
    unfold Memory.write at h
    split at h
    · simpa using h
    · split at h
      · simp at h ⊢
        tauto
      · simp at h ⊢
        rcases h with h | h
        · exact .inr (.inl h)
        · rcases ih h with h | h
          · exact .inl h
          · exact .inr (.inr h)

theorem Memory.write_wf {m : Memory} (h : m.wf) (a : Nat) (v : Byte) : (m.write a v).wf := by
  induction m with
  | nil => simp [Memory.write, Memory.wf]
  | cons d m ih =>
    have hd := List.pairwise_cons.1 h
    unfold Memory.write
    split
    · rename_i hlt
      refine List.pairwise_cons.2 ⟨fun c hc => ?_, h⟩
      rcases List.mem_cons.1 hc with rfl | hc
      · exact hlt
      · exact Nat.lt_trans hlt (hd.1 c hc)
    · split
      · rename_i heq
        refine List.pairwise_cons.2 ⟨fun c hc => ?_, hd.2⟩
        have := hd.1 c hc
        simp only at this ⊢
        omega
      · refine List.pairwise_cons.2 ⟨fun c hc => ?_, ih hd.2⟩
        rcases Memory.mem_write hc with rfl | hc
        · simp only
          omega
        · exact hd.1 c hc

/-- Two canonical memories that read alike at every address are the same list. -/
theorem Memory.ext_of_read {m n : Memory} (hm : m.wf) (hn : n.wf) (h : ∀ a, m.read a = n.read a) : m = n := by
  induction m generalizing n with
  | nil =>
    cases n with
    | nil => rfl
    | cons c n =>
      have := h c.1
      simp [Memory.read] at this
  | cons c m ih =>
    cases n with
    | nil =>
      have := h c.1
      simp [Memory.read] at this
    | cons d n =>
      have hc := List.pairwise_cons.1 hm
      have hd := List.pairwise_cons.1 hn
      have h1 := h c.1
      have h2 := h d.1
      have hk : c.1 = d.1 := by
        rcases Nat.lt_trichotomy c.1 d.1 with hlt | heq | hgt
        · rw [Memory.read_none_of_lt (m := d :: n) (a := c.1)] at h1
          · simp [Memory.read] at h1
          · intro e he
            rcases List.mem_cons.1 he with rfl | he
            · exact hlt
            · exact Nat.lt_trans hlt (hd.1 e he)
        · exact heq
        · rw [Memory.read_none_of_lt (m := c :: m) (a := d.1)] at h2
          · simp [Memory.read] at h2
          · intro e he
            rcases List.mem_cons.1 he with rfl | he
            · exact hgt
            · exact Nat.lt_trans hgt (hc.1 e he)
      obtain ⟨ca, cv⟩ := c
      obtain ⟨da, dv⟩ := d
      simp only at hk
      subst hk
      simp [Memory.read] at h1
      subst h1
      congr 1
      apply ih hc.2 hd.2
      intro a
      have h3 := h a
      simp only [Memory.read] at h3
      by_cases ha : a = ca
      · subst ha
        rw [Memory.read_none_of_lt (fun e he => hc.1 e he), Memory.read_none_of_lt (fun e he => hd.1 e he)]
      · simpa [ha] using h3

theorem Memory.writeList_wf {m : Memory} (h : m.wf) (a : Nat) (vs : List Byte) : (m.writeList a vs).wf := by
  induction vs generalizing m a with
  | nil => exact h
  | cons v vs ih => exact ih (Memory.write_wf h a v) (a + 1)

theorem Memory.read_writeList_out (m : Memory) (a : Nat) (vs : List Byte) {b : Nat}
    (h : b < a ∨ a + vs.length ≤ b) : (m.writeList a vs).read b = m.read b := by
  induction vs generalizing m a with
  | nil => rfl
  | cons v vs ih =>
    simp only [List.length_cons] at h
    rw [Memory.writeList, ih _ _ (by omega), Memory.read_write_other _ _ (by omega)]

theorem Memory.read_writeList_in (m : Memory) (a : Nat) (vs : List Byte) {k : Nat} {v : Byte}
    (h : vs[k]? = some v) : (m.writeList a vs).read (a + k) = some v := by
  induction vs generalizing m a k with
  | nil => simp at h
  | cons w vs ih =>
    cases k with
    | zero =>
      simp at h
      subst h
      rw [Memory.writeList, Memory.read_writeList_out _ _ _ (by omega), Nat.add_zero, Memory.read_write_same]
    | succ k =>
      simp at h
      have := ih (m.write a w) (a + 1) h
      rwa [show a + 1 + k = a + (k + 1) by omega] at this

theorem Memory.writeList_append (m : Memory) (a : Nat) (vs ws : List Byte) :
    m.writeList a (vs ++ ws) = (m.writeList a vs).writeList (a + vs.length) ws := by
  induction vs generalizing m a with
  | nil => rfl
  | cons v vs ih =>
    simp only [List.cons_append, Memory.writeList, ih, List.length_cons]
    congr 1
    omega

theorem freeCells_mem {a ctr n : Nat} {c : Host.Cell} (h : c ∈ freeCells a ctr n) : a ≤ c.1 ∧ c.1 < a + n := by
  induction n generalizing a ctr with
  | zero => simp [freeCells] at h
  | succ n ih =>
    rcases List.mem_cons.1 h with rfl | h
    · simp
    · have := ih h
      omega

theorem freeCells_wf (a ctr n : Nat) : (freeCells a ctr n).wf := by
  induction n generalizing a ctr with
  | zero => simp [freeCells, Memory.wf]
  | succ n ih =>
    refine List.pairwise_cons.2 ⟨fun c hc => ?_, ih _ _⟩
    have := freeCells_mem hc
    simp only
    omega

theorem Memory.read_append (m n : Memory) (a : Nat) :
    Memory.read (m ++ n) a = match m.read a with | some v => some v | none => n.read a := by
  induction m with
  | nil => rfl
  | cons c m ih =>
    simp only [List.cons_append, Memory.read]
    split <;> simp [ih]

theorem Memory.read_filter (m : Memory) (p : Nat → Bool) (a : Nat) :
    Memory.read (m.filter (fun c => p c.1)) a = if p a then m.read a else none := by
  induction m with
  | nil => simp
  | cons c m ih =>
    simp only [List.filter_cons]
    by_cases hp : p c.1 = true
    · by_cases ha : a = c.1
      · subst ha
        simp [Memory.read, hp]
      · simp [Memory.read, hp, ha, ih]
    · by_cases ha : a = c.1
      · subst ha
        simp [hp, ih]
      · simp [Memory.read, hp, ha, ih]

theorem freeCells_read (a ctr n b : Nat) :
    Memory.read (freeCells a ctr n) b = if a ≤ b ∧ b < a + n then some (Config.freeByte (ctr + (b - a))) else none := by
  induction n generalizing a ctr with
  | zero =>
    rw [if_neg (by omega)]
    rfl
  | succ n ih =>
    simp only [freeCells, Memory.read]
    by_cases hb : b = a
    · subst hb
      simp
    · rw [if_neg hb, ih]
      by_cases hr : a + 1 ≤ b ∧ b < a + 1 + n
      · rw [if_pos hr, if_pos (by omega), show ctr + 1 + (b - (a + 1)) = ctr + (b - a) by omega]
      · rw [if_neg hr, if_neg (by omega)]

theorem Memory.read_fillFree (m : Memory) (a ctr n b : Nat) :
    (m.fillFree a ctr n).read b =
      if a ≤ b ∧ b < a + n then some (Config.freeByte (ctr + (b - a))) else m.read b := by
  unfold Memory.fillFree
  rw [Memory.read_append, Memory.read_append, freeCells_read, Memory.read_filter m (fun x => decide (x < a)),
    Memory.read_filter m (fun x => decide (a + n ≤ x))]
  by_cases h1 : b < a
  · have h2 : ¬(a ≤ b ∧ b < a + n) := by omega
    have h3 : ¬(a + n ≤ b) := by omega
    simp only [h1, h2, h3, decide_true, decide_false, if_true, if_false, Bool.false_eq_true]
    cases m.read b <;> rfl
  · by_cases h2 : b < a + n
    · have h3 : a ≤ b ∧ b < a + n := by omega
      simp [h1, h3]
    · have h3 : ¬(a ≤ b ∧ b < a + n) := by omega
      have h4 : a + n ≤ b := by omega
      simp [h1, h3, h4]

theorem Memory.read_fillFree_out (m : Memory) {a ctr n b : Nat} (h : b < a ∨ a + n ≤ b) :
    (m.fillFree a ctr n).read b = m.read b := by
  rw [Memory.read_fillFree, if_neg (by omega)]

theorem Memory.fillFree_wf {m : Memory} (h : m.wf) (a ctr n : Nat) : (m.fillFree a ctr n).wf := by
  unfold Memory.fillFree Memory.wf
  rw [List.pairwise_append, List.pairwise_append]
  refine ⟨⟨h.filter _, freeCells_wf _ _ _, ?_⟩, h.filter _, ?_⟩
  · intro c hc d hd
    have h1 := freeCells_mem hd
    have h2 := (List.mem_filter.1 hc).2
    simp at h2
    omega
  · intro c hc d hd
    have h2 := (List.mem_filter.1 hd).2
    simp at h2
    rcases List.mem_append.1 hc with hc | hc
    · have h1 := (List.mem_filter.1 hc).2
      simp at h1
      omega
    · have h1 := freeCells_mem hc
      omega

/-- Writes at two different addresses commute. -/
theorem Memory.write_comm {m : Memory} (h : m.wf) {a b : Nat} (v w : Byte) (hab : a ≠ b) :
    (m.write a v).write b w = (m.write b w).write a v := by
  apply Memory.ext_of_read (Memory.write_wf (Memory.write_wf h _ _) _ _) (Memory.write_wf (Memory.write_wf h _ _) _ _)
  intro c
  simp only [Memory.read_write]
  by_cases h1 : c = b
  · subst h1
    simp [Ne.symm hab]
  · simp [h1]

/-- A write outside a block of bytes commutes with writing the block. -/
theorem Memory.write_writeList_comm {m : Memory} (h : m.wf) {a b : Nat} (v : Byte) (ws : List Byte)
    (hab : a < b ∨ b + ws.length ≤ a) : (m.write a v).writeList b ws = (m.writeList b ws).write a v := by
  induction ws generalizing m b with
  | nil => rfl
  | cons w ws ih =>
    simp only [List.length_cons] at hab
    simp only [Memory.writeList]
    rw [Memory.write_comm h v w (by omega), ih (Memory.write_wf h _ _) (by omega)]

/-- A write outside a block of bytes commutes with freeing the block. -/
theorem Memory.write_fillFree_comm {m : Memory} (h : m.wf) {a b n : Nat} (ctr : Nat) (v : Byte)
    (hab : a < b ∨ b + n ≤ a) : (m.write a v).fillFree b ctr n = (m.fillFree b ctr n).write a v := by
  apply Memory.ext_of_read (Memory.fillFree_wf (Memory.write_wf h _ _) _ _ _)
    (Memory.write_wf (Memory.fillFree_wf h _ _ _) _ _)
  intro c
  simp only [Memory.read_write, Memory.read_fillFree]
  by_cases h1 : c = a
  · subst h1
    rw [if_neg (by omega)]
    simp
  · simp [h1]

end Sys2Proof.Machine
end

