-- ==== Sys2Proof/Laws/State.lean ====
section
/-! SUPPORT. One lemma per field per update of the state: what each named update leaves in each field. -/

namespace Sys2Proof.Machine

/-- The state with bytes appended to the output: the closed form of a successful append. -/
def State.withOutput (s : State) (bs : List Byte) : State :=
  { s with mem := s.mem.writeList (s.outBase + s.outLen) bs, outLen := s.outLen + bs.length }

@[simp] theorem State.cacheWrite_state (s : State) (i : BitVec 6) (p : Pixel) : (s.cacheWrite i p).state = s.state := rfl
@[simp] theorem State.cacheWrite_err (s : State) (i : BitVec 6) (p : Pixel) : (s.cacheWrite i p).err = s.err := rfl
@[simp] theorem State.cacheWrite_op (s : State) (i : BitVec 6) (p : Pixel) : (s.cacheWrite i p).op = s.op := rfl
@[simp] theorem State.cacheWrite_width (s : State) (i : BitVec 6) (p : Pixel) : (s.cacheWrite i p).width = s.width := rfl
@[simp] theorem State.cacheWrite_height (s : State) (i : BitVec 6) (p : Pixel) : (s.cacheWrite i p).height = s.height := rfl
@[simp] theorem State.cacheWrite_channels (s : State) (i : BitVec 6) (p : Pixel) : (s.cacheWrite i p).channels = s.channels := rfl
@[simp] theorem State.cacheWrite_colorspace (s : State) (i : BitVec 6) (p : Pixel) : (s.cacheWrite i p).colorspace = s.colorspace := rfl
@[simp] theorem State.cacheWrite_inBase (s : State) (i : BitVec 6) (p : Pixel) : (s.cacheWrite i p).inBase = s.inBase := rfl
@[simp] theorem State.cacheWrite_inLen (s : State) (i : BitVec 6) (p : Pixel) : (s.cacheWrite i p).inLen = s.inLen := rfl
@[simp] theorem State.cacheWrite_outBase (s : State) (i : BitVec 6) (p : Pixel) : (s.cacheWrite i p).outBase = s.outBase := rfl
@[simp] theorem State.cacheWrite_outLen (s : State) (i : BitVec 6) (p : Pixel) : (s.cacheWrite i p).outLen = s.outLen := rfl
@[simp] theorem State.cacheWrite_outCapacity (s : State) (i : BitVec 6) (p : Pixel) : (s.cacheWrite i p).outCapacity = s.outCapacity := rfl
@[simp] theorem State.cacheWrite_phase (s : State) (i : BitVec 6) (p : Pixel) : (s.cacheWrite i p).phase = s.phase := rfl
@[simp] theorem State.cacheWrite_cache (s : State) (i : BitVec 6) (p : Pixel) : (s.cacheWrite i p).cache = s.cache.set i.toNat p i.isLt := rfl
@[simp] theorem State.cacheWrite_prev (s : State) (i : BitVec 6) (p : Pixel) : (s.cacheWrite i p).prev = s.prev := rfl
@[simp] theorem State.cacheWrite_run (s : State) (i : BitVec 6) (p : Pixel) : (s.cacheWrite i p).run = s.run := rfl
@[simp] theorem State.cacheWrite_pix (s : State) (i : BitVec 6) (p : Pixel) : (s.cacheWrite i p).pix = s.pix := rfl
@[simp] theorem State.cacheWrite_pos (s : State) (i : BitVec 6) (p : Pixel) : (s.cacheWrite i p).pos = s.pos := rfl
@[simp] theorem State.cacheWrite_mem (s : State) (i : BitVec 6) (p : Pixel) : (s.cacheWrite i p).mem = s.mem := rfl
@[simp] theorem State.cacheWrite_params (s : State) (i : BitVec 6) (p : Pixel) : (s.cacheWrite i p).params = s.params := rfl
@[simp] theorem State.cacheWrite_hdrStep (s : State) (i : BitVec 6) (p : Pixel) : (s.cacheWrite i p).hdrStep = s.hdrStep := rfl
@[simp] theorem State.cacheWrite_host (s : State) (i : BitVec 6) (p : Pixel) : (s.cacheWrite i p).host = s.host := rfl
@[simp] theorem State.cacheWrite_answer (s : State) (i : BitVec 6) (p : Pixel) : (s.cacheWrite i p).answer = s.answer := rfl
@[simp] theorem State.cacheWrite_unread (s : State) (i : BitVec 6) (p : Pixel) : (s.cacheWrite i p).unread = s.unread := rfl
@[simp] theorem State.cacheWrite_free (s : State) (i : BitVec 6) (p : Pixel) : (s.cacheWrite i p).free = s.free := rfl

@[simp] theorem State.cacheUpdate_state (s : State) (p : Pixel) : (s.cacheUpdate p).state = s.state := rfl
@[simp] theorem State.cacheUpdate_err (s : State) (p : Pixel) : (s.cacheUpdate p).err = s.err := rfl
@[simp] theorem State.cacheUpdate_op (s : State) (p : Pixel) : (s.cacheUpdate p).op = s.op := rfl
@[simp] theorem State.cacheUpdate_width (s : State) (p : Pixel) : (s.cacheUpdate p).width = s.width := rfl
@[simp] theorem State.cacheUpdate_height (s : State) (p : Pixel) : (s.cacheUpdate p).height = s.height := rfl
@[simp] theorem State.cacheUpdate_channels (s : State) (p : Pixel) : (s.cacheUpdate p).channels = s.channels := rfl
@[simp] theorem State.cacheUpdate_colorspace (s : State) (p : Pixel) : (s.cacheUpdate p).colorspace = s.colorspace := rfl
@[simp] theorem State.cacheUpdate_inBase (s : State) (p : Pixel) : (s.cacheUpdate p).inBase = s.inBase := rfl
@[simp] theorem State.cacheUpdate_inLen (s : State) (p : Pixel) : (s.cacheUpdate p).inLen = s.inLen := rfl
@[simp] theorem State.cacheUpdate_outBase (s : State) (p : Pixel) : (s.cacheUpdate p).outBase = s.outBase := rfl
@[simp] theorem State.cacheUpdate_outLen (s : State) (p : Pixel) : (s.cacheUpdate p).outLen = s.outLen := rfl
@[simp] theorem State.cacheUpdate_outCapacity (s : State) (p : Pixel) : (s.cacheUpdate p).outCapacity = s.outCapacity := rfl
@[simp] theorem State.cacheUpdate_phase (s : State) (p : Pixel) : (s.cacheUpdate p).phase = s.phase := rfl
@[simp] theorem State.cacheUpdate_cache (s : State) (p : Pixel) : (s.cacheUpdate p).cache = s.cache.set (pixelHash p).toNat p (pixelHash p).isLt := rfl
@[simp] theorem State.cacheUpdate_prev (s : State) (p : Pixel) : (s.cacheUpdate p).prev = s.prev := rfl
@[simp] theorem State.cacheUpdate_run (s : State) (p : Pixel) : (s.cacheUpdate p).run = s.run := rfl
@[simp] theorem State.cacheUpdate_pix (s : State) (p : Pixel) : (s.cacheUpdate p).pix = s.pix := rfl
@[simp] theorem State.cacheUpdate_pos (s : State) (p : Pixel) : (s.cacheUpdate p).pos = s.pos := rfl
@[simp] theorem State.cacheUpdate_mem (s : State) (p : Pixel) : (s.cacheUpdate p).mem = s.mem := rfl
@[simp] theorem State.cacheUpdate_params (s : State) (p : Pixel) : (s.cacheUpdate p).params = s.params := rfl
@[simp] theorem State.cacheUpdate_hdrStep (s : State) (p : Pixel) : (s.cacheUpdate p).hdrStep = s.hdrStep := rfl
@[simp] theorem State.cacheUpdate_host (s : State) (p : Pixel) : (s.cacheUpdate p).host = s.host := rfl
@[simp] theorem State.cacheUpdate_answer (s : State) (p : Pixel) : (s.cacheUpdate p).answer = s.answer := rfl
@[simp] theorem State.cacheUpdate_unread (s : State) (p : Pixel) : (s.cacheUpdate p).unread = s.unread := rfl
@[simp] theorem State.cacheUpdate_free (s : State) (p : Pixel) : (s.cacheUpdate p).free = s.free := rfl

@[simp] theorem State.withOutput_state (s : State) (bs : List Byte) : (s.withOutput bs).state = s.state := rfl
@[simp] theorem State.withOutput_err (s : State) (bs : List Byte) : (s.withOutput bs).err = s.err := rfl
@[simp] theorem State.withOutput_op (s : State) (bs : List Byte) : (s.withOutput bs).op = s.op := rfl
@[simp] theorem State.withOutput_width (s : State) (bs : List Byte) : (s.withOutput bs).width = s.width := rfl
@[simp] theorem State.withOutput_height (s : State) (bs : List Byte) : (s.withOutput bs).height = s.height := rfl
@[simp] theorem State.withOutput_channels (s : State) (bs : List Byte) : (s.withOutput bs).channels = s.channels := rfl
@[simp] theorem State.withOutput_colorspace (s : State) (bs : List Byte) : (s.withOutput bs).colorspace = s.colorspace := rfl
@[simp] theorem State.withOutput_inBase (s : State) (bs : List Byte) : (s.withOutput bs).inBase = s.inBase := rfl
@[simp] theorem State.withOutput_inLen (s : State) (bs : List Byte) : (s.withOutput bs).inLen = s.inLen := rfl
@[simp] theorem State.withOutput_outBase (s : State) (bs : List Byte) : (s.withOutput bs).outBase = s.outBase := rfl
@[simp] theorem State.withOutput_outLen (s : State) (bs : List Byte) : (s.withOutput bs).outLen = s.outLen + bs.length := rfl
@[simp] theorem State.withOutput_outCapacity (s : State) (bs : List Byte) : (s.withOutput bs).outCapacity = s.outCapacity := rfl
@[simp] theorem State.withOutput_phase (s : State) (bs : List Byte) : (s.withOutput bs).phase = s.phase := rfl
@[simp] theorem State.withOutput_cache (s : State) (bs : List Byte) : (s.withOutput bs).cache = s.cache := rfl
@[simp] theorem State.withOutput_prev (s : State) (bs : List Byte) : (s.withOutput bs).prev = s.prev := rfl
@[simp] theorem State.withOutput_run (s : State) (bs : List Byte) : (s.withOutput bs).run = s.run := rfl
@[simp] theorem State.withOutput_pix (s : State) (bs : List Byte) : (s.withOutput bs).pix = s.pix := rfl
@[simp] theorem State.withOutput_pos (s : State) (bs : List Byte) : (s.withOutput bs).pos = s.pos := rfl
@[simp] theorem State.withOutput_mem (s : State) (bs : List Byte) : (s.withOutput bs).mem = s.mem.writeList (s.outBase + s.outLen) bs := rfl
@[simp] theorem State.withOutput_params (s : State) (bs : List Byte) : (s.withOutput bs).params = s.params := rfl
@[simp] theorem State.withOutput_hdrStep (s : State) (bs : List Byte) : (s.withOutput bs).hdrStep = s.hdrStep := rfl
@[simp] theorem State.withOutput_host (s : State) (bs : List Byte) : (s.withOutput bs).host = s.host := rfl
@[simp] theorem State.withOutput_answer (s : State) (bs : List Byte) : (s.withOutput bs).answer = s.answer := rfl
@[simp] theorem State.withOutput_unread (s : State) (bs : List Byte) : (s.withOutput bs).unread = s.unread := rfl
@[simp] theorem State.withOutput_free (s : State) (bs : List Byte) : (s.withOutput bs).free = s.free := rfl

@[simp] theorem State.setPrev_state (s : State) (p : Pixel) : (s.setPrev p).state = s.state := rfl
@[simp] theorem State.setPrev_err (s : State) (p : Pixel) : (s.setPrev p).err = s.err := rfl
@[simp] theorem State.setPrev_op (s : State) (p : Pixel) : (s.setPrev p).op = s.op := rfl
@[simp] theorem State.setPrev_width (s : State) (p : Pixel) : (s.setPrev p).width = s.width := rfl
@[simp] theorem State.setPrev_height (s : State) (p : Pixel) : (s.setPrev p).height = s.height := rfl
@[simp] theorem State.setPrev_channels (s : State) (p : Pixel) : (s.setPrev p).channels = s.channels := rfl
@[simp] theorem State.setPrev_colorspace (s : State) (p : Pixel) : (s.setPrev p).colorspace = s.colorspace := rfl
@[simp] theorem State.setPrev_inBase (s : State) (p : Pixel) : (s.setPrev p).inBase = s.inBase := rfl
@[simp] theorem State.setPrev_inLen (s : State) (p : Pixel) : (s.setPrev p).inLen = s.inLen := rfl
@[simp] theorem State.setPrev_outBase (s : State) (p : Pixel) : (s.setPrev p).outBase = s.outBase := rfl
@[simp] theorem State.setPrev_outLen (s : State) (p : Pixel) : (s.setPrev p).outLen = s.outLen := rfl
@[simp] theorem State.setPrev_outCapacity (s : State) (p : Pixel) : (s.setPrev p).outCapacity = s.outCapacity := rfl
@[simp] theorem State.setPrev_phase (s : State) (p : Pixel) : (s.setPrev p).phase = s.phase := rfl
@[simp] theorem State.setPrev_cache (s : State) (p : Pixel) : (s.setPrev p).cache = s.cache := rfl
@[simp] theorem State.setPrev_prev (s : State) (p : Pixel) : (s.setPrev p).prev = p := rfl
@[simp] theorem State.setPrev_run (s : State) (p : Pixel) : (s.setPrev p).run = s.run := rfl
@[simp] theorem State.setPrev_pix (s : State) (p : Pixel) : (s.setPrev p).pix = s.pix := rfl
@[simp] theorem State.setPrev_pos (s : State) (p : Pixel) : (s.setPrev p).pos = s.pos := rfl
@[simp] theorem State.setPrev_mem (s : State) (p : Pixel) : (s.setPrev p).mem = s.mem := rfl
@[simp] theorem State.setPrev_params (s : State) (p : Pixel) : (s.setPrev p).params = s.params := rfl
@[simp] theorem State.setPrev_hdrStep (s : State) (p : Pixel) : (s.setPrev p).hdrStep = s.hdrStep := rfl
@[simp] theorem State.setPrev_host (s : State) (p : Pixel) : (s.setPrev p).host = s.host := rfl
@[simp] theorem State.setPrev_answer (s : State) (p : Pixel) : (s.setPrev p).answer = s.answer := rfl
@[simp] theorem State.setPrev_unread (s : State) (p : Pixel) : (s.setPrev p).unread = s.unread := rfl
@[simp] theorem State.setPrev_free (s : State) (p : Pixel) : (s.setPrev p).free = s.free := rfl

@[simp] theorem State.advancePos_state (s : State) (n : Nat) : (s.advancePos n).state = s.state := rfl
@[simp] theorem State.advancePos_err (s : State) (n : Nat) : (s.advancePos n).err = s.err := rfl
@[simp] theorem State.advancePos_op (s : State) (n : Nat) : (s.advancePos n).op = s.op := rfl
@[simp] theorem State.advancePos_width (s : State) (n : Nat) : (s.advancePos n).width = s.width := rfl
@[simp] theorem State.advancePos_height (s : State) (n : Nat) : (s.advancePos n).height = s.height := rfl
@[simp] theorem State.advancePos_channels (s : State) (n : Nat) : (s.advancePos n).channels = s.channels := rfl
@[simp] theorem State.advancePos_colorspace (s : State) (n : Nat) : (s.advancePos n).colorspace = s.colorspace := rfl
@[simp] theorem State.advancePos_inBase (s : State) (n : Nat) : (s.advancePos n).inBase = s.inBase := rfl
@[simp] theorem State.advancePos_inLen (s : State) (n : Nat) : (s.advancePos n).inLen = s.inLen := rfl
@[simp] theorem State.advancePos_outBase (s : State) (n : Nat) : (s.advancePos n).outBase = s.outBase := rfl
@[simp] theorem State.advancePos_outLen (s : State) (n : Nat) : (s.advancePos n).outLen = s.outLen := rfl
@[simp] theorem State.advancePos_outCapacity (s : State) (n : Nat) : (s.advancePos n).outCapacity = s.outCapacity := rfl
@[simp] theorem State.advancePos_phase (s : State) (n : Nat) : (s.advancePos n).phase = s.phase := rfl
@[simp] theorem State.advancePos_cache (s : State) (n : Nat) : (s.advancePos n).cache = s.cache := rfl
@[simp] theorem State.advancePos_prev (s : State) (n : Nat) : (s.advancePos n).prev = s.prev := rfl
@[simp] theorem State.advancePos_run (s : State) (n : Nat) : (s.advancePos n).run = s.run := rfl
@[simp] theorem State.advancePos_pix (s : State) (n : Nat) : (s.advancePos n).pix = s.pix := rfl
@[simp] theorem State.advancePos_pos (s : State) (n : Nat) : (s.advancePos n).pos = s.pos + n := rfl
@[simp] theorem State.advancePos_mem (s : State) (n : Nat) : (s.advancePos n).mem = s.mem := rfl
@[simp] theorem State.advancePos_params (s : State) (n : Nat) : (s.advancePos n).params = s.params := rfl
@[simp] theorem State.advancePos_hdrStep (s : State) (n : Nat) : (s.advancePos n).hdrStep = s.hdrStep := rfl
@[simp] theorem State.advancePos_host (s : State) (n : Nat) : (s.advancePos n).host = s.host := rfl
@[simp] theorem State.advancePos_answer (s : State) (n : Nat) : (s.advancePos n).answer = s.answer := rfl
@[simp] theorem State.advancePos_unread (s : State) (n : Nat) : (s.advancePos n).unread = s.unread := rfl
@[simp] theorem State.advancePos_free (s : State) (n : Nat) : (s.advancePos n).free = s.free := rfl

@[simp] theorem State.setRun_state (s : State) (n : BitVec 6) : (s.setRun n).state = s.state := rfl
@[simp] theorem State.setRun_err (s : State) (n : BitVec 6) : (s.setRun n).err = s.err := rfl
@[simp] theorem State.setRun_op (s : State) (n : BitVec 6) : (s.setRun n).op = s.op := rfl
@[simp] theorem State.setRun_width (s : State) (n : BitVec 6) : (s.setRun n).width = s.width := rfl
@[simp] theorem State.setRun_height (s : State) (n : BitVec 6) : (s.setRun n).height = s.height := rfl
@[simp] theorem State.setRun_channels (s : State) (n : BitVec 6) : (s.setRun n).channels = s.channels := rfl
@[simp] theorem State.setRun_colorspace (s : State) (n : BitVec 6) : (s.setRun n).colorspace = s.colorspace := rfl
@[simp] theorem State.setRun_inBase (s : State) (n : BitVec 6) : (s.setRun n).inBase = s.inBase := rfl
@[simp] theorem State.setRun_inLen (s : State) (n : BitVec 6) : (s.setRun n).inLen = s.inLen := rfl
@[simp] theorem State.setRun_outBase (s : State) (n : BitVec 6) : (s.setRun n).outBase = s.outBase := rfl
@[simp] theorem State.setRun_outLen (s : State) (n : BitVec 6) : (s.setRun n).outLen = s.outLen := rfl
@[simp] theorem State.setRun_outCapacity (s : State) (n : BitVec 6) : (s.setRun n).outCapacity = s.outCapacity := rfl
@[simp] theorem State.setRun_phase (s : State) (n : BitVec 6) : (s.setRun n).phase = s.phase := rfl
@[simp] theorem State.setRun_cache (s : State) (n : BitVec 6) : (s.setRun n).cache = s.cache := rfl
@[simp] theorem State.setRun_prev (s : State) (n : BitVec 6) : (s.setRun n).prev = s.prev := rfl
@[simp] theorem State.setRun_run (s : State) (n : BitVec 6) : (s.setRun n).run = n := rfl
@[simp] theorem State.setRun_pix (s : State) (n : BitVec 6) : (s.setRun n).pix = s.pix := rfl
@[simp] theorem State.setRun_pos (s : State) (n : BitVec 6) : (s.setRun n).pos = s.pos := rfl
@[simp] theorem State.setRun_mem (s : State) (n : BitVec 6) : (s.setRun n).mem = s.mem := rfl
@[simp] theorem State.setRun_params (s : State) (n : BitVec 6) : (s.setRun n).params = s.params := rfl
@[simp] theorem State.setRun_hdrStep (s : State) (n : BitVec 6) : (s.setRun n).hdrStep = s.hdrStep := rfl
@[simp] theorem State.setRun_host (s : State) (n : BitVec 6) : (s.setRun n).host = s.host := rfl
@[simp] theorem State.setRun_answer (s : State) (n : BitVec 6) : (s.setRun n).answer = s.answer := rfl
@[simp] theorem State.setRun_unread (s : State) (n : BitVec 6) : (s.setRun n).unread = s.unread := rfl
@[simp] theorem State.setRun_free (s : State) (n : BitVec 6) : (s.setRun n).free = s.free := rfl

@[simp] theorem State.freeOutput_state (s : State) (k : Nat) : (s.freeOutput k).state = s.state := rfl
@[simp] theorem State.freeOutput_err (s : State) (k : Nat) : (s.freeOutput k).err = s.err := rfl
@[simp] theorem State.freeOutput_op (s : State) (k : Nat) : (s.freeOutput k).op = s.op := rfl
@[simp] theorem State.freeOutput_width (s : State) (k : Nat) : (s.freeOutput k).width = s.width := rfl
@[simp] theorem State.freeOutput_height (s : State) (k : Nat) : (s.freeOutput k).height = s.height := rfl
@[simp] theorem State.freeOutput_channels (s : State) (k : Nat) : (s.freeOutput k).channels = s.channels := rfl
@[simp] theorem State.freeOutput_colorspace (s : State) (k : Nat) : (s.freeOutput k).colorspace = s.colorspace := rfl
@[simp] theorem State.freeOutput_inBase (s : State) (k : Nat) : (s.freeOutput k).inBase = s.inBase := rfl
@[simp] theorem State.freeOutput_inLen (s : State) (k : Nat) : (s.freeOutput k).inLen = s.inLen := rfl
@[simp] theorem State.freeOutput_outBase (s : State) (k : Nat) : (s.freeOutput k).outBase = s.outBase := rfl
@[simp] theorem State.freeOutput_outLen (s : State) (k : Nat) : (s.freeOutput k).outLen = s.outLen := rfl
@[simp] theorem State.freeOutput_outCapacity (s : State) (k : Nat) : (s.freeOutput k).outCapacity = s.outCapacity := rfl
@[simp] theorem State.freeOutput_phase (s : State) (k : Nat) : (s.freeOutput k).phase = s.phase := rfl
@[simp] theorem State.freeOutput_cache (s : State) (k : Nat) : (s.freeOutput k).cache = s.cache := rfl
@[simp] theorem State.freeOutput_prev (s : State) (k : Nat) : (s.freeOutput k).prev = s.prev := rfl
@[simp] theorem State.freeOutput_run (s : State) (k : Nat) : (s.freeOutput k).run = s.run := rfl
@[simp] theorem State.freeOutput_pix (s : State) (k : Nat) : (s.freeOutput k).pix = s.pix := rfl
@[simp] theorem State.freeOutput_pos (s : State) (k : Nat) : (s.freeOutput k).pos = s.pos := rfl
@[simp] theorem State.freeOutput_mem (s : State) (k : Nat) : (s.freeOutput k).mem = s.mem.fillFree (s.outBase + k) s.free (s.outCapacity - k) := rfl
@[simp] theorem State.freeOutput_params (s : State) (k : Nat) : (s.freeOutput k).params = s.params := rfl
@[simp] theorem State.freeOutput_hdrStep (s : State) (k : Nat) : (s.freeOutput k).hdrStep = s.hdrStep := rfl
@[simp] theorem State.freeOutput_host (s : State) (k : Nat) : (s.freeOutput k).host = s.host := rfl
@[simp] theorem State.freeOutput_answer (s : State) (k : Nat) : (s.freeOutput k).answer = s.answer := rfl
@[simp] theorem State.freeOutput_unread (s : State) (k : Nat) : (s.freeOutput k).unread = s.unread := rfl
@[simp] theorem State.freeOutput_free (s : State) (k : Nat) : (s.freeOutput k).free = s.free + (s.outCapacity - k) := rfl

@[simp] theorem State.freeHeader_state (s : State) : (s.freeHeader).state = s.state := rfl
@[simp] theorem State.freeHeader_err (s : State) : (s.freeHeader).err = s.err := rfl
@[simp] theorem State.freeHeader_op (s : State) : (s.freeHeader).op = s.op := rfl
@[simp] theorem State.freeHeader_width (s : State) : (s.freeHeader).width = Config.freeWord s.free := rfl
@[simp] theorem State.freeHeader_height (s : State) : (s.freeHeader).height = Config.freeWord (s.free + 1) := rfl
@[simp] theorem State.freeHeader_channels (s : State) : (s.freeHeader).channels = Config.freeByte s.free := rfl
@[simp] theorem State.freeHeader_colorspace (s : State) : (s.freeHeader).colorspace = Config.freeByte (s.free + 1) := rfl
@[simp] theorem State.freeHeader_inBase (s : State) : (s.freeHeader).inBase = s.inBase := rfl
@[simp] theorem State.freeHeader_inLen (s : State) : (s.freeHeader).inLen = s.inLen := rfl
@[simp] theorem State.freeHeader_outBase (s : State) : (s.freeHeader).outBase = s.outBase := rfl
@[simp] theorem State.freeHeader_outLen (s : State) : (s.freeHeader).outLen = s.outLen := rfl
@[simp] theorem State.freeHeader_outCapacity (s : State) : (s.freeHeader).outCapacity = s.outCapacity := rfl
@[simp] theorem State.freeHeader_phase (s : State) : (s.freeHeader).phase = s.phase := rfl
@[simp] theorem State.freeHeader_cache (s : State) : (s.freeHeader).cache = s.cache := rfl
@[simp] theorem State.freeHeader_prev (s : State) : (s.freeHeader).prev = s.prev := rfl
@[simp] theorem State.freeHeader_run (s : State) : (s.freeHeader).run = s.run := rfl
@[simp] theorem State.freeHeader_pix (s : State) : (s.freeHeader).pix = s.pix := rfl
@[simp] theorem State.freeHeader_pos (s : State) : (s.freeHeader).pos = s.pos := rfl
@[simp] theorem State.freeHeader_mem (s : State) : (s.freeHeader).mem = s.mem := rfl
@[simp] theorem State.freeHeader_params (s : State) : (s.freeHeader).params = s.params := rfl
@[simp] theorem State.freeHeader_hdrStep (s : State) : (s.freeHeader).hdrStep = s.hdrStep := rfl
@[simp] theorem State.freeHeader_host (s : State) : (s.freeHeader).host = s.host := rfl
@[simp] theorem State.freeHeader_answer (s : State) : (s.freeHeader).answer = s.answer := rfl
@[simp] theorem State.freeHeader_unread (s : State) : (s.freeHeader).unread = s.unread := rfl
@[simp] theorem State.freeHeader_free (s : State) : (s.freeHeader).free = s.free + 2 := rfl

@[simp] theorem State.freeInternals_state (s : State) : (s.freeInternals).state = s.state := by dsimp only [State.freeInternals]
@[simp] theorem State.freeInternals_err (s : State) : (s.freeInternals).err = s.err := by dsimp only [State.freeInternals]
@[simp] theorem State.freeInternals_op (s : State) : (s.freeInternals).op = s.op := by dsimp only [State.freeInternals]
@[simp] theorem State.freeInternals_width (s : State) : (s.freeInternals).width = s.width := by dsimp only [State.freeInternals]
@[simp] theorem State.freeInternals_height (s : State) : (s.freeInternals).height = s.height := by dsimp only [State.freeInternals]
@[simp] theorem State.freeInternals_channels (s : State) : (s.freeInternals).channels = s.channels := by dsimp only [State.freeInternals]
@[simp] theorem State.freeInternals_colorspace (s : State) : (s.freeInternals).colorspace = s.colorspace := by dsimp only [State.freeInternals]
@[simp] theorem State.freeInternals_inBase (s : State) : (s.freeInternals).inBase = s.inBase := by dsimp only [State.freeInternals]
@[simp] theorem State.freeInternals_inLen (s : State) : (s.freeInternals).inLen = s.inLen := by dsimp only [State.freeInternals]
@[simp] theorem State.freeInternals_outBase (s : State) : (s.freeInternals).outBase = s.outBase := by dsimp only [State.freeInternals]
@[simp] theorem State.freeInternals_outLen (s : State) : (s.freeInternals).outLen = s.outLen := by dsimp only [State.freeInternals]
@[simp] theorem State.freeInternals_outCapacity (s : State) : (s.freeInternals).outCapacity = s.outCapacity := by dsimp only [State.freeInternals]
@[simp] theorem State.freeInternals_phase (s : State) : (s.freeInternals).phase = freePhase s.free := by dsimp only [State.freeInternals]
@[simp] theorem State.freeInternals_cache (s : State) : (s.freeInternals).cache = freeCache s.free := by dsimp only [State.freeInternals]
@[simp] theorem State.freeInternals_prev (s : State) : (s.freeInternals).prev = freePixel (s.free + 256) := by dsimp only [State.freeInternals]
@[simp] theorem State.freeInternals_run (s : State) : (s.freeInternals).run = freeRun s.free := by dsimp only [State.freeInternals]
@[simp] theorem State.freeInternals_pix (s : State) : (s.freeInternals).pix = Config.freeNat (s.free + 2) := by dsimp only [State.freeInternals]
@[simp] theorem State.freeInternals_pos (s : State) : (s.freeInternals).pos = Config.freeNat (s.free + 1) := by dsimp only [State.freeInternals]
@[simp] theorem State.freeInternals_mem (s : State) : (s.freeInternals).mem = s.mem := by dsimp only [State.freeInternals]
@[simp] theorem State.freeInternals_params (s : State) : (s.freeInternals).params = s.params := by dsimp only [State.freeInternals]
@[simp] theorem State.freeInternals_hdrStep (s : State) : (s.freeInternals).hdrStep = s.hdrStep := by dsimp only [State.freeInternals]
@[simp] theorem State.freeInternals_host (s : State) : (s.freeInternals).host = s.host := by dsimp only [State.freeInternals]
@[simp] theorem State.freeInternals_answer (s : State) : (s.freeInternals).answer = s.answer := by dsimp only [State.freeInternals]
@[simp] theorem State.freeInternals_unread (s : State) : (s.freeInternals).unread = s.unread := by dsimp only [State.freeInternals]
@[simp] theorem State.freeInternals_free (s : State) : (s.freeInternals).free = s.free + 260 := by dsimp only [State.freeInternals]

@[simp] theorem State.freeCommand_state (s : State) : (s.freeCommand).state = s.state := rfl
@[simp] theorem State.freeCommand_err (s : State) : (s.freeCommand).err = s.err := rfl
@[simp] theorem State.freeCommand_op (s : State) : (s.freeCommand).op = if Config.freeBit s.free then .decode else .encode := rfl
@[simp] theorem State.freeCommand_width (s : State) : (s.freeCommand).width = s.width := rfl
@[simp] theorem State.freeCommand_height (s : State) : (s.freeCommand).height = s.height := rfl
@[simp] theorem State.freeCommand_channels (s : State) : (s.freeCommand).channels = s.channels := rfl
@[simp] theorem State.freeCommand_colorspace (s : State) : (s.freeCommand).colorspace = s.colorspace := rfl
@[simp] theorem State.freeCommand_inBase (s : State) : (s.freeCommand).inBase = Config.freeNat s.free % 2 ^ s.params.csrMap.addressBits := rfl
@[simp] theorem State.freeCommand_inLen (s : State) : (s.freeCommand).inLen = Config.freeNat (s.free + 1) := rfl
@[simp] theorem State.freeCommand_outBase (s : State) : (s.freeCommand).outBase = Config.freeNat (s.free + 2) % 2 ^ s.params.csrMap.addressBits := rfl
@[simp] theorem State.freeCommand_outLen (s : State) : (s.freeCommand).outLen = s.outLen := rfl
@[simp] theorem State.freeCommand_outCapacity (s : State) : (s.freeCommand).outCapacity = s.outCapacity := rfl
@[simp] theorem State.freeCommand_phase (s : State) : (s.freeCommand).phase = s.phase := rfl
@[simp] theorem State.freeCommand_cache (s : State) : (s.freeCommand).cache = s.cache := rfl
@[simp] theorem State.freeCommand_prev (s : State) : (s.freeCommand).prev = s.prev := rfl
@[simp] theorem State.freeCommand_run (s : State) : (s.freeCommand).run = s.run := rfl
@[simp] theorem State.freeCommand_pix (s : State) : (s.freeCommand).pix = s.pix := rfl
@[simp] theorem State.freeCommand_pos (s : State) : (s.freeCommand).pos = s.pos := rfl
@[simp] theorem State.freeCommand_mem (s : State) : (s.freeCommand).mem = s.mem := rfl
@[simp] theorem State.freeCommand_params (s : State) : (s.freeCommand).params = s.params := rfl
@[simp] theorem State.freeCommand_hdrStep (s : State) : (s.freeCommand).hdrStep = s.hdrStep := rfl
@[simp] theorem State.freeCommand_host (s : State) : (s.freeCommand).host = s.host := rfl
@[simp] theorem State.freeCommand_answer (s : State) : (s.freeCommand).answer = s.answer := rfl
@[simp] theorem State.freeCommand_unread (s : State) : (s.freeCommand).unread = s.unread := rfl
@[simp] theorem State.freeCommand_free (s : State) : (s.freeCommand).free = s.free + 3 := rfl

@[simp] theorem State.complete_state (s : State) : (s.complete).state = .done := by dsimp only [State.complete, State.freeInternals, State.freeOutput]
@[simp] theorem State.complete_err (s : State) : (s.complete).err = s.err := by dsimp only [State.complete, State.freeInternals, State.freeOutput]
@[simp] theorem State.complete_op (s : State) : (s.complete).op = s.op := by dsimp only [State.complete, State.freeInternals, State.freeOutput]
@[simp] theorem State.complete_width (s : State) : (s.complete).width = s.width := by dsimp only [State.complete, State.freeInternals, State.freeOutput]
@[simp] theorem State.complete_height (s : State) : (s.complete).height = s.height := by dsimp only [State.complete, State.freeInternals, State.freeOutput]
@[simp] theorem State.complete_channels (s : State) : (s.complete).channels = s.channels := by dsimp only [State.complete, State.freeInternals, State.freeOutput]
@[simp] theorem State.complete_colorspace (s : State) : (s.complete).colorspace = s.colorspace := by dsimp only [State.complete, State.freeInternals, State.freeOutput]
@[simp] theorem State.complete_inBase (s : State) : (s.complete).inBase = s.inBase := by dsimp only [State.complete, State.freeInternals, State.freeOutput]
@[simp] theorem State.complete_inLen (s : State) : (s.complete).inLen = s.inLen := by dsimp only [State.complete, State.freeInternals, State.freeOutput]
@[simp] theorem State.complete_outBase (s : State) : (s.complete).outBase = s.outBase := by dsimp only [State.complete, State.freeInternals, State.freeOutput]
@[simp] theorem State.complete_outLen (s : State) : (s.complete).outLen = s.outLen := by dsimp only [State.complete, State.freeInternals, State.freeOutput]
@[simp] theorem State.complete_outCapacity (s : State) : (s.complete).outCapacity = s.outCapacity := by dsimp only [State.complete, State.freeInternals, State.freeOutput]
@[simp] theorem State.complete_phase (s : State) : (s.complete).phase = freePhase (s.free + (s.outCapacity - s.outLen)) := by dsimp only [State.complete, State.freeInternals, State.freeOutput]
@[simp] theorem State.complete_cache (s : State) : (s.complete).cache = freeCache (s.free + (s.outCapacity - s.outLen)) := by dsimp only [State.complete, State.freeInternals, State.freeOutput]
@[simp] theorem State.complete_prev (s : State) : (s.complete).prev = freePixel (s.free + (s.outCapacity - s.outLen) + 256) := by dsimp only [State.complete, State.freeInternals, State.freeOutput]
@[simp] theorem State.complete_run (s : State) : (s.complete).run = freeRun (s.free + (s.outCapacity - s.outLen)) := by dsimp only [State.complete, State.freeInternals, State.freeOutput]
@[simp] theorem State.complete_pix (s : State) : (s.complete).pix = Config.freeNat (s.free + (s.outCapacity - s.outLen) + 2) := by dsimp only [State.complete, State.freeInternals, State.freeOutput]
@[simp] theorem State.complete_pos (s : State) : (s.complete).pos = Config.freeNat (s.free + (s.outCapacity - s.outLen) + 1) := by dsimp only [State.complete, State.freeInternals, State.freeOutput]
@[simp] theorem State.complete_mem (s : State) : (s.complete).mem = s.mem.fillFree (s.outBase + s.outLen) s.free (s.outCapacity - s.outLen) := by dsimp only [State.complete, State.freeInternals, State.freeOutput]
@[simp] theorem State.complete_params (s : State) : (s.complete).params = s.params := by dsimp only [State.complete, State.freeInternals, State.freeOutput]
@[simp] theorem State.complete_hdrStep (s : State) : (s.complete).hdrStep = s.hdrStep := by dsimp only [State.complete, State.freeInternals, State.freeOutput]
@[simp] theorem State.complete_host (s : State) : (s.complete).host = s.host := by dsimp only [State.complete, State.freeInternals, State.freeOutput]
@[simp] theorem State.complete_answer (s : State) : (s.complete).answer = s.answer := by dsimp only [State.complete, State.freeInternals, State.freeOutput]
@[simp] theorem State.complete_unread (s : State) : (s.complete).unread = s.unread := by dsimp only [State.complete, State.freeInternals, State.freeOutput]
@[simp] theorem State.complete_free (s : State) : (s.complete).free = s.free + (s.outCapacity - s.outLen) + 260 := by dsimp only [State.complete, State.freeInternals, State.freeOutput]

@[simp] theorem State.setHeader_state (s : State) (w h : Word32) (ch cs : Byte) : (s.setHeader w h ch cs).state = s.state := rfl
@[simp] theorem State.setHeader_err (s : State) (w h : Word32) (ch cs : Byte) : (s.setHeader w h ch cs).err = s.err := rfl
@[simp] theorem State.setHeader_op (s : State) (w h : Word32) (ch cs : Byte) : (s.setHeader w h ch cs).op = s.op := rfl
@[simp] theorem State.setHeader_width (s : State) (w h : Word32) (ch cs : Byte) : (s.setHeader w h ch cs).width = w := rfl
@[simp] theorem State.setHeader_height (s : State) (w h : Word32) (ch cs : Byte) : (s.setHeader w h ch cs).height = h := rfl
@[simp] theorem State.setHeader_channels (s : State) (w h : Word32) (ch cs : Byte) : (s.setHeader w h ch cs).channels = ch := rfl
@[simp] theorem State.setHeader_colorspace (s : State) (w h : Word32) (ch cs : Byte) : (s.setHeader w h ch cs).colorspace = cs := rfl
@[simp] theorem State.setHeader_inBase (s : State) (w h : Word32) (ch cs : Byte) : (s.setHeader w h ch cs).inBase = s.inBase := rfl
@[simp] theorem State.setHeader_inLen (s : State) (w h : Word32) (ch cs : Byte) : (s.setHeader w h ch cs).inLen = s.inLen := rfl
@[simp] theorem State.setHeader_outBase (s : State) (w h : Word32) (ch cs : Byte) : (s.setHeader w h ch cs).outBase = s.outBase := rfl
@[simp] theorem State.setHeader_outLen (s : State) (w h : Word32) (ch cs : Byte) : (s.setHeader w h ch cs).outLen = s.outLen := rfl
@[simp] theorem State.setHeader_outCapacity (s : State) (w h : Word32) (ch cs : Byte) : (s.setHeader w h ch cs).outCapacity = s.outCapacity := rfl
@[simp] theorem State.setHeader_phase (s : State) (w h : Word32) (ch cs : Byte) : (s.setHeader w h ch cs).phase = s.phase := rfl
@[simp] theorem State.setHeader_cache (s : State) (w h : Word32) (ch cs : Byte) : (s.setHeader w h ch cs).cache = s.cache := rfl
@[simp] theorem State.setHeader_prev (s : State) (w h : Word32) (ch cs : Byte) : (s.setHeader w h ch cs).prev = s.prev := rfl
@[simp] theorem State.setHeader_run (s : State) (w h : Word32) (ch cs : Byte) : (s.setHeader w h ch cs).run = s.run := rfl
@[simp] theorem State.setHeader_pix (s : State) (w h : Word32) (ch cs : Byte) : (s.setHeader w h ch cs).pix = s.pix := rfl
@[simp] theorem State.setHeader_pos (s : State) (w h : Word32) (ch cs : Byte) : (s.setHeader w h ch cs).pos = s.pos := rfl
@[simp] theorem State.setHeader_mem (s : State) (w h : Word32) (ch cs : Byte) : (s.setHeader w h ch cs).mem = s.mem := rfl
@[simp] theorem State.setHeader_params (s : State) (w h : Word32) (ch cs : Byte) : (s.setHeader w h ch cs).params = s.params := rfl
@[simp] theorem State.setHeader_hdrStep (s : State) (w h : Word32) (ch cs : Byte) : (s.setHeader w h ch cs).hdrStep = s.hdrStep := rfl
@[simp] theorem State.setHeader_host (s : State) (w h : Word32) (ch cs : Byte) : (s.setHeader w h ch cs).host = s.host := rfl
@[simp] theorem State.setHeader_answer (s : State) (w h : Word32) (ch cs : Byte) : (s.setHeader w h ch cs).answer = s.answer := rfl
@[simp] theorem State.setHeader_unread (s : State) (w h : Word32) (ch cs : Byte) : (s.setHeader w h ch cs).unread = s.unread := rfl
@[simp] theorem State.setHeader_free (s : State) (w h : Word32) (ch cs : Byte) : (s.setHeader w h ch cs).free = s.free := rfl

@[simp] theorem State.startOperation_state (s : State) (op : Op) : (s.startOperation op).state = .busy := rfl
@[simp] theorem State.startOperation_err (s : State) (op : Op) : (s.startOperation op).err = .noError := rfl
@[simp] theorem State.startOperation_op (s : State) (op : Op) : (s.startOperation op).op = op := rfl
@[simp] theorem State.startOperation_width (s : State) (op : Op) : (s.startOperation op).width = s.width := rfl
@[simp] theorem State.startOperation_height (s : State) (op : Op) : (s.startOperation op).height = s.height := rfl
@[simp] theorem State.startOperation_channels (s : State) (op : Op) : (s.startOperation op).channels = s.channels := rfl
@[simp] theorem State.startOperation_colorspace (s : State) (op : Op) : (s.startOperation op).colorspace = s.colorspace := rfl
@[simp] theorem State.startOperation_inBase (s : State) (op : Op) : (s.startOperation op).inBase = s.inBase := rfl
@[simp] theorem State.startOperation_inLen (s : State) (op : Op) : (s.startOperation op).inLen = s.inLen := rfl
@[simp] theorem State.startOperation_outBase (s : State) (op : Op) : (s.startOperation op).outBase = s.outBase := rfl
@[simp] theorem State.startOperation_outLen (s : State) (op : Op) : (s.startOperation op).outLen = 0 := rfl
@[simp] theorem State.startOperation_outCapacity (s : State) (op : Op) : (s.startOperation op).outCapacity = s.outCapacity := rfl
@[simp] theorem State.startOperation_phase (s : State) (op : Op) : (s.startOperation op).phase = .hdr := rfl
@[simp] theorem State.startOperation_cache (s : State) (op : Op) : (s.startOperation op).cache = s.cache := rfl
@[simp] theorem State.startOperation_prev (s : State) (op : Op) : (s.startOperation op).prev = s.prev := rfl
@[simp] theorem State.startOperation_run (s : State) (op : Op) : (s.startOperation op).run = s.run := rfl
@[simp] theorem State.startOperation_pix (s : State) (op : Op) : (s.startOperation op).pix = s.pix := rfl
@[simp] theorem State.startOperation_pos (s : State) (op : Op) : (s.startOperation op).pos = s.pos := rfl
@[simp] theorem State.startOperation_mem (s : State) (op : Op) : (s.startOperation op).mem = s.mem := rfl
@[simp] theorem State.startOperation_params (s : State) (op : Op) : (s.startOperation op).params = s.params := rfl
@[simp] theorem State.startOperation_hdrStep (s : State) (op : Op) : (s.startOperation op).hdrStep = .opInit := rfl
@[simp] theorem State.startOperation_host (s : State) (op : Op) : (s.startOperation op).host = s.host := rfl
@[simp] theorem State.startOperation_answer (s : State) (op : Op) : (s.startOperation op).answer = s.answer := rfl
@[simp] theorem State.startOperation_unread (s : State) (op : Op) : (s.startOperation op).unread = true := rfl
@[simp] theorem State.startOperation_free (s : State) (op : Op) : (s.startOperation op).free = s.free := rfl

@[simp] theorem opInit_state (s : State) : (opInit s).state = s.state := rfl
@[simp] theorem opInit_err (s : State) : (opInit s).err = s.err := rfl
@[simp] theorem opInit_op (s : State) : (opInit s).op = s.op := rfl
@[simp] theorem opInit_width (s : State) : (opInit s).width = s.width := rfl
@[simp] theorem opInit_height (s : State) : (opInit s).height = s.height := rfl
@[simp] theorem opInit_channels (s : State) : (opInit s).channels = s.channels := rfl
@[simp] theorem opInit_colorspace (s : State) : (opInit s).colorspace = s.colorspace := rfl
@[simp] theorem opInit_inBase (s : State) : (opInit s).inBase = s.inBase := rfl
@[simp] theorem opInit_inLen (s : State) : (opInit s).inLen = s.inLen := rfl
@[simp] theorem opInit_outBase (s : State) : (opInit s).outBase = s.outBase := rfl
@[simp] theorem opInit_outLen (s : State) : (opInit s).outLen = s.outLen := rfl
@[simp] theorem opInit_outCapacity (s : State) : (opInit s).outCapacity = s.outCapacity := rfl
@[simp] theorem opInit_phase (s : State) : (opInit s).phase = s.phase := rfl
@[simp] theorem opInit_cache (s : State) : (opInit s).cache = Vector.replicate 64 zeroPixel := rfl
@[simp] theorem opInit_prev (s : State) : (opInit s).prev = prevInit := rfl
@[simp] theorem opInit_run (s : State) : (opInit s).run = 0#6 := rfl
@[simp] theorem opInit_pix (s : State) : (opInit s).pix = s.pix := rfl
@[simp] theorem opInit_pos (s : State) : (opInit s).pos = s.pos := rfl
@[simp] theorem opInit_mem (s : State) : (opInit s).mem = s.mem := rfl
@[simp] theorem opInit_params (s : State) : (opInit s).params = s.params := rfl
@[simp] theorem opInit_hdrStep (s : State) : (opInit s).hdrStep = .check := rfl
@[simp] theorem opInit_host (s : State) : (opInit s).host = s.host := rfl
@[simp] theorem opInit_answer (s : State) : (opInit s).answer = s.answer := rfl
@[simp] theorem opInit_unread (s : State) : (opInit s).unread = s.unread := rfl
@[simp] theorem opInit_free (s : State) : (opInit s).free = s.free := rfl

@[simp] theorem enterEncodeBody_state (s : State) : (enterEncodeBody s).state = s.state := rfl
@[simp] theorem enterEncodeBody_err (s : State) : (enterEncodeBody s).err = s.err := rfl
@[simp] theorem enterEncodeBody_op (s : State) : (enterEncodeBody s).op = s.op := rfl
@[simp] theorem enterEncodeBody_width (s : State) : (enterEncodeBody s).width = s.width := rfl
@[simp] theorem enterEncodeBody_height (s : State) : (enterEncodeBody s).height = s.height := rfl
@[simp] theorem enterEncodeBody_channels (s : State) : (enterEncodeBody s).channels = s.channels := rfl
@[simp] theorem enterEncodeBody_colorspace (s : State) : (enterEncodeBody s).colorspace = s.colorspace := rfl
@[simp] theorem enterEncodeBody_inBase (s : State) : (enterEncodeBody s).inBase = s.inBase := rfl
@[simp] theorem enterEncodeBody_inLen (s : State) : (enterEncodeBody s).inLen = s.inLen := rfl
@[simp] theorem enterEncodeBody_outBase (s : State) : (enterEncodeBody s).outBase = s.outBase := rfl
@[simp] theorem enterEncodeBody_outLen (s : State) : (enterEncodeBody s).outLen = s.outLen := rfl
@[simp] theorem enterEncodeBody_outCapacity (s : State) : (enterEncodeBody s).outCapacity = s.outCapacity := rfl
@[simp] theorem enterEncodeBody_phase (s : State) : (enterEncodeBody s).phase = if s.npix = 0 then .ftr else .body := rfl
@[simp] theorem enterEncodeBody_cache (s : State) : (enterEncodeBody s).cache = s.cache := rfl
@[simp] theorem enterEncodeBody_prev (s : State) : (enterEncodeBody s).prev = s.prev := rfl
@[simp] theorem enterEncodeBody_run (s : State) : (enterEncodeBody s).run = s.run := rfl
@[simp] theorem enterEncodeBody_pix (s : State) : (enterEncodeBody s).pix = 0 := rfl
@[simp] theorem enterEncodeBody_pos (s : State) : (enterEncodeBody s).pos = s.pos := rfl
@[simp] theorem enterEncodeBody_mem (s : State) : (enterEncodeBody s).mem = s.mem := rfl
@[simp] theorem enterEncodeBody_params (s : State) : (enterEncodeBody s).params = s.params := rfl
@[simp] theorem enterEncodeBody_hdrStep (s : State) : (enterEncodeBody s).hdrStep = s.hdrStep := rfl
@[simp] theorem enterEncodeBody_host (s : State) : (enterEncodeBody s).host = s.host := rfl
@[simp] theorem enterEncodeBody_answer (s : State) : (enterEncodeBody s).answer = s.answer := rfl
@[simp] theorem enterEncodeBody_unread (s : State) : (enterEncodeBody s).unread = s.unread := rfl
@[simp] theorem enterEncodeBody_free (s : State) : (enterEncodeBody s).free = s.free := rfl

@[simp] theorem enterDecodeBody_state (s : State) : (enterDecodeBody s).state = s.state := rfl
@[simp] theorem enterDecodeBody_err (s : State) : (enterDecodeBody s).err = s.err := rfl
@[simp] theorem enterDecodeBody_op (s : State) : (enterDecodeBody s).op = s.op := rfl
@[simp] theorem enterDecodeBody_width (s : State) : (enterDecodeBody s).width = s.width := rfl
@[simp] theorem enterDecodeBody_height (s : State) : (enterDecodeBody s).height = s.height := rfl
@[simp] theorem enterDecodeBody_channels (s : State) : (enterDecodeBody s).channels = s.channels := rfl
@[simp] theorem enterDecodeBody_colorspace (s : State) : (enterDecodeBody s).colorspace = s.colorspace := rfl
@[simp] theorem enterDecodeBody_inBase (s : State) : (enterDecodeBody s).inBase = s.inBase := rfl
@[simp] theorem enterDecodeBody_inLen (s : State) : (enterDecodeBody s).inLen = s.inLen := rfl
@[simp] theorem enterDecodeBody_outBase (s : State) : (enterDecodeBody s).outBase = s.outBase := rfl
@[simp] theorem enterDecodeBody_outLen (s : State) : (enterDecodeBody s).outLen = s.outLen := rfl
@[simp] theorem enterDecodeBody_outCapacity (s : State) : (enterDecodeBody s).outCapacity = s.outCapacity := rfl
@[simp] theorem enterDecodeBody_phase (s : State) : (enterDecodeBody s).phase = .body := rfl
@[simp] theorem enterDecodeBody_cache (s : State) : (enterDecodeBody s).cache = s.cache := rfl
@[simp] theorem enterDecodeBody_prev (s : State) : (enterDecodeBody s).prev = s.prev := rfl
@[simp] theorem enterDecodeBody_run (s : State) : (enterDecodeBody s).run = s.run := rfl
@[simp] theorem enterDecodeBody_pix (s : State) : (enterDecodeBody s).pix = s.pix := rfl
@[simp] theorem enterDecodeBody_pos (s : State) : (enterDecodeBody s).pos = headerLength := rfl
@[simp] theorem enterDecodeBody_mem (s : State) : (enterDecodeBody s).mem = s.mem := rfl
@[simp] theorem enterDecodeBody_params (s : State) : (enterDecodeBody s).params = s.params := rfl
@[simp] theorem enterDecodeBody_hdrStep (s : State) : (enterDecodeBody s).hdrStep = s.hdrStep := rfl
@[simp] theorem enterDecodeBody_host (s : State) : (enterDecodeBody s).host = s.host := rfl
@[simp] theorem enterDecodeBody_answer (s : State) : (enterDecodeBody s).answer = s.answer := rfl
@[simp] theorem enterDecodeBody_unread (s : State) : (enterDecodeBody s).unread = s.unread := rfl
@[simp] theorem enterDecodeBody_free (s : State) : (enterDecodeBody s).free = s.free := rfl

@[simp] theorem advancePixel_state (s : State) (cur : Pixel) : (advancePixel cur s).state = s.state := rfl
@[simp] theorem advancePixel_err (s : State) (cur : Pixel) : (advancePixel cur s).err = s.err := rfl
@[simp] theorem advancePixel_op (s : State) (cur : Pixel) : (advancePixel cur s).op = s.op := rfl
@[simp] theorem advancePixel_width (s : State) (cur : Pixel) : (advancePixel cur s).width = s.width := rfl
@[simp] theorem advancePixel_height (s : State) (cur : Pixel) : (advancePixel cur s).height = s.height := rfl
@[simp] theorem advancePixel_channels (s : State) (cur : Pixel) : (advancePixel cur s).channels = s.channels := rfl
@[simp] theorem advancePixel_colorspace (s : State) (cur : Pixel) : (advancePixel cur s).colorspace = s.colorspace := rfl
@[simp] theorem advancePixel_inBase (s : State) (cur : Pixel) : (advancePixel cur s).inBase = s.inBase := rfl
@[simp] theorem advancePixel_inLen (s : State) (cur : Pixel) : (advancePixel cur s).inLen = s.inLen := rfl
@[simp] theorem advancePixel_outBase (s : State) (cur : Pixel) : (advancePixel cur s).outBase = s.outBase := rfl
@[simp] theorem advancePixel_outLen (s : State) (cur : Pixel) : (advancePixel cur s).outLen = s.outLen := rfl
@[simp] theorem advancePixel_outCapacity (s : State) (cur : Pixel) : (advancePixel cur s).outCapacity = s.outCapacity := rfl
@[simp] theorem advancePixel_phase (s : State) (cur : Pixel) : (advancePixel cur s).phase = if s.pix + 1 = s.npix then .ftr else s.phase := rfl
@[simp] theorem advancePixel_cache (s : State) (cur : Pixel) : (advancePixel cur s).cache = s.cache := rfl
@[simp] theorem advancePixel_prev (s : State) (cur : Pixel) : (advancePixel cur s).prev = cur := rfl
@[simp] theorem advancePixel_run (s : State) (cur : Pixel) : (advancePixel cur s).run = s.run := rfl
@[simp] theorem advancePixel_pix (s : State) (cur : Pixel) : (advancePixel cur s).pix = s.pix + 1 := rfl
@[simp] theorem advancePixel_pos (s : State) (cur : Pixel) : (advancePixel cur s).pos = s.pos := rfl
@[simp] theorem advancePixel_mem (s : State) (cur : Pixel) : (advancePixel cur s).mem = s.mem := rfl
@[simp] theorem advancePixel_params (s : State) (cur : Pixel) : (advancePixel cur s).params = s.params := rfl
@[simp] theorem advancePixel_hdrStep (s : State) (cur : Pixel) : (advancePixel cur s).hdrStep = s.hdrStep := rfl
@[simp] theorem advancePixel_host (s : State) (cur : Pixel) : (advancePixel cur s).host = s.host := rfl
@[simp] theorem advancePixel_answer (s : State) (cur : Pixel) : (advancePixel cur s).answer = s.answer := rfl
@[simp] theorem advancePixel_unread (s : State) (cur : Pixel) : (advancePixel cur s).unread = s.unread := rfl
@[simp] theorem advancePixel_free (s : State) (cur : Pixel) : (advancePixel cur s).free = s.free := rfl

@[simp] theorem readStatus_state (s : State) : (readStatus s).state = s.state := rfl
@[simp] theorem readStatus_err (s : State) : (readStatus s).err = s.err := rfl
@[simp] theorem readStatus_op (s : State) : (readStatus s).op = s.op := rfl
@[simp] theorem readStatus_width (s : State) : (readStatus s).width = s.width := rfl
@[simp] theorem readStatus_height (s : State) : (readStatus s).height = s.height := rfl
@[simp] theorem readStatus_channels (s : State) : (readStatus s).channels = s.channels := rfl
@[simp] theorem readStatus_colorspace (s : State) : (readStatus s).colorspace = s.colorspace := rfl
@[simp] theorem readStatus_inBase (s : State) : (readStatus s).inBase = s.inBase := rfl
@[simp] theorem readStatus_inLen (s : State) : (readStatus s).inLen = s.inLen := rfl
@[simp] theorem readStatus_outBase (s : State) : (readStatus s).outBase = s.outBase := rfl
@[simp] theorem readStatus_outLen (s : State) : (readStatus s).outLen = s.outLen := rfl
@[simp] theorem readStatus_outCapacity (s : State) : (readStatus s).outCapacity = s.outCapacity := rfl
@[simp] theorem readStatus_phase (s : State) : (readStatus s).phase = s.phase := rfl
@[simp] theorem readStatus_cache (s : State) : (readStatus s).cache = s.cache := rfl
@[simp] theorem readStatus_prev (s : State) : (readStatus s).prev = s.prev := rfl
@[simp] theorem readStatus_run (s : State) : (readStatus s).run = s.run := rfl
@[simp] theorem readStatus_pix (s : State) : (readStatus s).pix = s.pix := rfl
@[simp] theorem readStatus_pos (s : State) : (readStatus s).pos = s.pos := rfl
@[simp] theorem readStatus_mem (s : State) : (readStatus s).mem = s.mem := rfl
@[simp] theorem readStatus_params (s : State) : (readStatus s).params = s.params := rfl
@[simp] theorem readStatus_hdrStep (s : State) : (readStatus s).hdrStep = s.hdrStep := rfl
@[simp] theorem readStatus_host (s : State) : (readStatus s).host = s.host := rfl
@[simp] theorem readStatus_free (s : State) : (readStatus s).free = s.free := rfl
@[simp] theorem readStatus_answer (s : State) : (readStatus s).answer = .status s.state.code s.err.code := rfl
@[simp] theorem readStatus_unread (s : State) :
    (readStatus s).unread = if s.state = .done ∨ s.state = .error then false else s.unread := rfl

@[simp] theorem State.abort_state (s : State) (e : Err) : (s.abort e).state = .error := by
  unfold State.abort
  split <;> simp
@[simp] theorem State.abort_err (s : State) (e : Err) : (s.abort e).err = e := by
  unfold State.abort
  split <;> simp
@[simp] theorem State.abort_op (s : State) (e : Err) : (s.abort e).op = s.op := by
  unfold State.abort
  split <;> simp
theorem State.abort_width_encode (s : State) (e : Err) (h : s.op = .encode) : (s.abort e).width = s.width := by
  simp [State.abort, h]
theorem State.abort_height_encode (s : State) (e : Err) (h : s.op = .encode) : (s.abort e).height = s.height := by
  simp [State.abort, h]
theorem State.abort_channels_encode (s : State) (e : Err) (h : s.op = .encode) : (s.abort e).channels = s.channels := by
  simp [State.abort, h]
theorem State.abort_colorspace_encode (s : State) (e : Err) (h : s.op = .encode) : (s.abort e).colorspace = s.colorspace := by
  simp [State.abort, h]
@[simp] theorem State.abort_inBase (s : State) (e : Err) : (s.abort e).inBase = s.inBase := by
  unfold State.abort
  split <;> simp
@[simp] theorem State.abort_inLen (s : State) (e : Err) : (s.abort e).inLen = s.inLen := by
  unfold State.abort
  split <;> simp
@[simp] theorem State.abort_outBase (s : State) (e : Err) : (s.abort e).outBase = s.outBase := by
  unfold State.abort
  split <;> simp
@[simp] theorem State.abort_outLen (s : State) (e : Err) : (s.abort e).outLen = 0 := by
  unfold State.abort
  split <;> simp
@[simp] theorem State.abort_outCapacity (s : State) (e : Err) : (s.abort e).outCapacity = s.outCapacity := by
  unfold State.abort
  split <;> simp
@[simp] theorem State.abort_mem (s : State) (e : Err) : (s.abort e).mem = s.mem.fillFree s.outBase s.free s.outCapacity := by
  unfold State.abort
  split <;> simp
@[simp] theorem State.abort_params (s : State) (e : Err) : (s.abort e).params = s.params := by
  unfold State.abort
  split <;> simp
@[simp] theorem State.abort_hdrStep (s : State) (e : Err) : (s.abort e).hdrStep = s.hdrStep := by
  unfold State.abort
  split <;> simp
@[simp] theorem State.abort_host (s : State) (e : Err) : (s.abort e).host = s.host := by
  unfold State.abort
  split <;> simp
@[simp] theorem State.abort_answer (s : State) (e : Err) : (s.abort e).answer = s.answer := by
  unfold State.abort
  split <;> simp
@[simp] theorem State.abort_unread (s : State) (e : Err) : (s.abort e).unread = s.unread := by
  unfold State.abort
  split <;> simp

@[simp] theorem State.powerOn_state (s : State) : s.powerOn.state = .idle := by
  unfold State.powerOn
  split <;> simp
@[simp] theorem State.powerOn_err (s : State) : s.powerOn.err = .noError := by
  unfold State.powerOn
  split <;> simp
@[simp] theorem State.powerOn_outLen (s : State) : s.powerOn.outLen = 0 := by
  unfold State.powerOn
  split <;> simp
@[simp] theorem State.powerOn_outCapacity (s : State) : s.powerOn.outCapacity = s.outCapacity := by
  unfold State.powerOn
  split <;> simp
@[simp] theorem State.powerOn_params (s : State) : s.powerOn.params = s.params := by
  unfold State.powerOn
  split <;> simp
@[simp] theorem State.powerOn_hdrStep (s : State) : s.powerOn.hdrStep = s.hdrStep := by
  unfold State.powerOn
  split <;> simp
@[simp] theorem State.powerOn_host (s : State) : s.powerOn.host = s.host := by
  unfold State.powerOn
  split <;> simp
@[simp] theorem State.powerOn_answer (s : State) : s.powerOn.answer = s.answer := by
  unfold State.powerOn
  split <;> simp
@[simp] theorem State.powerOn_unread (s : State) : s.powerOn.unread = false := by
  unfold State.powerOn
  split <;> simp

/-- After a power-on reset the address registers hold addresses (log entry 21). -/
theorem State.powerOn_addresses (s : State) :
    s.powerOn.addressExists s.powerOn.inBase = true ∧ s.powerOn.addressExists s.powerOn.outBase = true := by
  unfold State.powerOn State.addressExists
  split <;> exact ⟨decide_eq_true (Nat.mod_lt _ (Nat.two_pow_pos _)), decide_eq_true (Nat.mod_lt _ (Nat.two_pow_pos _))⟩

theorem State.powerOn_mem (s : State) :
    s.powerOn.mem = if s.state = .busy ∨ s.unread = true then s.mem.fillFree s.outBase s.free s.outCapacity else s.mem := by
  unfold State.powerOn
  split <;> simp

theorem freeRun_le (ctr : Nat) : (freeRun ctr).toNat ≤ 62 := by
  unfold freeRun
  rw [BitVec.toNat_ofNat]
  omega

@[simp] theorem State.abort_run_le (s : State) (e : Err) : (s.abort e).run.toNat ≤ 62 := by
  unfold State.abort
  simp [freeRun_le]

@[simp] theorem State.complete_run_le (s : State) : s.complete.run.toNat ≤ 62 := by
  simp [freeRun_le]
@[simp] theorem State.powerOn_run_le (s : State) : s.powerOn.run.toNat ≤ 62 := by
  unfold State.powerOn
  simp [freeRun_le]

/-- A cache slot after a write. -/
theorem State.cacheRead_cacheWrite (s : State) (i j : BitVec 6) (p : Pixel) :
    (s.cacheWrite i p).cacheRead j = if j = i then p else s.cacheRead j := by
  unfold State.cacheRead State.cacheWrite
  by_cases h : j = i
  · subst h
    simp
  · have : i.toNat ≠ j.toNat := fun he => h (BitVec.eq_of_toNat_eq he.symm)
    simp [h, this]

/-- Any slot of a cache of zero pixels. -/
theorem State.cacheRead_zero (s : State) (i : BitVec 6) (h : s.cache = Vector.replicate 64 zeroPixel) :
    s.cacheRead i = zeroPixel := by
  simp [State.cacheRead, h]

end Sys2Proof.Machine
end

