-- ==== Sys2Proof/Laws/Append.lean ====
section
/-! SUPPORT. What appending to the output can do: it succeeds exactly when the bytes fit, and then writes them at the end of
the output and changes nothing else. -/

namespace Sys2Proof.Machine

theorem State.withOutput_nil (s : State) : s.withOutput [] = s := by simp [State.withOutput, Memory.writeList]

theorem State.withOutput_append (s : State) (bs cs : List Byte) :
    (s.withOutput bs).withOutput cs = s.withOutput (bs ++ cs) := by
  simp [State.withOutput, Memory.writeList_append, Nat.add_assoc]

theorem State.outAppendAll_fits {s : State} (bs : List Byte) (h : s.fits bs.length) :
    s.outAppendAll bs = some (s.withOutput bs) := by
  induction bs generalizing s with
  | nil => simp [State.outAppendAll, State.withOutput_nil]
  | cons v vs ih =>
    unfold State.fits at h
    simp only [List.length_cons] at h
    unfold State.outAppendAll State.outAppend
    rw [if_pos (by omega)]
    simp only
    rw [ih]
    · simp [State.withOutput, Memory.writeList, Nat.add_assoc, Nat.add_comm 1]
    · simp only [State.fits]
      omega

theorem State.outAppendAll_overflow {s : State} {bs : List Byte} (hb : bs ≠ []) (h : ¬ s.fits bs.length) :
    s.outAppendAll bs = none := by
  induction bs generalizing s with
  | nil => exact absurd rfl hb
  | cons v vs ih =>
    unfold State.fits at h
    simp only [List.length_cons] at h
    unfold State.outAppendAll State.outAppend
    by_cases h1 : s.outLen < s.outCapacity
    · rw [if_pos h1]
      simp only
      apply ih
      · rintro rfl
        simp at h
        omega
      · simp only [State.fits]
        omega
    · rw [if_neg h1]

theorem State.outAppendAll_some {s t : State} {bs : List Byte} (h : s.outAppendAll bs = some t) :
    t = s.withOutput bs ∧ (bs = [] ∨ s.fits bs.length) := by
  by_cases hb : bs = []
  · subst hb
    simp only [State.outAppendAll, Option.some.injEq] at h
    exact ⟨by rw [State.withOutput_nil, h], .inl rfl⟩
  · by_cases hf : s.fits bs.length
    · rw [State.outAppendAll_fits bs hf] at h
      exact ⟨(Option.some.inj h).symm, .inr hf⟩
    · rw [State.outAppendAll_overflow hb hf] at h
      cases h

theorem State.outAppendAll_append (s : State) (bs cs : List Byte) :
    s.outAppendAll (bs ++ cs) = match s.outAppendAll bs with
      | some t => t.outAppendAll cs
      | none => none := by
  induction bs generalizing s with
  | nil => rfl
  | cons v vs ih =>
    simp only [List.cons_append, State.outAppendAll]
    cases s.outAppend v with
    | none => rfl
    | some t => exact ih t

/-- The bytes a RUN of `n` pixels appends. -/
def runBytes (channels : Byte) (p : Pixel) (n : Nat) : List Byte := (List.replicate n (pixelBytes channels p)).flatten

theorem State.pixelOutRepeat_eq (p : Pixel) (n : Nat) (s : State) :
    s.pixelOutRepeat p n = s.outAppendAll (runBytes s.channels p n) := by
  induction n generalizing s with
  | zero => rfl
  | succ n ih =>
    simp only [State.pixelOutRepeat, State.pixelOut, runBytes, List.replicate_succ, List.flatten_cons]
    rw [State.outAppendAll_append]
    cases h : s.outAppendAll (pixelBytes s.channels p) with
    | none => rfl
    | some t =>
      simp only
      rw [ih, (State.outAppendAll_some h).1]
      rfl

theorem pixelBytes_length (ch : Byte) (p : Pixel) : (pixelBytes ch p).length = if ch = 4#8 then 4 else 3 := by
  unfold pixelBytes
  split <;> rfl

theorem runBytes_length (ch : Byte) (p : Pixel) (n : Nat) : (runBytes ch p n).length = n * (if ch = 4#8 then 4 else 3) := by
  simp [runBytes, pixelBytes_length]

theorem pixelBytes_ne_nil (ch : Byte) (p : Pixel) : pixelBytes ch p ≠ [] := by
  unfold pixelBytes
  split <;> simp

theorem beBytes_length (w : Word32) : (beBytes w).length = 4 := rfl

theorem State.headerBytes_length (s : State) : s.headerBytes.length = 14 := by simp [State.headerBytes, beBytes_length]

theorem footerBytes_length : footerBytes.length = 8 := rfl

/-- A closed-form append is what `Appended` says. -/
theorem State.withOutput_appended (s : State) (bs : List Byte) : Appended s (s.withOutput bs) bs :=
  ⟨rfl, rfl, fun _ _ h => Memory.read_writeList_in _ _ _ h, fun _ h => Memory.read_writeList_out _ _ _ h⟩

/-- `Appended` depends on memory and the output registers alone. -/
theorem Appended.congr_left {s s' t : State} {bs : List Byte} (h : Appended s t bs) (hm : s'.mem = s.mem)
    (hb : s'.outBase = s.outBase) (hl : s'.outLen = s.outLen) : Appended s' t bs := by
  unfold Appended at *
  rw [hm, hb, hl]
  exact h

theorem Appended.congr_right {s t t' : State} {bs : List Byte} (h : Appended s t bs) (hm : t'.mem = t.mem)
    (hb : t'.outBase = t.outBase) (hl : t'.outLen = t.outLen) : Appended s t' bs := by
  unfold Appended at *
  rw [hm, hb, hl]
  exact h

theorem Appended.trans {s t u : State} {bs cs : List Byte} (h1 : Appended s t bs) (h2 : Appended t u cs) :
    Appended s u (bs ++ cs) := by
  obtain ⟨a1, a2, a3, a4⟩ := h1
  obtain ⟨b1, b2, b3, b4⟩ := h2
  rw [a1, a2] at b3 b4
  refine ⟨by rw [b1, a1], by rw [b2, a2, List.length_append, Nat.add_assoc], fun k v hk => ?_, fun a ha => ?_⟩
  · by_cases hlt : k < bs.length
    · rw [List.getElem?_append_left hlt] at hk
      rw [b4 _ (.inl (by omega)), a3 k v hk]
    · rw [List.getElem?_append_right (by omega)] at hk
      rw [← b3 (k - bs.length) v hk]
      congr 1
      omega
  · rw [List.length_append] at ha
    rw [b4 a (by omega), a4 a (by omega)]

end Sys2Proof.Machine
end

