-- ==== Sys2Proof/Laws/Encode.lean ====
section
/-! SUPPORT. What the encoder can do with one pixel, said once: it counts, it emits the run, or it emits the pending run and
the chunk of the pixel; and the bytes of each chunk as the rules of 42_encoder.md write them. -/

namespace Sys2Proof.Machine

/-- The chunk ENCSTEP chooses for a pixel that differs from `prev` (R174). -/
def tierInstr (cur : Pixel) (s : State) : Instr :=
  if s.cacheHit cur then .index (pixelHash cur)
  else if cur.a = s.prev.a then
    if diffOk (signedDelta cur.r s.prev.r) (signedDelta cur.g s.prev.g) (signedDelta cur.b s.prev.b) then
      .diff (signedDelta cur.r s.prev.r) (signedDelta cur.g s.prev.g) (signedDelta cur.b s.prev.b)
    else if lumaOk (signedDelta cur.r s.prev.r) (signedDelta cur.g s.prev.g) (signedDelta cur.b s.prev.b) then
      .luma (signedDelta cur.g s.prev.g) (signedDelta cur.r s.prev.r - signedDelta cur.g s.prev.g)
        (signedDelta cur.b s.prev.b - signedDelta cur.g s.prev.g)
    else .rgb cur.r cur.g cur.b
  else .rgba cur.r cur.g cur.b cur.a

/-- The cache a pixel that differs from `prev` leaves: written on a miss (R177, R178). -/
def tierCache (cur : Pixel) (s : State) : State := if s.cacheHit cur then s else s.cacheWrite (pixelHash cur) cur

/-- What a pixel that differs from `prev` leaves, before `prev` and `pix` are written. -/
def newPixelResult (cur : Pixel) (s : State) : State :=
  ((tierCache cur s).withOutput (s.pendingRun ++ encode (tierInstr cur s))).setRun 0#6

theorem encode_ne_nil (i : Instr) : encode i ≠ [] := by cases i <;> simp [encode]

theorem encode_length (i : Instr) : (encode i).length = i.length := by cases i <;> rfl

/-- The RUN byte as R175 writes it. -/
theorem encode_run_byte : ∀ x : BitVec 6, encode (.run x.toNat) = [0xC0#8 ||| BitVec.ofNat 8 (x.toNat - 1)] := by decide

/-- The INDEX byte as R177 writes it. -/
theorem encode_index_byte : ∀ x : BitVec 6, encode (.index x) = [BitVec.ofNat 8 x.toNat] := by decide

theorem pendingRun_of_ne {s : State} (h : s.run ≠ 0#6) : encode (.run s.run.toNat) = s.pendingRun := by
  rw [State.pendingRun, if_neg h, encode_run_byte]

theorem pendingRun_of_zero {s : State} (h : s.run = 0#6) : s.pendingRun = [] := by rw [State.pendingRun, if_pos h]

theorem pendingRun_length_le (s : State) : s.pendingRun.length ≤ 1 := by
  unfold State.pendingRun
  split <;> simp

/-- A state whose pending run is already clear. -/
theorem setRun_self {s : State} (h : s.run = 0#6) : s.setRun 0#6 = s := by
  rw [← h]
  rfl

theorem runFlush_fits {s : State} (h : s.fits s.pendingRun.length) :
    runFlush s = some ((s.withOutput s.pendingRun).setRun 0#6) := by
  unfold runFlush
  by_cases hr : s.run = 0#6
  · rw [if_pos hr, pendingRun_of_zero hr, State.withOutput_nil, setRun_self hr]
  · rw [if_neg hr, emitRun, emit, pendingRun_of_ne hr, State.outAppendAll_fits _ h]

theorem runFlush_stuck {s : State} (h : ¬ s.fits s.pendingRun.length) (hr : s.run ≠ 0#6) : runFlush s = none := by
  rw [runFlush, if_neg hr, emitRun, emit, pendingRun_of_ne hr, State.outAppendAll_overflow _ h]
  simp [State.pendingRun, hr]

/-- The cache tier and the differential encoder, as one emission (R174). -/
theorem encCachedOrMiss_eq (cur : Pixel) (s : State) :
    encCachedOrMiss cur s = emit (tierInstr cur s) (tierCache cur s) := by
  unfold encCachedOrMiss tierInstr tierCache
  by_cases hh : s.cacheHit cur = true
  · simp [hh, encIndex]
  · simp only [hh, Bool.false_eq_true, if_false]
    unfold encMiss encDifferential
    simp only [State.cacheWrite_prev]
    by_cases ha : cur.a = s.prev.a
    · simp only [ha, if_true, encDiff, encLuma, encRgb]
      by_cases hd : diffOk (signedDelta cur.r s.prev.r) (signedDelta cur.g s.prev.g) (signedDelta cur.b s.prev.b) = true
      · simp only [hd, if_true]
      · by_cases hl : lumaOk (signedDelta cur.r s.prev.r) (signedDelta cur.g s.prev.g) (signedDelta cur.b s.prev.b) = true
        · simp only [hd, hl, if_true, Bool.false_eq_true, if_false]
        · simp only [hd, hl, Bool.false_eq_true, if_false]
    · simp only [ha, if_false, encRgba]

@[simp] theorem tierCache_state (cur : Pixel) (s : State) : (tierCache cur s).state = s.state := by
  unfold tierCache
  split <;> simp

@[simp] theorem tierCache_err (cur : Pixel) (s : State) : (tierCache cur s).err = s.err := by
  unfold tierCache
  split <;> simp

@[simp] theorem tierCache_op (cur : Pixel) (s : State) : (tierCache cur s).op = s.op := by
  unfold tierCache
  split <;> simp

@[simp] theorem tierCache_width (cur : Pixel) (s : State) : (tierCache cur s).width = s.width := by
  unfold tierCache
  split <;> simp

@[simp] theorem tierCache_height (cur : Pixel) (s : State) : (tierCache cur s).height = s.height := by
  unfold tierCache
  split <;> simp

@[simp] theorem tierCache_channels (cur : Pixel) (s : State) : (tierCache cur s).channels = s.channels := by
  unfold tierCache
  split <;> simp

@[simp] theorem tierCache_colorspace (cur : Pixel) (s : State) : (tierCache cur s).colorspace = s.colorspace := by
  unfold tierCache
  split <;> simp

@[simp] theorem tierCache_inBase (cur : Pixel) (s : State) : (tierCache cur s).inBase = s.inBase := by
  unfold tierCache
  split <;> simp

@[simp] theorem tierCache_inLen (cur : Pixel) (s : State) : (tierCache cur s).inLen = s.inLen := by
  unfold tierCache
  split <;> simp

@[simp] theorem tierCache_outBase (cur : Pixel) (s : State) : (tierCache cur s).outBase = s.outBase := by
  unfold tierCache
  split <;> simp

@[simp] theorem tierCache_outLen (cur : Pixel) (s : State) : (tierCache cur s).outLen = s.outLen := by
  unfold tierCache
  split <;> simp

@[simp] theorem tierCache_outCapacity (cur : Pixel) (s : State) : (tierCache cur s).outCapacity = s.outCapacity := by
  unfold tierCache
  split <;> simp

@[simp] theorem tierCache_phase (cur : Pixel) (s : State) : (tierCache cur s).phase = s.phase := by
  unfold tierCache
  split <;> simp

@[simp] theorem tierCache_prev (cur : Pixel) (s : State) : (tierCache cur s).prev = s.prev := by
  unfold tierCache
  split <;> simp

@[simp] theorem tierCache_run (cur : Pixel) (s : State) : (tierCache cur s).run = s.run := by
  unfold tierCache
  split <;> simp

@[simp] theorem tierCache_pix (cur : Pixel) (s : State) : (tierCache cur s).pix = s.pix := by
  unfold tierCache
  split <;> simp

@[simp] theorem tierCache_pos (cur : Pixel) (s : State) : (tierCache cur s).pos = s.pos := by
  unfold tierCache
  split <;> simp

@[simp] theorem tierCache_mem (cur : Pixel) (s : State) : (tierCache cur s).mem = s.mem := by
  unfold tierCache
  split <;> simp

@[simp] theorem tierCache_params (cur : Pixel) (s : State) : (tierCache cur s).params = s.params := by
  unfold tierCache
  split <;> simp

@[simp] theorem tierCache_hdrStep (cur : Pixel) (s : State) : (tierCache cur s).hdrStep = s.hdrStep := by
  unfold tierCache
  split <;> simp

@[simp] theorem tierCache_host (cur : Pixel) (s : State) : (tierCache cur s).host = s.host := by
  unfold tierCache
  split <;> simp

@[simp] theorem tierCache_answer (cur : Pixel) (s : State) : (tierCache cur s).answer = s.answer := by
  unfold tierCache
  split <;> simp
@[simp] theorem tierCache_unread (cur : Pixel) (s : State) : (tierCache cur s).unread = s.unread := by
  unfold tierCache
  split <;> simp

@[simp] theorem tierCache_free (cur : Pixel) (s : State) : (tierCache cur s).free = s.free := by
  unfold tierCache
  split <;> simp

@[simp] theorem newPixelResult_state (cur : Pixel) (s : State) :
    (newPixelResult cur s).state = s.state := by
  simp [newPixelResult]

@[simp] theorem newPixelResult_err (cur : Pixel) (s : State) :
    (newPixelResult cur s).err = s.err := by
  simp [newPixelResult]

@[simp] theorem newPixelResult_op (cur : Pixel) (s : State) :
    (newPixelResult cur s).op = s.op := by
  simp [newPixelResult]

@[simp] theorem newPixelResult_width (cur : Pixel) (s : State) :
    (newPixelResult cur s).width = s.width := by
  simp [newPixelResult]

@[simp] theorem newPixelResult_height (cur : Pixel) (s : State) :
    (newPixelResult cur s).height = s.height := by
  simp [newPixelResult]

@[simp] theorem newPixelResult_channels (cur : Pixel) (s : State) :
    (newPixelResult cur s).channels = s.channels := by
  simp [newPixelResult]

@[simp] theorem newPixelResult_colorspace (cur : Pixel) (s : State) :
    (newPixelResult cur s).colorspace = s.colorspace := by
  simp [newPixelResult]

@[simp] theorem newPixelResult_inBase (cur : Pixel) (s : State) :
    (newPixelResult cur s).inBase = s.inBase := by
  simp [newPixelResult]

@[simp] theorem newPixelResult_inLen (cur : Pixel) (s : State) :
    (newPixelResult cur s).inLen = s.inLen := by
  simp [newPixelResult]

@[simp] theorem newPixelResult_outBase (cur : Pixel) (s : State) :
    (newPixelResult cur s).outBase = s.outBase := by
  simp [newPixelResult]

@[simp] theorem newPixelResult_outLen (cur : Pixel) (s : State) :
    (newPixelResult cur s).outLen = s.outLen + (s.pendingRun ++ encode (tierInstr cur s)).length := by
  simp [newPixelResult]

@[simp] theorem newPixelResult_outCapacity (cur : Pixel) (s : State) :
    (newPixelResult cur s).outCapacity = s.outCapacity := by
  simp [newPixelResult]

@[simp] theorem newPixelResult_phase (cur : Pixel) (s : State) :
    (newPixelResult cur s).phase = s.phase := by
  simp [newPixelResult]

@[simp] theorem newPixelResult_prev (cur : Pixel) (s : State) :
    (newPixelResult cur s).prev = s.prev := by
  simp [newPixelResult]

@[simp] theorem newPixelResult_run (cur : Pixel) (s : State) :
    (newPixelResult cur s).run = 0#6 := by
  simp [newPixelResult]

@[simp] theorem newPixelResult_pix (cur : Pixel) (s : State) :
    (newPixelResult cur s).pix = s.pix := by
  simp [newPixelResult]

@[simp] theorem newPixelResult_pos (cur : Pixel) (s : State) :
    (newPixelResult cur s).pos = s.pos := by
  simp [newPixelResult]

@[simp] theorem newPixelResult_mem (cur : Pixel) (s : State) :
    (newPixelResult cur s).mem = s.mem.writeList (s.outBase + s.outLen) (s.pendingRun ++ encode (tierInstr cur s)) := by
  simp [newPixelResult]

@[simp] theorem newPixelResult_params (cur : Pixel) (s : State) :
    (newPixelResult cur s).params = s.params := by
  simp [newPixelResult]

@[simp] theorem newPixelResult_hdrStep (cur : Pixel) (s : State) :
    (newPixelResult cur s).hdrStep = s.hdrStep := by
  simp [newPixelResult]

@[simp] theorem newPixelResult_host (cur : Pixel) (s : State) :
    (newPixelResult cur s).host = s.host := by
  simp [newPixelResult]

@[simp] theorem newPixelResult_answer (cur : Pixel) (s : State) :
    (newPixelResult cur s).answer = s.answer := by
  simp [newPixelResult]
@[simp] theorem newPixelResult_unread (cur : Pixel) (s : State) :
    (newPixelResult cur s).unread = s.unread := by
  simp [newPixelResult]

@[simp] theorem newPixelResult_free (cur : Pixel) (s : State) :
    (newPixelResult cur s).free = s.free := by
  simp [newPixelResult]

@[simp] theorem newPixelResult_cache (cur : Pixel) (s : State) :
    (newPixelResult cur s).cache = (tierCache cur s).cache := by
  simp [newPixelResult]

/-- What a pixel that differs from `prev` appends. -/
theorem newPixelResult_appended (cur : Pixel) (s : State) :
    Appended s (newPixelResult cur s) (s.pendingRun ++ encode (tierInstr cur s)) :=
  (s.withOutput_appended _).congr_right (by simp) (by simp) (by simp)

theorem cacheHit_flushed (cur : Pixel) (s : State) (bs : List Byte) :
    ((s.withOutput bs).setRun 0#6).cacheHit cur = s.cacheHit cur := rfl

/-- The choice reads nothing a flush of the run writes. -/
theorem tierInstr_flushed (cur : Pixel) (s : State) (bs : List Byte) :
    tierInstr cur ((s.withOutput bs).setRun 0#6) = tierInstr cur s := by
  unfold tierInstr
  rw [cacheHit_flushed, State.setRun_prev, State.withOutput_prev]

theorem tierCache_flushed (cur : Pixel) (s : State) (bs : List Byte) :
    tierCache cur ((s.withOutput bs).setRun 0#6) = ((tierCache cur s).withOutput bs).setRun 0#6 := by
  unfold tierCache
  rw [cacheHit_flushed]
  split <;> rfl

theorem encPixel_new {cur : Pixel} {s : State} (hne : cur ≠ s.prev)
    (h : s.fits (s.pendingRun.length + (encode (tierInstr cur s)).length)) :
    encPixel cur s = some (newPixelResult cur s) := by
  unfold State.fits at h
  rw [encPixel, if_neg hne, runFlush_fits (by unfold State.fits; omega)]
  simp only
  rw [encCachedOrMiss_eq, tierInstr_flushed, tierCache_flushed, emit, State.outAppendAll_fits]
  · rw [newPixelResult, ← State.withOutput_append]
    rfl
  · simp only [State.fits, State.setRun_outLen, State.setRun_outCapacity, State.withOutput_outLen,
      State.withOutput_outCapacity, tierCache_outLen, tierCache_outCapacity]
    omega

theorem encPixel_new_stuck {cur : Pixel} {s : State} (hne : cur ≠ s.prev)
    (h : ¬ s.fits (s.pendingRun.length + (encode (tierInstr cur s)).length)) : encPixel cur s = none := by
  unfold State.fits at h
  rw [encPixel, if_neg hne]
  by_cases hp : s.fits s.pendingRun.length
  · rw [runFlush_fits hp]
    simp only
    rw [encCachedOrMiss_eq, tierInstr_flushed, tierCache_flushed, emit, State.outAppendAll_overflow (encode_ne_nil _)]
    simp only [State.fits, State.setRun_outLen, State.setRun_outCapacity, State.withOutput_outLen,
      State.withOutput_outCapacity, tierCache_outLen, tierCache_outCapacity]
    omega
  · by_cases hr : s.run = 0#6
    · rw [pendingRun_of_zero hr] at hp
      rw [runFlush, if_pos hr]
      simp only
      rw [encCachedOrMiss_eq, emit, State.outAppendAll_overflow (encode_ne_nil _)]
      simp only [State.fits, tierCache_outLen, tierCache_outCapacity]
      rw [pendingRun_of_zero hr] at h
      simp only [List.length_nil] at h
      omega
    · rw [runFlush_stuck hp hr]

/-- The RUN byte a run of `run + 1` pixels emits (R175). -/
def runByte (s : State) : Byte := 0xC0#8 ||| BitVec.ofNat 8 s.run.toNat

theorem runByte_eq : ∀ x : BitVec 6, x.toNat ≤ 61 →
    encode (.run (x + 1#6).toNat) = [0xC0#8 ||| BitVec.ofNat 8 x.toNat] := by decide

theorem run_succ : ∀ x : BitVec 6, x.toNat ≤ 61 → (x + 1#6).toNat = x.toNat + 1 := by decide

theorem encPixel_extend {cur : Pixel} {s : State} (he : cur = s.prev) (hr : s.run.toNat < 61)
    (hl : s.lastPixel = false) : encPixel cur s = some (s.setRun (s.run + 1#6)) := by
  have h1 : s.run + 1#6 ≠ 62#6 := by
    intro h
    have := run_succ s.run (by omega)
    rw [h] at this
    simp at this
    omega
  simp [encPixel, he, runDet, hl, h1]

theorem runDet_emits {s : State} {last : Bool} (hr : s.run.toNat ≤ 61) (hl : s.run.toNat = 61 ∨ last = true) :
    runDet last s = match s.outAppendAll [runByte s] with
      | some t => some (t.setRun 0#6)
      | none => none := by
  have h1 : (s.setRun (s.run + 1#6)).run = 62#6 ∨ last = true := by
    rcases hl with hl | hl
    · left
      apply BitVec.eq_of_toNat_eq
      simp [run_succ s.run hr, hl]
    · exact .inr hl
  unfold runDet
  simp only
  rw [if_pos h1]
  simp only [emitRun, emit, State.setRun_run, runByte_eq s.run hr]
  by_cases hf : s.fits 1
  · rw [State.outAppendAll_fits _ (show s.fits [runByte s].length from hf),
      State.outAppendAll_fits _ (show (s.setRun (s.run + 1#6)).fits [_].length from hf)]
    rfl
  · rw [State.outAppendAll_overflow (by simp) (show ¬ s.fits [runByte s].length from hf),
      State.outAppendAll_overflow (by simp) (show ¬ (s.setRun (s.run + 1#6)).fits [_].length from hf)]

theorem encPixel_emit {cur : Pixel} {s : State} (he : cur = s.prev) (hr : s.run.toNat ≤ 61)
    (hl : s.run.toNat = 61 ∨ s.lastPixel = true) (hf : s.fits 1) :
    encPixel cur s = some ((s.withOutput [runByte s]).setRun 0#6) := by
  rw [encPixel, if_pos he, runDet_emits hr hl, State.outAppendAll_fits _ hf]

/-- Everything one pixel can do: count, emit the run, or emit the pending run and the pixel's chunk. -/
theorem encPixel_cases {cur : Pixel} {s t : State} (hr : s.run.toNat ≤ 61) (h : encPixel cur s = some t) :
    (cur = s.prev ∧ s.run.toNat < 61 ∧ s.lastPixel = false ∧ t = s.setRun (s.run + 1#6))
      ∨ (cur = s.prev ∧ (s.run.toNat = 61 ∨ s.lastPixel = true) ∧ s.fits 1
          ∧ t = (s.withOutput [runByte s]).setRun 0#6)
      ∨ (cur ≠ s.prev ∧ s.fits (s.pendingRun.length + (encode (tierInstr cur s)).length)
          ∧ t = newPixelResult cur s) := by
  by_cases he : cur = s.prev
  · by_cases hl : s.run.toNat = 61 ∨ s.lastPixel = true
    · by_cases hf : s.fits 1
      · rw [encPixel_emit he hr hl hf] at h
        exact .inr (.inl ⟨he, hl, hf, (Option.some.inj h).symm⟩)
      · rw [encPixel, if_pos he, runDet_emits hr hl,
          State.outAppendAll_overflow (by simp) (show ¬ s.fits [runByte s].length from hf)] at h
        cases h
    · rw [not_or, Bool.not_eq_true] at hl
      rw [encPixel_extend he (by omega) hl.2] at h
      exact .inl ⟨he, by omega, hl.2, (Option.some.inj h).symm⟩
  · by_cases hf : s.fits (s.pendingRun.length + (encode (tierInstr cur s)).length)
    · rw [encPixel_new he hf] at h
      exact .inr (.inr ⟨he, hf, (Option.some.inj h).symm⟩)
    · rw [encPixel_new_stuck he hf] at h
      cases h

end Sys2Proof.Machine
end

