-- ==== Sys2Proof/Laws/Exec.lean ====
section
/-! SUPPORT. What a chunk can do, said once: it raises TruncatedStream, it is stuck on the output capacity, or it leaves one
closed-form state. -/

namespace Sys2Proof.Machine

/-- The pixel a chunk leaves in `prev`. -/
def chunkPixel (i : Instr) (s : State) : Pixel :=
  match i with
  | .rgb r g b => rgbPixel r g b s.prev
  | .rgba r g b a => ⟨r, g, b, a⟩
  | .index k => s.cacheRead k
  | .diff dr dg db => diffPixel dr dg db s.prev
  | .luma dg drOff dbOff => lumaPixel dg drOff dbOff s.prev
  | .run _ => s.prev

/-- The bytes a chunk appends. -/
def chunkBytes (i : Instr) (s : State) : List Byte :=
  match i with
  | .run n => runBytes s.channels s.prev n
  | i => pixelBytes s.channels (chunkPixel i s)

/-- The state with the cache as a chunk leaves it. -/
def chunkCache (i : Instr) (s : State) : State :=
  match i with
  | .index _ => s
  | .run _ => s
  | i => s.cacheUpdate (chunkPixel i s)

/-- The state a chunk leaves when it completes. -/
def chunkResult (i : Instr) (s : State) : State :=
  (((chunkCache i s).setPrev (chunkPixel i s)).withOutput (chunkBytes i s)).advancePos i.length

@[simp] theorem chunkResult_state (i : Instr) (s : State) : (chunkResult i s).state = s.state := by
  cases i <;> simp [chunkResult, chunkCache]
@[simp] theorem chunkResult_err (i : Instr) (s : State) : (chunkResult i s).err = s.err := by
  cases i <;> simp [chunkResult, chunkCache]
@[simp] theorem chunkResult_op (i : Instr) (s : State) : (chunkResult i s).op = s.op := by
  cases i <;> simp [chunkResult, chunkCache]
@[simp] theorem chunkResult_width (i : Instr) (s : State) : (chunkResult i s).width = s.width := by
  cases i <;> simp [chunkResult, chunkCache]
@[simp] theorem chunkResult_height (i : Instr) (s : State) : (chunkResult i s).height = s.height := by
  cases i <;> simp [chunkResult, chunkCache]
@[simp] theorem chunkResult_channels (i : Instr) (s : State) : (chunkResult i s).channels = s.channels := by
  cases i <;> simp [chunkResult, chunkCache]
@[simp] theorem chunkResult_colorspace (i : Instr) (s : State) : (chunkResult i s).colorspace = s.colorspace := by
  cases i <;> simp [chunkResult, chunkCache]
@[simp] theorem chunkResult_inBase (i : Instr) (s : State) : (chunkResult i s).inBase = s.inBase := by
  cases i <;> simp [chunkResult, chunkCache]
@[simp] theorem chunkResult_inLen (i : Instr) (s : State) : (chunkResult i s).inLen = s.inLen := by
  cases i <;> simp [chunkResult, chunkCache]
@[simp] theorem chunkResult_outBase (i : Instr) (s : State) : (chunkResult i s).outBase = s.outBase := by
  cases i <;> simp [chunkResult, chunkCache]
@[simp] theorem chunkResult_outCapacity (i : Instr) (s : State) : (chunkResult i s).outCapacity = s.outCapacity := by
  cases i <;> simp [chunkResult, chunkCache]
@[simp] theorem chunkResult_phase (i : Instr) (s : State) : (chunkResult i s).phase = s.phase := by
  cases i <;> simp [chunkResult, chunkCache]
@[simp] theorem chunkResult_run (i : Instr) (s : State) : (chunkResult i s).run = s.run := by
  cases i <;> simp [chunkResult, chunkCache]
@[simp] theorem chunkResult_pix (i : Instr) (s : State) : (chunkResult i s).pix = s.pix := by
  cases i <;> simp [chunkResult, chunkCache]
@[simp] theorem chunkResult_params (i : Instr) (s : State) : (chunkResult i s).params = s.params := by
  cases i <;> simp [chunkResult, chunkCache]
@[simp] theorem chunkResult_hdrStep (i : Instr) (s : State) : (chunkResult i s).hdrStep = s.hdrStep := by
  cases i <;> simp [chunkResult, chunkCache]
@[simp] theorem chunkResult_host (i : Instr) (s : State) : (chunkResult i s).host = s.host := by
  cases i <;> simp [chunkResult, chunkCache]
@[simp] theorem chunkResult_answer (i : Instr) (s : State) : (chunkResult i s).answer = s.answer := by
  cases i <;> simp [chunkResult, chunkCache]
@[simp] theorem chunkResult_unread (i : Instr) (s : State) : (chunkResult i s).unread = s.unread := by
  cases i <;> simp [chunkResult, chunkCache]
@[simp] theorem chunkResult_free (i : Instr) (s : State) : (chunkResult i s).free = s.free := by
  cases i <;> simp [chunkResult, chunkCache]

@[simp] theorem chunkResult_prev (i : Instr) (s : State) : (chunkResult i s).prev = chunkPixel i s := by
  simp [chunkResult]

@[simp] theorem chunkResult_pos (i : Instr) (s : State) : (chunkResult i s).pos = s.pos + i.length := by
  cases i <;> simp [chunkResult, chunkCache]

@[simp] theorem chunkResult_outLen (i : Instr) (s : State) :
    (chunkResult i s).outLen = s.outLen + (chunkBytes i s).length := by
  cases i <;> simp [chunkResult, chunkCache]

@[simp] theorem chunkResult_mem (i : Instr) (s : State) :
    (chunkResult i s).mem = s.mem.writeList (s.outBase + s.outLen) (chunkBytes i s) := by
  cases i <;> simp [chunkResult, chunkCache]

@[simp] theorem chunkResult_cache (i : Instr) (s : State) : (chunkResult i s).cache = (chunkCache i s).cache := by
  simp [chunkResult]

/-- What a completed chunk appends, and that it leaves every other byte. -/
theorem chunkResult_appended (i : Instr) (s : State) : Appended s (chunkResult i s) (chunkBytes i s) :=
  ((s.withOutput_appended (chunkBytes i s)).congr_right (by simp) (by simp) (by simp))

theorem exec_truncated {i : Instr} {s : State} (h : s.truncated i.length = true) :
    exec i s = .next (s.abort .truncatedStream) := by
  cases i <;> simp [exec, execRgb, execRgba, execIndex, execDiff, execLuma, execRun, chunkStep] <;>
    simp_all [Instr.length, Instr.kind, Kind.length]

theorem reconstruct_eq (p : Pixel) (s : State) :
    reconstruct p s = ((s.setPrev p).cacheUpdate p).outAppendAll (pixelBytes s.channels p) := rfl

theorem chunkStep_some {n : Nat} {f : State → Option State} {s t : State} (h : s.truncated n = false) (hf : f s = some t) :
    chunkStep n f s = .next (t.advancePos n) := by simp [chunkStep, h, hf]

theorem chunkStep_none {n : Nat} {f : State → Option State} {s : State} (h : s.truncated n = false) (hf : f s = none) :
    chunkStep n f s = .fault .outputStuck := by simp [chunkStep, h, hf]

theorem exec_completes {i : Instr} {s : State} (h : s.truncated i.length = false) (hf : s.fits (chunkBytes i s).length) :
    exec i s = .next (chunkResult i s) := by
  cases i with
  | run n =>
    exact chunkStep_some h (by rw [State.pixelOutRepeat_eq]; exact State.outAppendAll_fits _ hf)
  | index k =>
    exact chunkStep_some (f := fun s => (s.setPrev (s.cacheRead k)).pixelOut (s.cacheRead k)) h
      (State.outAppendAll_fits (s := s.setPrev (s.cacheRead k)) _ hf)
  | rgb r g b => exact chunkStep_some h (State.outAppendAll_fits (s := (s.setPrev _).cacheUpdate _) _ hf)
  | rgba r g b a => exact chunkStep_some h (State.outAppendAll_fits (s := (s.setPrev _).cacheUpdate _) _ hf)
  | diff dr dg db => exact chunkStep_some h (State.outAppendAll_fits (s := (s.setPrev _).cacheUpdate _) _ hf)
  | luma dg a b => exact chunkStep_some h (State.outAppendAll_fits (s := (s.setPrev _).cacheUpdate _) _ hf)

theorem exec_stuck {i : Instr} {s : State} (h : s.truncated i.length = false) (hb : chunkBytes i s ≠ [])
    (hf : ¬ s.fits (chunkBytes i s).length) : exec i s = .fault .outputStuck := by
  cases i with
  | run n => exact chunkStep_none h (by rw [State.pixelOutRepeat_eq]; exact State.outAppendAll_overflow hb hf)
  | index k =>
    exact chunkStep_none (f := fun s => (s.setPrev (s.cacheRead k)).pixelOut (s.cacheRead k)) h
      (State.outAppendAll_overflow (s := s.setPrev (s.cacheRead k)) hb hf)
  | rgb r g b => exact chunkStep_none h (State.outAppendAll_overflow (s := (s.setPrev _).cacheUpdate _) hb hf)
  | rgba r g b a => exact chunkStep_none h (State.outAppendAll_overflow (s := (s.setPrev _).cacheUpdate _) hb hf)
  | diff dr dg db => exact chunkStep_none h (State.outAppendAll_overflow (s := (s.setPrev _).cacheUpdate _) hb hf)
  | luma dg a b => exact chunkStep_none h (State.outAppendAll_overflow (s := (s.setPrev _).cacheUpdate _) hb hf)

/-- A chunk in the region, in a state within its capacity, completes or is stuck: it has no other stop. -/
theorem exec_total {i : Instr} {s : State} (ht : s.truncated i.length = false) (hc : s.outLen ≤ s.outCapacity) :
    (∃ t, exec i s = .next t) ∨ exec i s = .fault .outputStuck := by
  by_cases hf : s.fits (chunkBytes i s).length
  · exact .inl ⟨_, exec_completes ht hf⟩
  · by_cases hb : chunkBytes i s = []
    · exact absurd (show s.fits (chunkBytes i s).length by rw [hb]; exact hc) hf
    · exact .inr (exec_stuck ht hb hf)

/-- A chunk that lies in the chunk region and answers a next state answers `chunkResult`. -/
theorem exec_next {i : Instr} {s t : State} (h : s.truncated i.length = false) (he : exec i s = .next t) :
    t = chunkResult i s := by
  by_cases hf : s.fits (chunkBytes i s).length
  · rw [exec_completes h hf] at he
    cases he
    rfl
  · by_cases hb : chunkBytes i s = []
    · cases i with
      | run n =>
        have hr : s.pixelOutRepeat s.prev n = some (s.withOutput (chunkBytes (.run n) s)) := by
          rw [State.pixelOutRepeat_eq]
          change s.outAppendAll (chunkBytes (.run n) s) = _
          rw [hb, State.withOutput_nil]
          rfl
        have he' : chunkStep 1 (fun s => s.pixelOutRepeat s.prev n) s = .next t := he
        rw [chunkStep_some (n := 1) (f := fun s => s.pixelOutRepeat s.prev n) h hr] at he'
        cases he'
        rfl
      | rgb r g b => exact absurd hb (pixelBytes_ne_nil _ _)
      | rgba r g b a => exact absurd hb (pixelBytes_ne_nil _ _)
      | index k => exact absurd hb (pixelBytes_ne_nil _ _)
      | diff dr dg db => exact absurd hb (pixelBytes_ne_nil _ _)
      | luma dg a b => exact absurd hb (pixelBytes_ne_nil _ _)
    · rw [exec_stuck h hb hf] at he
      cases he

end Sys2Proof.Machine
end

