-- ==== Sys2Proof/Laws/Engine.lean ====
section
/-! SUPPORT. The step of the machine while the engine moves, position by position. -/

namespace Sys2Proof.Machine

/-- While the engine is to move, a step is one whole step of its operation. -/
theorem step_engine {s : State} (h : s.engineMoves) : step s = engineStep s := by
  simp [step, nextTurn, engineTurn, h.1, h.2]

theorem truncated_false {s : State} {n : Nat} (h : s.pos + n + 8 ≤ s.inLen) : s.truncated n = false := by
  unfold State.truncated footerLength
  exact decide_eq_false (by omega)

theorem truncated_true {s : State} {n : Nat} (h : s.inLen < s.pos + n + 8) : s.truncated n = true := by
  unfold State.truncated footerLength
  exact decide_eq_true h

theorem of_truncated_false {s : State} {n : Nat} (h : s.truncated n = false) : s.pos + n + 8 ≤ s.inLen := by
  unfold State.truncated footerLength at h
  have := of_decide_eq_false h
  omega

theorem chunksRemain_iff (s : State) : s.chunksRemain = true ↔ s.pos + 8 < s.inLen := by
  unfold State.chunksRemain footerLength
  exact decide_eq_true_iff

/-- The bytes a decoded chunk takes are as many as its tag byte says (R101). -/
theorem decode_length {bs rest : List Byte} {i : Instr} (h : decode bs = .ok (i, rest)) :
    ∃ b r, bs = b :: r ∧ bs.length = tagLength b + rest.length ∧ i.length = tagLength b := by
  cases bs with
  | nil => cases h
  | cons b bs =>
    refine ⟨b, bs, rfl, ?_⟩
    unfold decode at h
    unfold tagLength
    cases hk : kind b <;> simp only [hk] at h ⊢
    · split at h
      · cases h
        simp [Kind.length, Instr.length, Instr.kind]
        omega
      · cases h
    · split at h
      · cases h
        simp [Kind.length, Instr.length, Instr.kind]
        omega
      · cases h
    · cases h
      simp [Kind.length, Instr.length, Instr.kind]
      omega
    · cases h
      simp [Kind.length, Instr.length, Instr.kind, diffOf]
      omega
    · split at h
      · cases h
        simp [Kind.length, Instr.length, Instr.kind, lumaOf]
        omega
      · cases h
    · cases h
      simp [Kind.length, Instr.length, Instr.kind, runOf]
      omega

/-- As many bytes as the tag byte says always decode (R104). -/
theorem decode_total {b : Byte} {r : List Byte} (h : (b :: r).length = tagLength b) : ∃ i, decode (b :: r) = .ok (i, []) := by
  unfold decode
  unfold tagLength at h
  cases hk : kind b <;> simp only [hk, Kind.length] at h ⊢
  · match r, h with
    | [x, y, z], _ => exact ⟨_, rfl⟩
  · match r, h with
    | [x, y, z, w], _ => exact ⟨_, rfl⟩
  · match r, h with
    | [], _ => exact ⟨_, rfl⟩
  · match r, h with
    | [], _ => exact ⟨_, rfl⟩
  · match r, h with
    | [x], _ => exact ⟨_, rfl⟩
  · match r, h with
    | [], _ => exact ⟨_, rfl⟩

theorem tagLength_pos (b : Byte) : 1 ≤ tagLength b := by
  unfold tagLength
  cases kind b <;> decide

theorem readInBytes_cons {s : State} {k n : Nat} {b : Byte} {r : List Byte}
    (h : s.readInBytes k (n + 1) = some (b :: r)) : s.readIn k = some b ∧ s.readInBytes (k + 1) n = some r := by
  unfold State.readInBytes at h
  split at h
  · simp at h
    simp_all
  · cases h

theorem readInBytes_length {s : State} {k n : Nat} {bs : List Byte} (h : s.readInBytes k n = some bs) :
    bs.length = n := by
  induction n generalizing k bs with
  | zero =>
    simp [State.readInBytes] at h
    simp [h]
  | succ n ih =>
    unfold State.readInBytes at h
    split at h
    · rename_i hv hvs
      simp at h
      subst h
      simp [ih hvs]
    · cases h

/-- Bytes that can be read one by one can be read together. -/
theorem readInBytes_isSome {s : State} {k n : Nat} (h : ∀ j, j < n → (s.readIn (k + j)).isSome = true) :
    ∃ bs, s.readInBytes k n = some bs := by
  induction n generalizing k with
  | zero => exact ⟨[], rfl⟩
  | succ n ih =>
    obtain ⟨v, hv⟩ := Option.isSome_iff_exists.1 (by simpa using h 0 (by omega))
    obtain ⟨vs, hvs⟩ := ih (k := k + 1) (fun j hj => by
      have := h (j + 1) (by omega)
      rwa [show k + (j + 1) = k + 1 + j by omega] at this)
    exact ⟨v :: vs, by simp [State.readInBytes, hv, hvs]⟩

/-- Everything DSTEP can do (R223, R224). -/
theorem decStep_cases (s : State) :
    decStep s = .fault .noInputByte ∨ decStep s = .next (s.abort .truncatedStream)
      ∨ ∃ (bs : List Byte) (i : Instr), s.readInBytes s.pos i.length = some bs ∧ decode bs = .ok (i, [])
          ∧ s.truncated i.length = false ∧ decStep s = exec i s := by
  unfold decStep
  cases hb : s.readIn s.pos with
  | none => exact .inl rfl
  | some b =>
    simp only
    cases ht : s.truncated (tagLength b) with
    | true => exact .inr (.inl (by simp))
    | false =>
      simp only [Bool.false_eq_true, if_false]
      unfold State.fetchChunk
      cases hr : s.readInBytes s.pos (tagLength b) with
      | none => exact .inl rfl
      | some bs =>
        have hl := readInBytes_length hr
        cases bs with
        | nil =>
          have := tagLength_pos b
          simp at hl
          omega
        | cons b' r =>
          have hl' : tagLength b = r.length + 1 := by simpa using hl.symm
          have hb' : b' = b := by
            rw [hl'] at hr
            have := (readInBytes_cons hr).1
            rw [hb] at this
            exact (Option.some.inj this).symm
          subst hb'
          obtain ⟨i, hi⟩ := decode_total hl
          have hil : i.length = tagLength b' := by
            obtain ⟨b2, r2, h1, h2, h3⟩ := decode_length hi
            cases h1
            exact h3
          refine .inr (.inr ⟨b' :: r, i, ?_, hi, ?_, ?_⟩)
          · rw [hil]
            exact hr
          · rw [hil]
            exact ht
          · simp [hi]

/-- Everything ENCSTEP can do (R174). -/
theorem encStep_cases {s t : State} (h : encStep s = .next t) :
    s.pix < s.npix ∧ ∃ cur u, s.fetchPixel s.pix = some cur ∧ encPixel cur s = some u ∧ t = advancePixel cur u := by
  unfold encStep at h
  split at h
  · rename_i hx
    refine ⟨hx, ?_⟩
    split at h
    · cases h
    · rename_i cur hc
      split at h
      · rename_i u hu
        cases h
        exact ⟨cur, u, hc, hu, rfl⟩
      · cases h
  · cases h

/-- Everything HEADER_PARSE can do (R131). -/
theorem headerParse_cases {s t : State} (h : headerParse s = .next t) :
    (∃ e, e ≠ .noError ∧ t = s.abort e)
      ∨ ∃ w hh ch cs, legalChannels ch = true ∧ legalColorspace cs = true
          ∧ t = enterDecodeBody (s.setHeader w hh ch cs) := by
  have hp : ∀ {t}, parseFields s = .next t → (∃ e, e ≠ .noError ∧ t = s.abort e)
      ∨ ∃ w hh ch cs, legalChannels ch = true ∧ legalColorspace cs = true
          ∧ t = enterDecodeBody (s.setHeader w hh ch cs) := by
    intro t h
    unfold parseFields at h
    split at h
    · cases h
    · rename_i ch _
      split at h
      · cases h
        exact .inl ⟨_, by decide, rfl⟩
      · rename_i hch
        split at h
        · cases h
        · rename_i cs _
          split at h
          · cases h
            exact .inl ⟨_, by decide, rfl⟩
          · rename_i hcs
            unfold parseSizes at h
            split at h
            · cases h
              exact .inr ⟨_, _, ch, cs, by simpa using hch, by simpa using hcs, rfl⟩
            · cases h
  unfold headerParse at h
  split at h
  · split at h
    · cases h
    · split at h
      · exact hp h
      · cases h
        exact .inl ⟨_, by decide, rfl⟩
  · exact hp h

/-- The moves the engine has, one constructor for each whole step of R298 and each of its ways to end. -/
inductive EngineMove (s : State) : State → Prop where
  | opInit (hp : s.phase = .hdr) (hh : s.hdrStep = .opInit) : EngineMove s (opInit s)
  | encCheckFails (hp : s.phase = .hdr) (hh : s.hdrStep = .check) (ho : s.op = .encode) (e : Err) (he : e ≠ .noError) :
      EngineMove s (s.abort e)
  | encCheckPasses (hp : s.phase = .hdr) (hh : s.hdrStep = .check) (ho : s.op = .encode) (hc : s.encodeChecked) :
      EngineMove s { s with hdrStep := .header }
  | decCheckFails (hp : s.phase = .hdr) (hh : s.hdrStep = .check) (ho : s.op = .decode) :
      EngineMove s (s.abort .truncatedStream)
  | decCheckPasses (hp : s.phase = .hdr) (hh : s.hdrStep = .check) (ho : s.op = .decode)
      (hl : headerLength + footerLength ≤ s.inLen) : EngineMove s { s with hdrStep := .header }
  | headerEmit (hp : s.phase = .hdr) (hh : s.hdrStep = .header) (ho : s.op = .encode) (hf : s.fits 14) :
      EngineMove s (enterEncodeBody (s.withOutput s.headerBytes))
  | headerFails (hp : s.phase = .hdr) (hh : s.hdrStep = .header) (ho : s.op = .decode) (e : Err) (he : e ≠ .noError) :
      EngineMove s (s.abort e)
  | headerParse (hp : s.phase = .hdr) (hh : s.hdrStep = .header) (ho : s.op = .decode) (w h : Word32) (ch cs : Byte)
      (hch : legalChannels ch = true) (hcs : legalColorspace cs = true) :
      EngineMove s (enterDecodeBody (s.setHeader w h ch cs))
  | pixel (hp : s.phase = .body) (ho : s.op = .encode) (hx : s.pix < s.npix) (cur : Pixel) (u : State)
      (hc : s.fetchPixel s.pix = some cur) (hu : encPixel cur s = some u) : EngineMove s (advancePixel cur u)
  | truncated (hp : s.phase = .body) (ho : s.op = .decode) (hr : s.chunksRemain = true) :
      EngineMove s (s.abort .truncatedStream)
  | chunk (hp : s.phase = .body) (ho : s.op = .decode) (hr : s.chunksRemain = true) (bs : List Byte) (i : Instr)
      (hb : s.readInBytes s.pos i.length = some bs) (hd : decode bs = .ok (i, []))
      (ht : s.truncated i.length = false)
      (hx : exec i s = .next (chunkResult i s)) : EngineMove s (chunkResult i s)
  | stop (hp : s.phase = .body) (ho : s.op = .decode) (hr : s.chunksRemain = false) : EngineMove s s.complete
  | footer (hp : s.phase = .ftr) (ho : s.op = .encode) (hf : s.fits 8) :
      EngineMove s (s.withOutput footerBytes).complete

/-- Everything the engine can do: a step that answers a next state is one of its moves. -/
theorem engineMove_of_step {s t : State} (h : engineStep s = .next t) : EngineMove s t := by
  unfold engineStep at h
  cases hp : s.phase <;> cases ho : s.op <;> simp only [hp, ho] at h
  · unfold headerPhase at h
    cases hh : s.hdrStep <;> simp only [hh, ho] at h
    · cases h
      exact .opInit hp hh
    · cases h
      unfold encValid
      split
      · exact .encCheckFails hp hh ho _ (by decide)
      · rename_i h1
        split
        · exact .encCheckFails hp hh ho _ (by decide)
        · rename_i h2
          split
          · exact .encCheckFails hp hh ho _ (by decide)
          · rename_i h3
            exact .encCheckPasses hp hh ho ⟨⟨by simpa using h1, by simpa using h2⟩, by simpa using h3⟩
    · unfold Machine.headerEmit at h
      split at h
      · rename_i u hu
        cases h
        obtain ⟨rfl, hf⟩ := State.outAppendAll_some hu
        rw [State.headerBytes_length] at hf
        rcases hf with hf | hf
        · have := congrArg List.length hf
          rw [State.headerBytes_length] at this
          cases this
        · exact .headerEmit hp hh ho hf
      · cases h
  · unfold headerPhase at h
    cases hh : s.hdrStep <;> simp only [hh, ho] at h
    · cases h
      exact .opInit hp hh
    · cases h
      unfold decValid
      split
      · exact .decCheckFails hp hh ho
      · exact .decCheckPasses hp hh ho (by omega)
    · rcases headerParse_cases h with ⟨e, he, rfl⟩ | ⟨w, g, ch, cs, h1, h2, rfl⟩
      · exact .headerFails hp hh ho e he
      · exact .headerParse hp hh ho w g ch cs h1 h2
  · obtain ⟨hx, cur, u, hc, hu, rfl⟩ := encStep_cases h
    exact .pixel hp ho hx cur u hc hu
  · unfold decodeBody at h
    split at h
    · rename_i hr
      rcases decStep_cases s with hf | ha | ⟨bs, i, hb, hd, ht, he⟩
      · rw [hf] at h
        cases h
      · rw [ha] at h
        cases h
        exact .truncated hp ho hr
      · rw [he] at h
        have ht' := exec_next ht h
        subst ht'
        exact .chunk hp ho hr bs i hb hd ht h
    · rename_i hr
      cases h
      exact .stop hp ho (by simpa using hr)
  · unfold footerEmit at h
    split at h
    · rename_i u hu
      cases h
      obtain ⟨rfl, hf⟩ := State.outAppendAll_some hu
      rcases hf with hf | hf
      · cases hf
      · exact .footer hp ho hf
    · cases h
  · cases h

end Sys2Proof.Machine
end

