-- ==== Sys2Proof/Laws/Codec.lean ====
section
/-! SUPPORT. The codec as functions of lists: the chunks ENCODE emits for a list of pixels,
    the bytes DECODE appends for a
list of chunks, that the second undoes the first, and how long the encoding gets. -/

namespace Sys2Proof.Machine

/-- Adding a delta back gives the channel it was taken of (R8, R179, R229). -/
theorem wrapAdd_signedDelta (c p : Byte) : wrapAdd p (signedDelta c p) = c := by
  unfold wrapAdd signedDelta
  rw [BitVec.ofInt_add, BitVec.ofInt_natCast, BitVec.ofInt_toInt, BitVec.ofNat_toNat, BitVec.setWidth_eq]
  rw [BitVec.add_comm, BitVec.sub_add_cancel]

/-- Everything the choice of R174 can be, with the cache it leaves. -/
theorem tierInstr_cases (cur : Pixel) (s : State) :
    (s.cacheRead (pixelHash cur) = cur ∧ tierInstr cur s = .index (pixelHash cur) ∧ tierCache cur s = s)
    ∨ (s.cacheRead (pixelHash cur) ≠ cur ∧ tierCache cur s = s.cacheUpdate cur ∧
       ((cur.a ≠ s.prev.a ∧ tierInstr cur s = .rgba cur.r cur.g cur.b cur.a)
        ∨ (cur.a = s.prev.a ∧ tierInstr cur s = .rgb cur.r cur.g cur.b)
        ∨ (cur.a = s.prev.a ∧ diffOk (signedDelta cur.r s.prev.r) (signedDelta cur.g s.prev.g)
            (signedDelta cur.b s.prev.b) = true
            ∧ tierInstr cur s = .diff (signedDelta cur.r s.prev.r) (signedDelta cur.g s.prev.g)
                (signedDelta cur.b s.prev.b))
        ∨ (cur.a = s.prev.a ∧ lumaOk (signedDelta cur.r s.prev.r) (signedDelta cur.g s.prev.g)
            (signedDelta cur.b s.prev.b) = true
            ∧ tierInstr cur s = .luma (signedDelta cur.g s.prev.g)
                (signedDelta cur.r s.prev.r - signedDelta cur.g s.prev.g)
                (signedDelta cur.b s.prev.b - signedDelta cur.g s.prev.g)))) := by
  unfold tierInstr tierCache
  by_cases hh : s.cacheHit cur = true
  · rw [if_pos hh, if_pos hh]
    exact .inl ⟨by simpa [State.cacheHit] using hh, rfl, rfl⟩
  · rw [if_neg hh, if_neg hh]
    refine .inr ⟨by simpa [State.cacheHit] using hh, rfl, ?_⟩
    by_cases ha : cur.a = s.prev.a
    · rw [if_pos ha]
      by_cases hd : diffOk (signedDelta cur.r s.prev.r) (signedDelta cur.g s.prev.g) (signedDelta cur.b s.prev.b) = true
      · rw [if_pos hd]
        exact .inr (.inr (.inl ⟨ha, hd, rfl⟩))
      · rw [if_neg hd]
        by_cases hl : lumaOk (signedDelta cur.r s.prev.r) (signedDelta cur.g s.prev.g)
            (signedDelta cur.b s.prev.b) = true
        · rw [if_pos hl]
          exact .inr (.inr (.inr ⟨ha, hl, rfl⟩))
        · rw [if_neg hl]
          exact .inr (.inl ⟨ha, rfl⟩)
    · rw [if_neg ha]
      exact .inl ⟨ha, rfl⟩

/-- The chunk ENCSTEP chooses is well formed. -/
theorem tierInstr_wellFormed (cur : Pixel) (s : State) : wellFormed (tierInstr cur s) = true := by
  rcases tierInstr_cases cur s with ⟨_, h, _⟩ | ⟨_, _, ⟨_, h⟩ | ⟨_, h⟩ | ⟨_, hd, h⟩ | ⟨_, hd, h⟩⟩ <;> rw [h] <;> try rfl
  · exact hd
  · simp only [lumaOk, Bool.and_eq_true, inLumaOffsetRange] at hd
    simp only [wellFormed, lumaGreenOk, lumaOffsetOk, Bool.and_eq_true]
    exact ⟨⟨hd.1.1, hd.1.2⟩, hd.2⟩

/-- Executed over the encoder's cache and `prev`, the chosen chunk gives the pixel back. -/
theorem chunkPixel_tier {cur : Pixel} {s d : State} (hc : d.cache = s.cache) (hp : d.prev = s.prev) :
    chunkPixel (tierInstr cur s) d = cur := by
  have hr : ∀ i, d.cacheRead i = s.cacheRead i := by intro i; simp [State.cacheRead, hc]
  rcases tierInstr_cases cur s with ⟨h0, h, _⟩ | ⟨_, _, ⟨_, h⟩ | ⟨ha, h⟩ | ⟨ha, hd, h⟩ | ⟨ha, hd, h⟩⟩ <;> rw [h]
  · simp only [chunkPixel, hr, h0]
  · rfl
  · simp [chunkPixel, rgbPixel, hp, ← ha]
  · simp [chunkPixel, diffPixel, hp, wrapAdd_signedDelta, ← ha]
  · simp [chunkPixel, lumaPixel, hp, wrapAdd_signedDelta, ← ha]

/-- ... and appends that pixel's bytes. -/
theorem chunkBytes_tier {cur : Pixel} {s d : State} (hc : d.cache = s.cache) (hp : d.prev = s.prev) :
    chunkBytes (tierInstr cur s) d = pixelBytes d.channels cur := by
  have h0 := chunkPixel_tier (cur := cur) hc hp
  generalize hi : tierInstr cur s = i at *
  cases i <;> try (simp only [chunkBytes, h0])
  rcases tierInstr_cases cur s with ⟨_, h, _⟩ | ⟨_, _, ⟨_, h⟩ | ⟨ha, h⟩ | ⟨ha, hd, h⟩ | ⟨ha, hd, h⟩⟩ <;>
      rw [h] at hi <;> cases hi

/-- ... and leaves the encoder's cache (R158). -/
theorem chunkCache_tier {cur : Pixel} {s d : State} (hc : d.cache = s.cache) (hp : d.prev = s.prev) :
    (chunkCache (tierInstr cur s) d).cache = (tierCache cur s).cache := by
  have h0 := chunkPixel_tier (cur := cur) hc hp
  rcases tierInstr_cases cur s with ⟨_, h, h1⟩ | ⟨_, h1, ⟨_, h⟩ | ⟨ha, h⟩ | ⟨ha, hd, h⟩ | ⟨ha, hd, h⟩⟩ <;>
      rw [h] at h0 ⊢ <;> rw [h1] <;>
    simp [chunkCache, h0, hc]

/-- The chunks ENCODE emits for a list of pixels from the working values `cache`, `prev` and `run` of `s`. -/
def encChunks : List Pixel → State → List Instr
  | [], _ => []
  | cur :: rest, s =>
    if cur = s.prev then
      if s.run.toNat = 61 ∨ rest = [] then .run (s.run.toNat + 1) :: encChunks rest (s.setRun 0#6)
      else encChunks rest (s.setRun (s.run + 1#6))
    else
      (if s.run = 0#6 then [] else [.run s.run.toNat])
        ++ tierInstr cur s :: encChunks rest (((tierCache cur s).setPrev cur).setRun 0#6)

/-- The choice depends on the cache and `prev` alone. -/
theorem tierInstr_congr {s t : State} (hc : t.cache = s.cache) (hp : t.prev = s.prev)
    (cur : Pixel) : tierInstr cur t = tierInstr cur s := by
  have : t.cacheHit cur = s.cacheHit cur := by unfold State.cacheHit State.cacheRead; rw [hc]
  unfold tierInstr
  rw [this, hp]

/-- The cache it leaves depends on the cache alone. -/
theorem tierCache_congr {s t : State} (hc : t.cache = s.cache) (cur : Pixel) : (tierCache cur t).cache =
    (tierCache cur s).cache := by
  have : t.cacheHit cur = s.cacheHit cur := by unfold State.cacheHit State.cacheRead; rw [hc]
  unfold tierCache
  rw [this]
  split <;> simp [hc]

/-- The chunks depend on the cache, `prev` and `run` alone. -/
theorem encChunks_congr (ps : List Pixel) {s t : State} (hc : t.cache = s.cache) (hp : t.prev = s.prev)
    (hr : t.run = s.run) :
    encChunks ps t = encChunks ps s := by
  induction ps generalizing s t with
  | nil => rfl
  | cons cur rest ih =>
    unfold encChunks
    rw [hp, hr, tierInstr_congr hc hp]
    rw [ih (s := s.setRun 0#6) (t := t.setRun 0#6) hc hp rfl, ih (s := s.setRun (s.run + 1#6)) (t := t.setRun
        (s.run + 1#6)) hc hp rfl]
    rw [ih (s := ((tierCache cur s).setPrev cur).setRun 0#6) (t := ((tierCache cur t).setPrev cur).setRun 0#6)
        (by simp [tierCache_congr hc]) (by simp) (by simp)]

/-- The bytes of a list of chunks. -/
def encodeAll (cs : List Instr) : List Byte := cs.flatMap encode
/-- The bytes DECODE appends for a list of chunks. -/
def chunksBytes : List Instr → State → List Byte
  | [], _ => []
  | i :: cs, d => chunkBytes i d ++ chunksBytes cs (chunkResult i d)

/-- A run of no pixels. -/
theorem runBytes_zero (ch : Byte) (p : Pixel) : runBytes ch p 0 = [] := rfl
/-- One pixel more at a run's end. -/
theorem runBytes_succ (ch : Byte) (p : Pixel) (n : Nat) : runBytes ch p (n+1) = runBytes ch p n ++ pixelBytes ch p := by
  simp [runBytes, List.replicate_succ', List.flatten_append]

/-- Decoding the chunks of a list of pixels gives the pending run and those pixels back. -/
theorem chunksBytes_encChunks (ps : List Pixel) {s d : State} (hc : d.cache = s.cache) (hp : d.prev = s.prev)
    (hr : s.run.toNat ≤ 61)
    (hne : ps = [] → s.run = 0#6) :
    chunksBytes (encChunks ps s) d = runBytes d.channels s.prev s.run.toNat ++ ps.flatMap (pixelBytes d.channels) := by
  induction ps generalizing s d with
  | nil => simp [encChunks, chunksBytes, hne rfl, runBytes_zero]
  | cons cur rest ih =>
    unfold encChunks
    by_cases h0 : cur = s.prev
    · rw [if_pos h0]
      by_cases h1 : s.run.toNat = 61 ∨ rest = []
      · rw [if_pos h1]
        simp only [chunksBytes]
        rw [ih (s := s.setRun 0#6)]
        · simp [chunkBytes, hp, runBytes_succ, runBytes_zero, h0, chunkResult_channels]
        · simp [chunkCache, hc]
        · simp [chunkPixel, hp]
        · simp
        · intro _; simp
      · rw [if_neg h1]
        have h2 : s.run.toNat < 61 := by omega
        rw [ih (s := s.setRun (s.run + 1#6)) hc hp]
        · have h3 : (s.setRun (s.run + 1#6)).run.toNat = s.run.toNat + 1 := run_succ _ hr
          rw [h3, runBytes_succ]
          simp [h0]
        · have h3 : (s.setRun (s.run + 1#6)).run.toNat = s.run.toNat + 1 := run_succ _ hr
          omega
        · intro h; exact absurd (.inr h) h1
    · rw [if_neg h0]
      by_cases h1 : s.run = 0#6
      · rw [if_pos h1]
        simp only [List.nil_append, chunksBytes]
        rw [ih (s := ((tierCache cur s).setPrev cur).setRun 0#6)]
        · simp [chunkBytes_tier hc hp, h1, runBytes_zero]
        · simp [chunkCache_tier hc hp]
        · simp [chunkPixel_tier hc hp]
        · simp
        · intro _; simp
      · rw [if_neg h1]
        have hc' : (chunkResult (.run s.run.toNat) d).cache = s.cache := by simp [chunkCache, hc]
        have hp' : (chunkResult (.run s.run.toNat) d).prev = s.prev := by simp [chunkPixel, hp]
        simp only [List.cons_append, List.nil_append, chunksBytes]
        rw [ih (s := ((tierCache cur s).setPrev cur).setRun 0#6)]
        · rw [chunkBytes_tier hc' hp']
          simp [chunkBytes, hp, runBytes_zero]
        · simp [chunkCache_tier hc' hp']
        · simp [chunkPixel_tier hc' hp']
        · simp
        · intro _; simp

/-- Every chunk ENCODE emits is well formed. -/
theorem encChunks_wellFormed (ps : List Pixel) {s : State} (hr : s.run.toNat ≤ 61) : ∀ i ∈ encChunks ps s,
    wellFormed i = true := by
  induction ps generalizing s with
  | nil => simp [encChunks]
  | cons cur rest ih =>
    unfold encChunks
    have hz : ∀ u : State, u.run = 0#6 → u.run.toNat ≤ 61 := by intro u h; simp [h]
    by_cases h0 : cur = s.prev
    · rw [if_pos h0]
      by_cases h1 : s.run.toNat = 61 ∨ rest = []
      · rw [if_pos h1]
        intro i hi
        rcases List.mem_cons.1 hi with rfl | hi
        · simp [wellFormed, runLengthOk]; omega
        · exact ih (hz _ rfl) i hi
      · rw [if_neg h1]
        apply ih
        have h3 : (s.setRun (s.run + 1#6)).run.toNat = s.run.toNat + 1 := run_succ _ hr
        omega
    · rw [if_neg h0]
      intro i hi
      rcases List.mem_append.1 hi with hi | hi
      · split at hi
        · cases hi
        · rename_i h1
          have h2 : s.run.toNat ≠ 0 := fun h => h1 (BitVec.eq_of_toNat_eq (by simp [h]))
          simp at hi; subst hi
          simp [wellFormed, runLengthOk]; omega
      · rcases List.mem_cons.1 hi with rfl | hi
        · exact tierInstr_wellFormed _ _
        · exact ih (hz _ rfl) i hi

/-- A chunk is at most one byte longer than the raw pixel. -/
theorem tier_length {cur : Pixel} {s : State} {ch : Byte} (hch : ch = 3#8 ∨ ch = 4#8) (ha : ch = 3#8 →
    cur.a = s.prev.a) :
    (encode (tierInstr cur s)).length ≤ ch.toNat + 1 := by
  rcases tierInstr_cases cur s with ⟨h0, h, _⟩ | ⟨_, _, ⟨hn, h⟩ | ⟨ha, h⟩ | ⟨ha, hd, h⟩ | ⟨ha, hd, h⟩⟩ <;> rw [h] <;>
    rcases hch with rfl | rfl <;> simp [encode] at * <;> exact absurd ha hn

/-- The bound of R68 on the chunk region. -/
theorem encChunks_length (ps : List Pixel) {s : State} {ch : Byte} (hch : ch = 3#8 ∨ ch = 4#8)
    (ha : ch = 3#8 → s.prev.a = 255#8 ∧ ∀ p ∈ ps, p.a = 255#8) :
    (encodeAll (encChunks ps s)).length ≤ ps.length * (ch.toNat + 1) + s.pendingRun.length := by
  have h3 : 1 ≤ ch.toNat := by rcases hch with rfl | rfl <;> decide
  induction ps generalizing s with
  | nil => simp [encChunks, encodeAll]
  | cons cur rest ih =>
    unfold encChunks
    have hpr := pendingRun_length_le
    have hz : (s.setRun 0#6).pendingRun = [] := pendingRun_of_zero rfl
    have hmul : (rest.length + 1) * (ch.toNat + 1) = rest.length * (ch.toNat + 1) + ch.toNat + 1 := by ring
    by_cases h0 : cur = s.prev
    · rw [if_pos h0]
      by_cases h1 : s.run.toNat = 61 ∨ rest = []
      · rw [if_pos h1]
        have := ih (s := s.setRun 0#6) (fun h => ⟨(ha h).1, fun p hp => (ha h).2 p (.tail _ hp)⟩)
        rw [hz] at this
        simp only [encodeAll, List.flatMap_cons, List.length_append, List.length_cons, encode] at this ⊢
        simp at this ⊢
        omega
      · rw [if_neg h1]
        have := ih (s := s.setRun (s.run + 1#6)) (fun h => ⟨(ha h).1, fun p hp => (ha h).2 p (.tail _ hp)⟩)
        have h4 := hpr (s.setRun (s.run + 1#6))
        simp only [List.length_cons]
        omega
    · rw [if_neg h0]
      have := ih (s := ((tierCache cur s).setPrev cur).setRun 0#6) (fun h => ⟨(ha h).2 cur (by simp), fun p hp =>
          (ha h).2 p (.tail _ hp)⟩)
      rw [pendingRun_of_zero (by simp)] at this
      have h5 := tier_length (cur := cur) (s := s) hch (fun h => by rw [(ha h).1, (ha h).2 cur (by simp)])
      have h6 : (encodeAll (if s.run = 0#6 then [] else [Instr.run s.run.toNat])).length = s.pendingRun.length := by
        unfold State.pendingRun
        split <;> rfl
      simp only [encodeAll, List.flatMap_cons, List.flatMap_append, List.length_append, List.length_cons] at this h6 ⊢
      simp at this h6 ⊢
      omega

/-- The equation of `encChunks`, to rewrite once. -/
theorem encChunks_cons (cur : Pixel) (rest : List Pixel) (s : State) : encChunks (cur :: rest) s =
    if cur = s.prev then
      if s.run.toNat = 61 ∨ rest = [] then .run (s.run.toNat + 1) :: encChunks rest (s.setRun 0#6)
      else encChunks rest (s.setRun (s.run + 1#6))
    else
      (if s.run = 0#6 then [] else [.run s.run.toNat])
        ++ tierInstr cur s :: encChunks rest (((tierCache cur s).setPrev cur).setRun 0#6) := rfl

/-- No chunks, no bytes. -/
theorem encodeAll_nil : encodeAll [] = [] := rfl
/-- The bytes of the first chunk, then the rest. -/
theorem encodeAll_cons (i : Instr) (cs : List Instr) : encodeAll (i :: cs) = encode i ++ encodeAll cs := rfl
/-- The bytes of two lists of chunks. -/
theorem encodeAll_append (cs ds : List Instr) : encodeAll (cs ++ ds) = encodeAll cs ++ encodeAll ds :=
    List.flatMap_append

end Sys2Proof.Machine
end

