-- ==== Sys2Proof/Laws/Host.lean ====
section
/-! SUPPORT. The host: everything one of its accesses can do, everything one step of the machine can do, and that the bus
finds the register `CSR_MAP` places. -/

namespace Sys2Proof.Machine

/-- Every byte of the input has been placed exactly when each can be read. -/
theorem inputPresent_iff (s : State) : s.inputPresent = true ↔ s.inputPlaced := by
  simp [State.inputPresent, State.inputPlaced]

/-- The accesses of R36 and R60 that change the state, and what each leaves. -/
inductive Access (s : State) : State → Prop where
  | width (v : Word32) : Access s { s with width := v }
  | height (v : Word32) : Access s { s with height := v }
  | channels (v : Byte) : Access s { s with channels := v }
  | colorspace (v : Byte) : Access s { s with colorspace := v }
  | inBase (n : Nat) (h : s.addressExists n = true) : Access s { s with inBase := n }
  | inLen (n : Nat) : Access s { s with inLen := n }
  | outBase (n : Nat) (h : s.addressExists n = true) : Access s { s with outBase := n }
  | provide (n : Nat) : Access s { s with outCapacity := n }
  | place (a : Nat) (v : Byte) (h : s.addressExists a = true) : Access s { s with mem := s.mem.write a v }
  | answer (x : HostAnswer) : Access s { s with answer := x }
  | issue (op : Op) (hd : s.buffersDisjoint = true) (he : s.buffersExist = true) (hi : s.inputPlaced) :
      Access s (s.startOperation op)

theorem whenHostMay_next {s t : State} {o : Host.Outcome State Fault Refusal} (h : whenHostMay s o = .next t) :
    s.hostMayAccess ∧ o = .next t := by
  unfold whenHostMay at h
  split at h
  · cases h
  · rename_i hb
    split at h
    · cases h
    · rename_i hu
      exact ⟨⟨hb, by simpa using hu⟩, h⟩

theorem whenHostMay_of {s : State} (h : s.hostMayAccess) (o : Host.Outcome State Fault Refusal) : whenHostMay s o = o := by
  simp [whenHostMay, h.1, h.2]

theorem whenAddress_next {s t : State} {a : Nat} {o : Host.Outcome State Fault Refusal}
    (h : whenAddress s a o = .next t) : s.addressExists a = true ∧ o = .next t := by
  unfold whenAddress at h
  split at h
  · rename_i he
    exact ⟨he, h⟩
  · cases h

/-- Everything ISSUE can do (R265, R69, R293). -/
theorem issueCommand_next {s t : State} {op : Op} (h : issueCommand op s = .next t) :
    s.buffersDisjoint = true ∧ s.buffersExist = true ∧ s.inputPlaced ∧ t = s.startOperation op := by
  unfold issueCommand at h
  split at h
  · cases h
  · rename_i hd
    split at h
    · cases h
    · rename_i he
      split at h
      · cases h
      · rename_i hi
        cases h
        exact ⟨by simpa using hd, by simpa using he, (inputPresent_iff s).1 (by simpa using hi), rfl⟩

/-- Everything an action of the host can do: a poll, a reset, a turn of the engine, or an access of a host that may make
it. -/
theorem directMove_next {a : HostAct} {s t : State} (h : directMove a s = .next t) :
    (a = .readStatus ∧ t = readStatus s) ∨ (a = .powerOnReset ∧ t = s.powerOn)
      ∨ ((a = .tick ∨ a = .await) ∧ engineTurn s = .next t) ∨ (s.hostMayAccess ∧ Access s t) := by
  cases a with
  | readStatus =>
    cases h
    exact .inl ⟨rfl, rfl⟩
  | powerOnReset =>
    cases h
    exact .inr (.inl ⟨rfl, rfl⟩)
  | tick => exact .inr (.inr (.inl ⟨.inl rfl, h⟩))
  | await => exact .inr (.inr (.inl ⟨.inr rfl, h⟩))
  | writeWidth v =>
    obtain ⟨hm, h⟩ := whenHostMay_next h
    cases h
    exact .inr (.inr (.inr ⟨hm, .width v⟩))
  | writeHeight v =>
    obtain ⟨hm, h⟩ := whenHostMay_next h
    cases h
    exact .inr (.inr (.inr ⟨hm, .height v⟩))
  | writeChannels v =>
    obtain ⟨hm, h⟩ := whenHostMay_next h
    cases h
    exact .inr (.inr (.inr ⟨hm, .channels v⟩))
  | writeColorspace v =>
    obtain ⟨hm, h⟩ := whenHostMay_next h
    cases h
    exact .inr (.inr (.inr ⟨hm, .colorspace v⟩))
  | writeInBase n =>
    obtain ⟨hm, h⟩ := whenHostMay_next h
    obtain ⟨he, h⟩ := whenAddress_next h
    cases h
    exact .inr (.inr (.inr ⟨hm, .inBase n he⟩))
  | writeInLen n =>
    obtain ⟨hm, h⟩ := whenHostMay_next h
    cases h
    exact .inr (.inr (.inr ⟨hm, .inLen n⟩))
  | writeOutBase n =>
    obtain ⟨hm, h⟩ := whenHostMay_next h
    obtain ⟨he, h⟩ := whenAddress_next h
    cases h
    exact .inr (.inr (.inr ⟨hm, .outBase n he⟩))
  | provideOutput n =>
    obtain ⟨hm, h⟩ := whenHostMay_next h
    cases h
    exact .inr (.inr (.inr ⟨hm, .provide n⟩))
  | placeByte k v =>
    obtain ⟨hm, h⟩ := whenHostMay_next h
    unfold writeHostByte at h
    split at h
    · rename_i he
      cases h
      exact .inr (.inr (.inr ⟨hm, .place k v he⟩))
    · cases h
  | issue op =>
    obtain ⟨hm, h⟩ := whenHostMay_next h
    obtain ⟨hd, he, hi, rfl⟩ := issueCommand_next h
    exact .inr (.inr (.inr ⟨hm, .issue op hd he hi⟩))
  | readReg r =>
    obtain ⟨hm, h⟩ := whenHostMay_next h
    cases h
    exact .inr (.inr (.inr ⟨hm, .answer _⟩))
  | readByte k =>
    obtain ⟨hm, h⟩ := whenHostMay_next h
    unfold readHostByte at h
    split at h
    · split at h
      · cases h
        exact .inr (.inr (.inr ⟨hm, .answer _⟩))
      · cases h
    · cases h
  | busWrite k v =>
    obtain ⟨_, h⟩ := whenHostMay_next h
    cases h
  | busRead k =>
    obtain ⟨_, h⟩ := whenHostMay_next h
    cases h

/-- An access of the host that is neither a poll nor a reset nor standing back is denied while `BUSY`, and then until the
final `STATE` is read (R71, R266). -/
theorem directMove_denied {a : HostAct} {s : State} (h1 : a ≠ .readStatus) (h2 : a ≠ .powerOnReset) (h3 : a ≠ .tick)
    (h4 : a ≠ .await) :
    (s.state = .busy → directMove a s = .refused .hostAccessWhileBusy)
      ∧ (s.state ≠ .busy → s.unread = true → directMove a s = .refused .finalStatusUnread) := by
  cases a <;> simp_all [directMove, whenHostMay]

/-- With an action other than `await` pending, the step is that action. -/
theorem step_host {s : State} {a : HostAct} {rest : List HostAct} (h : s.host = a :: rest) (ha : a ≠ .await) :
    step s = hostMove a { s with host := rest } := by
  unfold step nextTurn
  rw [h]
  cases a <;> first | rfl | exact absurd rfl ha

/-- A bus access never stands for the model's own moves or a reset, and for a poll only at the address of `STATUS`. -/
theorem resolveBus_cases (m : CsrMap) (a : HostAct) :
    resolveBus m a = a
      ∨ ((∃ k v, a = .busWrite k v) ∨ ∃ k, a = .busRead k)
        ∧ resolveBus m a ≠ .powerOnReset ∧ resolveBus m a ≠ .tick ∧ resolveBus m a ≠ .await
        ∧ (resolveBus m a = .readStatus → ∃ k, a = .busRead k ∧ csrAt m k = some .status) := by
  cases a with
  | busWrite k v =>
    right
    refine ⟨.inl ⟨k, v, rfl⟩, ?_⟩
    unfold resolveBus
    cases hk : csrAt m k with
    | none => simp [hk]
    | some r =>
      simp only [hk, Option.bind_some]
      cases r <;> simp only [csrWrite] <;> (repeat' split) <;> simp
  | busRead k =>
    right
    refine ⟨.inr ⟨k, rfl⟩, ?_⟩
    unfold resolveBus
    cases hk : csrAt m k with
    | none => simp [hk]
    | some r =>
      simp only [hk, Option.bind_some]
      cases r <;> simp [csrRead, hk]
  | _ => exact .inl rfl

/-- Where each register has an address of its own, the bus finds it there. -/
theorem csrAt_addr {m : CsrMap} (h : csrDistinct m) (r : CsrReg) : csrAt m (csrAddr m r) = some r := by
  have hf : csrRegs.filter (fun q => decide (csrAddr m q = csrAddr m r)) = csrRegs.filter (fun q => decide (q = r)) :=
    List.filter_congr (fun q _ => decide_eq_decide.2 ⟨h q r, fun e => by rw [e]⟩)
  unfold csrAt
  rw [hf]
  cases r <;> rfl

/-- Where no register sits, the bus finds none. -/
theorem csrAt_none {m : CsrMap} {k : Nat} (h : ∀ r, csrAddr m r ≠ k) : csrAt m k = none := by
  have hf : csrRegs.filter (fun q => decide (csrAddr m q = k)) = [] := by
    simp [h]
  unfold csrAt
  rw [hf]

/-- Everything one step of the machine can do: a step of the engine with the host's list as it was or one turn shorter,
nothing, a poll (which also ends an `await`), a reset, or an access of a host that may make it. -/
theorem step_next {s t : State} (h : step s = .next t) :
    ∃ l, let u : State := { s with host := l }
      (s.state = .busy ∧ engineStep u = .next t) ∨ (s.state ≠ .busy ∧ t = u) ∨ t = readStatus u ∨ t = u.powerOn
        ∨ (u.hostMayAccess ∧ Access u t) := by
  have turn : ∀ {u : State}, engineTurn u = .next t → (u.state = .busy ∧ engineStep u = .next t) ∨ (u.state ≠ .busy ∧ t = u) := by
    intro u h
    unfold engineTurn at h
    split at h
    · rename_i hb
      exact .inl ⟨hb, h⟩
    · rename_i hb
      cases h
      exact .inr ⟨hb, rfl⟩
  cases hh : s.host with
  | nil =>
    refine ⟨s.host, ?_⟩
    have : engineTurn s = .next t := by
      unfold step nextTurn at h
      rw [hh] at h
      exact h
    rcases turn this with ht | ht
    · exact .inl ht
    · exact .inr (.inl ht)
  | cons a rest =>
    by_cases ha : a = .await
    · subst ha
      unfold step nextTurn at h
      rw [hh] at h
      simp only at h
      split at h
      · rename_i hb
        refine ⟨s.host, ?_⟩
        rcases turn h with ht | ht
        · exact .inl ht
        · exact .inr (.inl ht)
      · cases h
        exact ⟨rest, .inr (.inr (.inl rfl))⟩
    · rw [step_host hh ha] at h
      refine ⟨rest, ?_⟩
      rcases directMove_next h with ⟨_, ht⟩ | ⟨_, ht⟩ | ⟨_, ht⟩ | ht
      · exact .inr (.inr (.inl ht))
      · exact .inr (.inr (.inr (.inl ht)))
      · rcases turn ht with ht | ht
        · exact .inl ht
        · exact .inr (.inl ht)
      · exact .inr (.inr (.inr (.inr ht)))

end Sys2Proof.Machine
end

