-- ==== Sys2Proof/Laws/Runs.lean ====
section
/-! SUPPORT. Runs of steps while the host has nothing pending: the body of ENCODE pixel by pixel, the whole of ENCODE,
    and the
body of DECODE chunk by chunk. -/

namespace Sys2Proof.Machine

/-- A run that is emitted is appended and cleared. -/
theorem emitRun_some {s t : State} (h : emitRun s = some t) : ∃ bs, t = (s.withOutput bs).setRun 0#6 := by
  unfold emitRun emit at h
  split at h
  · rename_i u hu
    cases h
    rw [(State.outAppendAll_some hu).1]
    exact ⟨_, rfl⟩
  · cases h

/-- What one pixel can change: the output, `run` and one cache slot. -/
theorem encPixel_frame {cur : Pixel} {s t : State} (h : encPixel cur s = some t) :
    SameInterface s t ∧ t.phase = s.phase ∧ t.pix = s.pix ∧ t.pos = s.pos ∧ t.prev = s.prev
     ∧ (t.cache = s.cache ∨ t.cache = (s.cacheUpdate cur).cache) := by
  unfold encPixel at h
  split at h
  · unfold runDet at h
    simp only at h
    split at h
    · obtain ⟨bs, rfl⟩ := emitRun_some h
      simp [SameInterface]
    · cases h
      simp [SameInterface]
  · split at h
    · rename_i u hu
      have hu' : ∃ bs, u = s.withOutput bs ∨ u = (s.withOutput bs).setRun 0#6 := by
        unfold runFlush at hu
        split at hu
        · cases hu
          exact ⟨[], .inl (s.withOutput_nil).symm⟩
        · obtain ⟨bs, rfl⟩ := emitRun_some hu
          exact ⟨bs, .inr rfl⟩
      rw [encCachedOrMiss_eq, emit] at h
      obtain ⟨rfl, _⟩ := State.outAppendAll_some h
      obtain ⟨bs, rfl | rfl⟩ := hu' <;> refine ⟨by simp [SameInterface], by simp, by simp, by simp, by simp, ?_⟩ <;>
        (unfold tierCache; split <;> simp [State.cacheUpdate])
    · cases h

/-- With 3 channels every input pixel has alpha 255 (R172). -/
theorem fetch_alpha {s : State} {i : Nat} {p : Pixel} (h : s.fetchPixel i = some p)
    (hc : s.channels = 3#8) : p.a = 255#8 := by
  unfold State.fetchPixel at h
  simp only [hc] at h
  split at h
  · simp at h; rw [← h]
  · cases h

/-- Whether the buffers are apart depends on their registers alone. -/
theorem buffersDisjoint_congr {s t : State} (h1 : t.inBase = s.inBase) (h2 : t.inLen = s.inLen)
    (h3 : t.outBase = s.outBase) (h4 : t.outCapacity = s.outCapacity) : t.buffersDisjoint = s.buffersDisjoint := by
  simp [State.buffersDisjoint, h1,h2,h3,h4]

/-- `NPIX` depends on `WIDTH` and `HEIGHT` alone. -/
theorem npix_congr {s t : State} (hw : t.width = s.width) (hh : t.height = s.height) : t.npix = s.npix := by
  unfold State.npix; rw [hw, hh]

/-- The first step of a run, and the rest. -/
theorem core_run_succ {M : Host.Core} {s t : M.State} {k : Nat} :
    M.run (k + 1) s = .next t ↔ ∃ u, M.step s = .next u ∧ M.run k u = .next t := by
  rw [Host.Core.run]
  cases M.step s <;> simp

/-- A run split in two. -/
theorem core_run_add {M : Host.Core} {s t : M.State} {k m : Nat} :
    M.run (k + m) s = .next t ↔ ∃ u, M.run k s = .next u ∧ M.run m u = .next t := by
  induction k generalizing s with
  | zero => simp [Host.Core.run]
  | succ k ih =>
    rw [show k + 1 + m = (k + m) + 1 by omega, core_run_succ]
    constructor
    · rintro ⟨u, h1, h2⟩
      obtain ⟨v, h3, h4⟩ := ih.1 h2
      exact ⟨v, core_run_succ.2 ⟨u, h1, h3⟩, h4⟩
    · rintro ⟨v, h1, h2⟩
      obtain ⟨u, h3, h4⟩ := core_run_succ.1 h1
      exact ⟨u, h3, ih.2 ⟨v, h4, h2⟩⟩

/-- The first step of a run of this machine, and the rest. -/
theorem run_succ_iff {s t : State} {k : Nat} : Host.Core.run Sys2Proof.core (k + 1) s = .next t ↔
    ∃ u : State, step s = .next u ∧ Host.Core.run Sys2Proof.core k u = .next t := core_run_succ (M := Sys2Proof.core)

/-- A run of this machine, split in two. -/
theorem run_add_iff {s t : State} {k m : Nat} : Host.Core.run Sys2Proof.core (k + m) s = .next t ↔
    ∃ u : State, Host.Core.run Sys2Proof.core k s = .next u ∧ Host.Core.run Sys2Proof.core m u = .next t :=
        core_run_add (M := Sys2Proof.core)

/-- The run of no steps. -/
theorem run_zero_iff {s t : State} : Host.Core.run Sys2Proof.core 0 s = .next t ↔ s = t :=
  ⟨fun h => by cases h; rfl, fun h => by rw [h]; rfl⟩

/-- Between operations nothing moves, for any number of steps. -/
theorem run_rest {s : State} (hs : s.state ≠ .busy) (hh : s.host = [])
    (k : Nat) : Host.Core.run Sys2Proof.core k s = .next s := by
  induction k with
  | zero => rfl
  | succ k ih => exact run_succ_iff.2 ⟨s, by simp [step, nextTurn, hh, engineTurn, hs], ih⟩

/-- The engine never touches the host's list. -/
theorem engine_host {s t : State} (h : engineStep s = .next t) : t.host = s.host := by
  cases engineMove_of_step h <;> try simp
  rename_i cur u hc hu
  have := (encPixel_frame hu).1
  unfold SameInterface at this
  simp [this]

/-- With nothing pending at first, nothing is pending later. -/
theorem run_host {s t : State} (hh : s.host = []) {k : Nat}
    (h : Host.Core.run Sys2Proof.core k s = .next t) : t.host = [] := by
  induction k generalizing s with
  | zero => rw [← run_zero_iff.1 h]; exact hh
  | succ k ih =>
    obtain ⟨u, h1, h2⟩ := run_succ_iff.1 h
    refine ih ?_ h2
    simp only [step, nextTurn, hh, engineTurn] at h1
    split at h1
    · rw [engine_host h1, hh]
    · cases h1; exact hh

/-- While a run is still busy at its end, it was busy all along. -/
theorem run_busy {s t : State} (hh : s.host = []) {k : Nat} (h : Host.Core.run Sys2Proof.core k s = .next t)
    (ht : t.state = .busy)
    {j : Nat} (hj : j ≤ k) : ∃ u : State, Host.Core.run Sys2Proof.core j s = .next u ∧ u.state = .busy := by
  obtain ⟨m, rfl⟩ := Nat.exists_eq_add_of_le hj
  obtain ⟨u, h1, h2⟩ := run_add_iff.1 h
  refine ⟨u, h1, ?_⟩
  by_contra hb
  rw [run_rest hb (run_host hh h1)] at h2
  cases h2
  exact hb ht

/-- The step of an ENCODE's body at a pixel (R174). -/
theorem step_pixel {s : State} {cur : Pixel} (h : s.atPixel cur) :
    step s = match encPixel cur s with
      | some t => .next (advancePixel cur t)
      | none => .fault .outputStuck := by
  obtain ⟨hm, ho, hp, hx, hf⟩ := h
  rw [step_engine hm]
  cases he : encPixel cur s <;> simp only [engineStep, hp, ho, encStep, hx, hf, he, if_true]

/-- `In` depends on the input registers and the input bytes alone. -/
theorem readIn_congr {s t : State} (hb : t.inBase = s.inBase) (hl : t.inLen = s.inLen)
    (hm : ∀ k, k < s.inLen → t.mem.read (s.inBase + k) = s.mem.read (s.inBase + k))
        (k : Nat) : t.readIn k = s.readIn k := by
  unfold State.readIn
  rw [hb, hl]
  split
  · exact hm k ‹_›
  · rfl

/-- PIXEL_FETCH reads `In` and `CHANNELS` alone. -/
theorem fetchPixel_congr {s t : State} (hr : ∀ k, t.readIn k = s.readIn k) (hc : t.channels = s.channels) (i : Nat) :
    t.fetchPixel i = s.fetchPixel i := by
  unfold State.fetchPixel
  simp only [hr, hc]

/-- Several bytes, byte by byte. -/
theorem readInBytes_congr {s t : State} (hr : ∀ k, t.readIn k = s.readIn k)
    (k n : Nat) : t.readInBytes k n = s.readInBytes k n := by
  induction n generalizing k with
  | zero => rfl
  | succ n ih => unfold State.readInBytes; rw [hr, ih]

/-- An append that fits leaves the input as it was. -/
theorem readIn_appended {s t : State} {bs : List Byte} (h : Appended s t bs) (hI : SameInterface s t)
    (hd : s.buffersDisjoint = true)
    (hf : bs = [] ∨ s.fits bs.length) (k : Nat) : t.readIn k = s.readIn k := by
  unfold SameInterface at hI
  apply readIn_congr (by simp [hI]) (by simp [hI])
  intro k hk
  apply h.2.2.2
  simp [State.buffersDisjoint] at hd
  rcases hf with rfl | hf
  · simp; omega
  · unfold State.fits at hf
    by_cases h0 : s.outCapacity = 0 <;> omega

/-- `SameInterface` over two steps. -/
theorem SameInterface.trans {s t u : State} (h1 : SameInterface s t) (h2 : SameInterface t u) : SameInterface s u := by
  unfold SameInterface at *
  simp [h1, h2]

/-- Nothing appended. -/
theorem Appended.nil {s t : State} (hm : t.mem = s.mem) (hb : t.outBase = s.outBase)
    (hl : t.outLen = s.outLen) : Appended s t [] := by
  refine ⟨hb, by simp [hl], fun k v h => by simp at h, fun a _ => by rw [hm]⟩

/-- One pixel of ENCODE, and what is left to encode after it. -/
theorem encode_one {s : State} {cur : Pixel} {rest : List Pixel} (h : s.atPixel cur) (hr : s.run.toNat ≤ 61)
    (hlast : s.pix + 1 + rest.length = s.npix)
    (hf : s.fits (encodeAll (encChunks (cur :: rest) s)).length) :
    ∃ (t : State) (bs : List Byte), step s = .next t ∧ SameInterface s t ∧ Appended s t bs
      ∧ encodeAll (encChunks (cur :: rest) s) = bs ++ encodeAll (encChunks rest t)
      ∧ t.pix = s.pix + 1 ∧ t.phase = (if rest = [] then .ftr else .body) ∧ t.run.toNat ≤ 61 := by
  have hl : s.lastPixel = true ↔ rest = [] := by
    unfold State.lastPixel
    rw [decide_eq_true_iff]
    constructor
    · intro h; apply List.eq_nil_of_length_eq_zero; omega
    · rintro rfl; simpa using hlast
  have hph : ∀ u : State, u.npix = s.npix → u.pix = s.pix → u.phase = s.phase →
      (advancePixel cur u).phase = (if rest = [] then .ftr else .body) := by
    intro u h1 h2 h3
    rw [advancePixel_phase, h1, h2, h3, h.2.2.1]
    by_cases h0 : rest = []
    · rw [if_pos h0, if_pos (by rw [h0] at hlast; simpa using hlast)]
    · have : rest.length ≠ 0 := fun h => h0 (List.eq_nil_of_length_eq_zero h)
      rw [if_neg h0, if_neg (by omega)]
  rw [encChunks_cons cur rest s] at hf ⊢
  by_cases h0 : cur = s.prev
  · rw [if_pos h0] at hf ⊢
    by_cases h1 : s.run.toNat = 61 ∨ rest = []
    · rw [if_pos h1] at hf ⊢
      have hrb := runByte_eq s.run hr
      rw [run_succ s.run hr] at hrb
      change encode (.run (s.run.toNat + 1)) = [runByte s] at hrb
      rw [encodeAll_cons, hrb] at hf ⊢
      have hf1 : s.fits 1 := by unfold State.fits at hf ⊢; simp at hf; omega
      refine ⟨advancePixel cur ((s.withOutput [runByte s]).setRun 0#6), [runByte s], by rw [step_pixel h,
          encPixel_emit h0 hr (h1.imp id hl.2) hf1],
        by simp [SameInterface], (s.withOutput_appended [runByte s]).congr_right (by simp) (by simp) (by simp), ?_,
            by simp, hph _ rfl rfl rfl, by simp⟩
      congr 2
      refine (encChunks_congr rest ?_ ?_ ?_).symm <;> simp [h0]
    · rw [if_neg h1] at hf ⊢
      rw [not_or] at h1
      have hlf : s.lastPixel = false := by rw [← Bool.not_eq_true, hl]; exact h1.2
      refine ⟨advancePixel cur (s.setRun (s.run + 1#6)), [], by rw [step_pixel h, encPixel_extend h0 (by omega) hlf],
          by simp [SameInterface],
        Appended.nil (by simp) (by simp) (by simp), ?_, by simp, hph _ rfl rfl rfl, ?_⟩
      · rw [List.nil_append]
        congr 1
        refine (encChunks_congr rest ?_ ?_ ?_).symm <;> simp [h0]
      · rw [advancePixel_run, State.setRun_run, run_succ s.run hr]; omega
  · rw [if_neg h0] at hf ⊢
    have hpe : encodeAll (if s.run = 0#6 then [] else [Instr.run s.run.toNat]) = s.pendingRun := by
      by_cases hz : s.run = 0#6
      · rw [if_pos hz, pendingRun_of_zero hz]; rfl
      · rw [if_neg hz, encodeAll_cons, pendingRun_of_ne hz, encodeAll_nil, List.append_nil]
    rw [encodeAll_append, hpe, encodeAll_cons] at hf ⊢
    have hf1 : s.fits (s.pendingRun.length + (encode (tierInstr cur s)).length) := by
      unfold State.fits at hf ⊢; simp at hf; omega
    refine ⟨advancePixel cur (newPixelResult cur s), s.pendingRun ++ encode (tierInstr cur s), by rw [step_pixel h,
        encPixel_new h0 hf1],
      by simp [SameInterface], (newPixelResult_appended cur s).congr_right (by simp) (by simp) (by simp), ?_, by simp,
          hph _ (by simp [State.npix]) (by simp) (by simp), by simp⟩
    rw [List.append_assoc]
    congr 3
    refine (encChunks_congr rest ?_ ?_ ?_).symm <;> simp

/-- The body of ENCODE: the chunks of the pixels appended, one step a pixel. -/
theorem encode_body (ps : List Pixel) {s : State} (hm : s.engineMoves) (ho : s.op = .encode) (hp : s.phase = .body)
    (hne : ps ≠ [])
    (hn : s.pix + ps.length = s.npix) (hx : ∀ j p, ps[j]? = some p → s.fetchPixel (s.pix + j) = some p)
        (hr : s.run.toNat ≤ 61)
    (hd : s.buffersDisjoint = true) (hf : s.fits (encodeAll (encChunks ps s)).length) :
    ∃ t : State, Host.Core.run Sys2Proof.core ps.length s = .next t ∧ t.phase = .ftr ∧ SameInterface s t
      ∧ Appended s t (encodeAll (encChunks ps s)) := by
  induction ps generalizing s with
  | nil => exact absurd rfl hne
  | cons cur rest ih =>
    simp only [List.length_cons] at hn
    have hat : s.atPixel cur := ⟨hm, ho, hp, by omega, by simpa using hx 0 cur rfl⟩
    obtain ⟨t, bs, h1, h2, h3, h4, h5, h6, h7⟩ := encode_one hat hr (by omega) hf
    have hsi := h2
    unfold SameInterface at hsi
    have hnp : t.npix = s.npix := by simp [State.npix, hsi]
    rw [h4] at hf ⊢
    simp only [List.length_append] at hf
    have hfb : s.fits bs.length := by unfold State.fits at *; omega
    by_cases h0 : rest = []
    · subst h0
      rw [if_pos rfl] at h6
      refine ⟨t, run_succ_iff.2 ⟨t, h1, rfl⟩, h6, h2, by simpa [encChunks, encodeAll] using h3⟩
    · rw [if_neg h0] at h6
      have hri := readIn_appended h3 h2 hd (.inr hfb)
      obtain ⟨u, g1, g2, g3, g4⟩ := ih (s := t) ⟨by rw [hsi.1]; exact hm.1, by simp only [hsi]; exact hm.2⟩
          (by simp only [hsi]; exact ho) h6 h0 (by omega)
        (fun j p hj => by
          rw [fetchPixel_congr hri (by simp [hsi]), h5, ← hx (j + 1) p (by simpa using hj)]
          congr 1; omega) h7
        (by rw [← hd]; unfold State.buffersDisjoint; simp only [hsi]) (by
          have := h3.2.1
          unfold State.fits at *
          have hcap : t.outCapacity = s.outCapacity := by simp [hsi]
          omega)
      exact ⟨u, run_succ_iff.2 ⟨t, h1, g1⟩, g2, h2.trans g3, h3.trans g4⟩

/-- The whole output of an ENCODE. -/
def encodeOutput (ps : List Pixel) (s : State) : List Byte := s.headerBytes ++ encodeAll (encChunks ps
    (opInit s)) ++ footerBytes

/-- The header depends on five fields alone. -/
theorem headerBytes_congr {s t : State} (hp : t.params = s.params) (hw : t.width = s.width) (hh : t.height = s.height)
    (hc : t.channels = s.channels)
    (hcs : t.colorspace = s.colorspace) : t.headerBytes = s.headerBytes := by unfold State.headerBytes; rw [hp, hw,
        hh, hc, hcs]

/-- The bound of R68 on the whole output. -/
theorem encodeOutput_length {ps : List Pixel} {s : State} (hc : s.encodeChecked) (hlen : ps.length = s.npix)
    (ha : s.channels = 3#8 → ∀ p ∈ ps, p.a = 255#8) : (encodeOutput ps s).length ≤ 22 + s.npix *
        (s.channels.toNat + 1) := by
  have hch : s.channels = 3#8 ∨ s.channels = 4#8 := by have := hc.1.1; simpa [legalChannels] using this
  have := encChunks_length ps (s := opInit s) (ch := s.channels) hch (fun h => ⟨by simp [prevInit], ha h⟩)
  have hz : (opInit s).pendingRun = [] := pendingRun_of_zero (by simp)
  rw [hz, hlen] at this
  simp only [encodeOutput, List.length_append, State.headerBytes_length, footerBytes_length, List.length_nil] at this ⊢
  omega

/-- The whole of ENCODE (R170): what it answers after `NPIX + 4` steps. -/
theorem encode_run {s : State} (h : s.encodeReady) {ps : List Pixel} (hlen : ps.length = s.npix)
    (hx : ∀ j p, ps[j]? = some p → s.fetchPixel j = some p) :
    ∃ t e : State, Host.Core.run Sys2Proof.core (s.npix + 3) s = .next t ∧ t.state = .busy
      ∧ Host.Core.run Sys2Proof.core (s.npix + 4) s = .next e ∧ e.state = .done ∧ e.err = .noError ∧
          e.outBase = s.outBase
      ∧ e.outLen = (encodeOutput ps s).length
      ∧ ∀ k v, (encodeOutput ps s)[k]? = some v → e.mem.read (s.outBase + k) = some v := by
  obtain ⟨⟨hm, ho, hp, hh, he, hol, hw, hr, hd⟩, hc, hpl, hcap⟩ := h
  have ha : s.channels = 3#8 → ∀ p ∈ ps, p.a = 255#8 := by
    intro h3 p hp
    obtain ⟨j, hj⟩ := List.mem_iff_getElem?.1 hp
    exact fetch_alpha (hx j p hj) h3
  have hL := encodeOutput_length hc hlen ha
  have hL' : (encodeOutput ps s).length = 22 + (encodeAll (encChunks ps (opInit s))).length := by
    simp only [encodeOutput, List.length_append, State.headerBytes_length, footerBytes_length]; omega
  unfold headerLength footerLength at hcap
  -- OPINIT
  have e1 : step s = .next (opInit s) := by
    rw [step_engine hm]; simp only [engineStep, hp, headerPhase, hh]
  -- ENCVALID
  have m1 : (opInit s).engineMoves := ⟨by simp [hm.1], by simp [hm.2]⟩
  have e2 : step (opInit s) = .next { opInit s with hdrStep := .header } := by
    rw [step_engine m1]
    simp only [engineStep, headerPhase, opInit_phase, opInit_op, opInit_hdrStep, hp, ho, encValid, opInit_channels,
        opInit_colorspace, opInit_inLen, opInit_width, opInit_height,
      hc.1.1, hc.1.2, hc.2]
    simp
  generalize hs2 : ({ opInit s with hdrStep := .header } : State) = s2 at e2
  have f_state : s2.state = .busy := by rw [← hs2]; exact hm.1
  have f_host : s2.host = [] := by rw [← hs2]; exact hm.2
  have f_op : s2.op = .encode := by rw [← hs2]; exact ho
  have f_phase : s2.phase = .hdr := by rw [← hs2]; exact hp
  have f_hdr : s2.hdrStep = .header := by rw [← hs2]
  have f_mem : s2.mem = s.mem := by rw [← hs2]; rfl
  have f_ob : s2.outBase = s.outBase := by rw [← hs2]; rfl
  have f_ol : s2.outLen = 0 := by rw [← hs2]; exact hol
  have f_oc : s2.outCapacity = s.outCapacity := by rw [← hs2]; rfl
  have f_ib : s2.inBase = s.inBase := by rw [← hs2]; rfl
  have f_il : s2.inLen = s.inLen := by rw [← hs2]; rfl
  have f_w : s2.width = s.width := by rw [← hs2]; rfl
  have f_h : s2.height = s.height := by rw [← hs2]; rfl
  have f_c : s2.channels = s.channels := by rw [← hs2]; rfl
  have f_cs : s2.colorspace = s.colorspace := by rw [← hs2]; rfl
  have f_p : s2.params = s.params := by rw [← hs2]; rfl
  have f_err : s2.err = .noError := by rw [← hs2]; exact he
  have f_run : s2.run = 0#6 := by rw [← hs2]; rfl
  have f_prev : s2.prev = (opInit s).prev := by rw [← hs2]
  have f_cache : s2.cache = (opInit s).cache := by rw [← hs2]
  have f_np : s2.npix = s.npix := npix_congr f_w f_h
  have hdis2 : s2.buffersDisjoint = true := by rw [← hd]; unfold State.buffersDisjoint; rw [f_ib, f_il, f_ob, f_oc]
  clear hs2
  -- HEADER_EMIT
  have m2 : s2.engineMoves := ⟨f_state, f_host⟩
  have f14 : s2.fits s2.headerBytes.length := by unfold State.fits; rw [f_ol, f_oc, State.headerBytes_length]; omega
  have e3 : step s2 = .next (enterEncodeBody (s2.withOutput s2.headerBytes)) := by
    rw [step_engine m2]
    simp only [engineStep, headerPhase, f_phase, f_op, f_hdr, headerEmit]
    rw [State.outAppendAll_fits _ f14]
  have a3 : Appended s2 (enterEncodeBody (s2.withOutput s2.headerBytes)) s2.headerBytes :=
    (s2.withOutput_appended _).congr_right (by simp) (by simp) (by simp)
  have i3 : SameInterface s2 (enterEncodeBody (s2.withOutput s2.headerBytes)) := by simp [SameInterface]
  have np3 : (s2.withOutput s2.headerBytes).npix = s.npix := f_np
  generalize hs3 : enterEncodeBody (s2.withOutput s2.headerBytes) = s3 at e3 a3 i3
  have p3 : s3.phase = if s.npix = 0 then .ftr else .body := by rw [← hs3, enterEncodeBody_phase, np3]
  have x3 : s3.pix = 0 := by rw [← hs3]; simp
  have r3 : s3.run = 0#6 := by rw [← hs3]; simp [f_run]
  have v3 : s3.prev = (opInit s).prev := by rw [← hs3]; simp [f_prev]
  have c3 : s3.cache = (opInit s).cache := by rw [← hs3]; simp [f_cache]
  clear hs3
  have hri := readIn_appended a3 i3 hdis2 (.inr f14)
  have hri2 : ∀ k, s2.readIn k = s.readIn k := readIn_congr f_ib f_il (fun k _ => by rw [f_mem])
  have i3' := id i3
  unfold SameInterface at i3
  have ec3 : encChunks ps s3 = encChunks ps (opInit s) := encChunks_congr ps c3 v3 (by rw [r3]; simp)
  have ol3 : s3.outLen = 14 := by rw [a3.2.1, f_ol, State.headerBytes_length]
  -- the body
  obtain ⟨t, b1, b2, b3, b4⟩ : ∃ t : State, Host.Core.run Sys2Proof.core s.npix s3 = .next t ∧ t.phase = .ftr ∧
      SameInterface s3 t
      ∧ Appended s3 t (encodeAll (encChunks ps s3)) := by
    by_cases h0 : ps = []
    · subst h0
      simp only [List.length_nil] at hlen
      rw [← hlen] at p3 ⊢
      exact ⟨s3, rfl, by simpa using p3, by simp [SameInterface], Appended.nil rfl rfl rfl⟩
    · have hn0 : s.npix ≠ 0 := by rw [← hlen]; exact fun h => h0 (List.eq_nil_of_length_eq_zero h)
      rw [← hlen]
      have np : s3.npix = s.npix := by rw [← f_np]; exact npix_congr (by simp [i3]) (by simp [i3])
      apply encode_body ps
      · exact ⟨by simp [i3, f_state], by simp [i3, f_host]⟩
      · simp [i3, f_op]
      · rw [p3, if_neg hn0]
      · exact h0
      · rw [x3, np]; omega
      · intro j p hj
        rw [x3, Nat.zero_add, fetchPixel_congr hri (by simp [i3]), fetchPixel_congr hri2 f_c]
        exact hx j p hj
      · simp [r3]
      · rw [← hdis2]; unfold State.buffersDisjoint; simp only [i3]
      · rw [ec3]; unfold State.fits; rw [ol3, show s3.outCapacity = s.outCapacity by simp [i3, f_oc]]; omega
  rw [ec3] at b4
  have b3' := b3
  unfold SameInterface at b3
  -- the footer
  have mt : t.engineMoves := ⟨by simp [b3, i3, f_state], by simp [b3, i3, f_host]⟩
  have olt : t.outLen = 14 + (encodeAll (encChunks ps (opInit s))).length := by rw [b4.2.1, ol3]
  have oct : t.outCapacity = s.outCapacity := by simp [b3, i3, f_oc]
  have ft : t.fits footerBytes.length := by unfold State.fits; rw [olt, oct, footerBytes_length]; omega
  have e5 : step t = .next (t.withOutput footerBytes).complete := by
    rw [step_engine mt]
    have : t.op = .encode := by simp [b3, i3, f_op]
    simp only [engineStep, b2, this, footerEmit]
    rw [State.outAppendAll_fits _ ft]
  have hrun : Host.Core.run Sys2Proof.core (s.npix + 3) s = .next t := by
    rw [Nat.add_comm]
    exact run_add_iff.2 ⟨s3, run_succ_iff.2 ⟨_, e1, run_succ_iff.2 ⟨_, e2, run_succ_iff.2 ⟨_, e3, rfl⟩⟩⟩, b1⟩
  have hall := (a3.trans b4).trans (t.withOutput_appended footerBytes)
  rw [headerBytes_congr f_p f_w f_h f_c f_cs] at hall
  refine ⟨t, (t.withOutput footerBytes).complete, hrun, mt.1, ?_, by simp, by simp [b3, i3, f_err], by simp [b3, i3,
      f_ob], ?_, ?_⟩
  · rw [show s.npix + 4 = (s.npix + 3) + 1 by omega]
    exact run_add_iff.2 ⟨t, hrun, run_succ_iff.2 ⟨_, e5, rfl⟩⟩
  · simp only [State.complete_outLen]
    rw [hall.2.1, f_ol, Nat.zero_add]; rfl
  · intro k v hk
    have hk' : k < (encodeOutput ps s).length := by
      rw [List.getElem?_eq_some_iff] at hk; exact hk.1
    rw [State.complete_mem, Memory.read_fillFree_out]
    · have := hall.2.2.1 k v hk
      rwa [f_ob, f_ol, Nat.add_zero] at this
    · left
      rw [hall.2.1, hall.1, f_ob, f_ol, Nat.zero_add]
      change s.outBase + k < s.outBase + (encodeOutput ps s).length
      omega

/-- A placed input is a list of `NPIX` pixels. -/
theorem input_pixels {s : State} (hc : s.encodeChecked) (hpl : s.inputPlaced) :
    ∃ ps : List Pixel, ps.length = s.npix ∧ (∀ j p, ps[j]? = some p → s.fetchPixel j = some p) := by
  have hch : s.channels = 3#8 ∨ s.channels = 4#8 := by have := hc.1.1; simpa [legalChannels] using this
  have hsome : ∀ j, j < s.npix → ∃ p, s.fetchPixel j = some p := by
    intro j hj
    have hin : s.inLen = s.npix * s.channels.toNat := hc.2
    have hle : (j + 1) * s.channels.toNat ≤ s.inLen := by rw [hin]; exact Nat.mul_le_mul_right _ hj
    rw [Nat.add_mul, Nat.one_mul] at hle
    have hg : ∀ k, k < s.channels.toNat → ∃ v, s.readIn (j * s.channels.toNat + k) = some v := fun k hk =>
      Option.isSome_iff_exists.1 (hpl _ (by omega))
    have h3 : 3 ≤ s.channels.toNat := by rcases hch with h | h <;> rw [h] <;> decide
    obtain ⟨r, hr⟩ := hg 0 (by omega)
    obtain ⟨g, hg'⟩ := hg 1 (by omega)
    obtain ⟨b, hb⟩ := hg 2 (by omega)
    rw [Nat.add_zero] at hr
    unfold State.fetchPixel
    simp only [hr, hg', hb]
    split
    · rename_i h4
      obtain ⟨a, ha⟩ := hg 3 (by rw [h4]; decide)
      rw [ha]; exact ⟨_, rfl⟩
    · exact ⟨_, rfl⟩
  refine ⟨(List.range s.npix).map (fun j => (s.fetchPixel j).getD zeroPixel), by simp, fun j p hj => ?_⟩
  rw [List.getElem?_map] at hj
  cases hl : (List.range s.npix)[j]? with
  | none => rw [hl] at hj; cases hj
  | some x =>
    rw [hl] at hj
    obtain ⟨h1, h2⟩ := List.getElem?_eq_some_iff.1 hl
    simp at h1 h2
    subst h2
    obtain ⟨q, hq⟩ := hsome j h1
    simp [hq] at hj
    rw [hq, hj]

/-- Bytes that are there are read. -/
theorem readInBytes_of {s : State} {k : Nat} {bs : List Byte} (h : ∀ j v, bs[j]? = some v → s.readIn (k + j) = some v) :
    s.readInBytes k bs.length = some bs := by
  induction bs generalizing k with
  | nil => rfl
  | cons b bs ih =>
    have h0 := h 0 b rfl
    have := ih (k := k + 1) (fun j v hj => by rw [← h (j + 1) v (by simpa using hj)]; congr 1; omega)
    simp only [List.length_cons, State.readInBytes]
    rw [Nat.add_zero] at h0
    rw [h0, this]

/-- The step of a DECODE at a chunk that lies in the region. -/
theorem step_chunk {s : State} {i : Instr} {bs : List Byte} (h : s.atChunk)
    (hb : s.readInBytes s.pos bs.length = some bs)
    (hd : decode bs = .ok (i, [])) (ht : s.truncated bs.length = false) : step s = exec i s := by
  obtain ⟨hm, ho, hp, hr⟩ := h
  rw [step_engine hm]
  simp only [engineStep, ho, hp, decodeBody, hr, if_true]
  obtain ⟨b, r, rfl, hl, _⟩ := decode_length hd
  have h1 := (readInBytes_cons (k := s.pos) (n := r.length) (by simpa using hb)).1
  unfold decStep
  rw [h1]
  simp only
  rw [List.length_nil, Nat.add_zero] at hl
  rw [← hl, ht]
  simp only [Bool.false_eq_true, if_false, State.fetchChunk, hb, hd]

/-- Every chunk takes at least one byte. -/
theorem instr_length_pos (i : Instr) : 1 ≤ i.length := by unfold Instr.length; cases i.kind <;> decide

/-- The body of DECODE: the pixels of the chunks appended, one step a chunk. -/
theorem decode_body (cs : List Instr) {d : State} (hm : d.engineMoves) (ho : d.op = .decode) (hp : d.phase = .body)
    (hwf : ∀ i ∈ cs, decode (encode i) = .ok (i, [])) (hin : ∀ k v, (encodeAll cs)[k]? = some v → d.readIn
        (d.pos + k) = some v)
    (hl : d.pos + (encodeAll cs).length + 8 = d.inLen) (hd : d.buffersDisjoint = true) (hf : d.fits
        (chunksBytes cs d).length) :
    ∃ t : State, Host.Core.run Sys2Proof.core cs.length d = .next t ∧ t.phase = .body ∧ t.pos + 8 = t.inLen ∧
        SameInterface d t
      ∧ Appended d t (chunksBytes cs d) := by
  induction cs generalizing d with
  | nil => exact ⟨d, rfl, hp, by simpa [encodeAll] using hl, by simp [SameInterface], Appended.nil rfl rfl rfl⟩
  | cons i cs ih =>
    rw [encodeAll_cons] at hin hl
    simp only [List.length_append] at hl
    simp only [chunksBytes, List.length_append] at hf
    have hdec := hwf i (by simp)
    have hlen := encode_length i
    have hpos := instr_length_pos i
    have hread := readInBytes_of (s := d) (k := d.pos) (bs := encode i) (fun j v hj => hin j v (by
      rw [List.getElem?_append_left (List.getElem?_eq_some_iff.1 hj).1]; exact hj))
    have htr : d.truncated (encode i).length = false := truncated_false (by omega)
    have hfb : d.fits (chunkBytes i d).length := by unfold State.fits at *; omega
    have h1 : step d = .next (chunkResult i d) := by
      rw [step_chunk ⟨hm, ho, hp, (chunksRemain_iff d).2 (by omega)⟩ hread hdec htr]
      exact exec_completes (by rw [← hlen]; exact htr) hfb
    have ha := chunkResult_appended i d
    have hsi : SameInterface d (chunkResult i d) := by simp [SameInterface]
    have hri := readIn_appended ha hsi hd (.inr hfb)
    obtain ⟨t, g1, g2, g3, g4, g5⟩ := ih (d := chunkResult i d) ⟨by simp [hm.1], by simp [hm.2]⟩ (by simp [ho])
        (by simp [hp])
      (fun j hj => hwf j (.tail _ hj)) (fun k v hk => by
        rw [hri, chunkResult_pos, ← hlen, ← hin ((encode i).length + k) v (by
          rw [List.getElem?_append_right (by omega)]; rw [← hk]; congr 1; omega)]
        congr 1; omega) (by simp; omega) (by rw [← hd]; unfold State.buffersDisjoint; simp) (by
        unfold State.fits at *; simp; omega)
    exact ⟨t, run_succ_iff.2 ⟨_, h1, g1⟩, g2, g3, hsi.trans g4, ha.trans g5⟩

/-- The raw bytes of the input's pixels are the input (R61, R62). -/
theorem pixels_bytes {s : State} (hc : s.encodeChecked) {ps : List Pixel} (hlen : ps.length = s.npix)
    (hx : ∀ j p, ps[j]? = some p → s.fetchPixel j = some p) :
    (ps.flatMap (pixelBytes s.channels)).length = s.inLen ∧
    ∀ k v, (ps.flatMap (pixelBytes s.channels))[k]? = some v → s.readIn k = some v := by
  have hch : s.channels = 3#8 ∨ s.channels = 4#8 := by have := hc.1.1; simpa [legalChannels] using this
  have hpl : ∀ p, (pixelBytes s.channels p).length = s.channels.toNat := by
    intro p; rw [pixelBytes_length]; rcases hch with h | h <;> rw [h] <;> decide
  have hone : ∀ j p, s.fetchPixel j = some p → ∀ k v, (pixelBytes s.channels p)[k]? = some v → s.readIn
      (j * s.channels.toNat + k) = some v := by
    intro j p hp k v hk
    unfold State.fetchPixel at hp
    unfold pixelBytes at hk
    simp only at hp
    split at hp
    · rename_i r g b h1 h2 h3
      split at hp
      · rename_i h4
        rw [if_pos h4] at hk
        split at hp
        · rename_i a h5
          cases hp
          match k, hk with
          | 0, hk => simp at hk; subst hk; exact h1
          | 1, hk => simp at hk; subst hk; exact h2
          | 2, hk => simp at hk; subst hk; exact h3
          | 3, hk => simp at hk; subst hk; exact h5
        · cases hp
      · rename_i h4
        rw [if_neg h4] at hk
        cases hp
        match k, hk with
        | 0, hk => simp at hk; subst hk; exact h1
        | 1, hk => simp at hk; subst hk; exact h2
        | 2, hk => simp at hk; subst hk; exact h3
    · cases hp
  have hgen : ∀ (qs : List Pixel) (m : Nat), (∀ j p, qs[j]? = some p → s.fetchPixel (m + j) = some p) →
      (qs.flatMap (pixelBytes s.channels)).length = qs.length * s.channels.toNat ∧
      ∀ k v, (qs.flatMap (pixelBytes s.channels))[k]? = some v → s.readIn (m * s.channels.toNat + k) = some v := by
    intro qs
    induction qs with
    | nil => intro m _; simp
    | cons q qs ih =>
      intro m hm
      obtain ⟨i1, i2⟩ := ih (m + 1) (fun j p hj => by rw [← hm (j + 1) p (by simpa using hj)]; congr 1; omega)
      refine ⟨by simp [i1, hpl]; ring, fun k v hk => ?_⟩
      rw [List.flatMap_cons] at hk
      by_cases hlt : k < s.channels.toNat
      · rw [List.getElem?_append_left (by rw [hpl]; exact hlt)] at hk
        exact hone m q (by simpa using hm 0 q rfl) k v hk
      · rw [List.getElem?_append_right (by rw [hpl]; omega), hpl] at hk
        rw [← i2 _ v hk, Nat.add_mul]
        congr 1; omega
  obtain ⟨h1, h2⟩ := hgen ps 0 (by simpa using hx)
  refine ⟨?_, by simpa using h2⟩
  rw [h1, hlen]; exact hc.2.symm

theorem beWord_beBytes (w : Word32) : beWord (w.extractLsb' 24 8) (w.extractLsb' 16 8) (w.extractLsb' 8 8)
    (w.extractLsb' 0 8) = w := by
  unfold beWord
  rw [BitVec.extractLsb'_append_extractLsb'_eq_extractLsb' (show 24 = 16 + 8 from rfl),
    BitVec.extractLsb'_append_extractLsb'_eq_extractLsb' (show 16 = 8 + 8 from rfl),
    BitVec.extractLsb'_append_extractLsb'_eq_extractLsb' (show 8 = 0 + 8 from rfl)]
  exact BitVec.extractLsb'_eq_self

/-- A stretch of the input, read at its offset. -/
theorem readInBytes_mid {s : State} {out pre bs post : List Byte} (hin : ∀ k v, out[k]? = some v → s.readIn k = some v)
    (ho : out = pre ++ bs ++ post) : s.readInBytes pre.length bs.length = some bs := by
  apply readInBytes_of
  intro j v hj
  apply hin
  have hlt := (List.getElem?_eq_some_iff.1 hj).1
  rw [ho, List.append_assoc, List.getElem?_append_right (by omega), show pre.length + j - pre.length = j by omega,
      List.getElem?_append_left hlt]
  exact hj

/-- One byte, read as a list. -/
theorem readIn_of_readInBytes {s : State} {k : Nat} {b : Byte}
    (h : s.readInBytes k 1 = some [b]) : s.readIn k = some b :=
  (readInBytes_cons (n := 0) h).1

/-- HEADER_PARSE of a header that ENCODE wrote. -/
theorem headerParse_of {d : State} {m : List Byte} {w h : Word32} {ch cs : Byte} (hm : m = d.params.magic.toList)
    (h1 : d.readInBytes 0 4 = some m)
    (h2 : d.readInBytes 4 8 = some (beBytes w ++ beBytes h)) (h3 : d.readInBytes 12 1 = some [ch])
        (h4 : d.readInBytes 13 1 = some [cs])
    (hch : legalChannels ch = true) (hcs : legalColorspace cs = true) :
    headerParse d = .next (enterDecodeBody (d.setHeader w h ch cs)) := by
  have hp : parseFields d = .next (enterDecodeBody (d.setHeader w h ch cs)) := by
    unfold parseFields
    rw [readIn_of_readInBytes h3]
    simp only [hch]
    rw [readIn_of_readInBytes h4]
    simp only [hcs, Bool.true_eq_false, if_false]
    unfold parseSizes
    rw [h2]
    simp only [beBytes, List.cons_append, List.nil_append, beWord_beBytes]
  unfold headerParse
  rw [h1]
  simp only [hm, if_true, hp]
  split <;> rfl

end Sys2Proof.Machine
end

