-- ==== Sys2Proof/Laws/Pending.lean ====
section
/-! SUPPORT. The engine's operations do not look at the host's pending actions: with another list pending each of them does
the same and leaves that list. -/

namespace Sys2Proof.Machine

/-- The state with another list of actions pending. -/
abbrev State.withPending (l : List HostAct) (s : State) : State := { s with host := l }

/-- An outcome with another list of actions pending in its next state. -/
def outcomeWithPending (l : List HostAct) : Host.Outcome State Fault Refusal → Host.Outcome State Fault Refusal
  | .next t => .next (t.withPending l)
  | .fault f => .fault f
  | .refused r => .refused r

theorem outAppendAll_pending (l : List HostAct) (bs : List Byte) (s : State) :
    State.outAppendAll bs (s.withPending l) = (State.outAppendAll bs s).map (State.withPending l) := by
  induction bs generalizing s with
  | nil => rfl
  | cons v vs ih =>
    by_cases h : s.outLen < s.outCapacity
    · have h1 : s.outAppend v = some (s.withOutput [v]) := by
        simp [State.outAppend, h, State.withOutput, Memory.writeList]
      have h2 : (s.withPending l).outAppend v = some (State.withPending l (s.withOutput [v])) := by
        simp [State.outAppend, h, State.withOutput, Memory.writeList, State.withPending]
      simp only [State.outAppendAll, h1, h2]
      exact ih _
    · simp [State.outAppendAll, State.outAppend, h]

theorem abort_pending (l : List HostAct) (e : Err) (s : State) :
    State.abort e (s.withPending l) = State.withPending l (s.abort e) := by
  unfold State.abort
  by_cases h : s.op = .decode <;> simp [State.withPending, h, State.freeOutput, State.freeHeader, State.freeInternals]

theorem complete_pending (l : List HostAct) (s : State) :
    (s.withPending l).complete = State.withPending l s.complete := rfl

theorem pixelOutRepeat_pending (l : List HostAct) (p : Pixel) (n : Nat) (s : State) :
    State.pixelOutRepeat p n (s.withPending l) = (State.pixelOutRepeat p n s).map (State.withPending l) := by
  induction n generalizing s with
  | zero => rfl
  | succ n ih =>
    simp only [State.pixelOutRepeat, State.pixelOut, outAppendAll_pending]
    cases State.outAppendAll (pixelBytes s.channels p) s with
    | none => rfl
    | some t => exact ih t

theorem readInBytes_pending (l : List HostAct) (k n : Nat) (s : State) :
    (s.withPending l).readInBytes k n = s.readInBytes k n :=
  readInBytes_congr (s := s) (t := s.withPending l) (fun _ => rfl) k n

theorem chunkStep_pending (l : List HostAct) (n : Nat) (f : State → Option State) (s : State)
    (hf : f (s.withPending l) = (f s).map (State.withPending l)) :
    chunkStep n f (s.withPending l) = outcomeWithPending l (chunkStep n f s) := by
  unfold chunkStep
  rw [hf, show (s.withPending l).truncated n = s.truncated n from rfl, abort_pending]
  split
  · rfl
  · cases f s <;> rfl

theorem reconstruct_pending (l : List HostAct) (p : Pixel) (s : State) :
    reconstruct p (s.withPending l) = (reconstruct p s).map (State.withPending l) :=
  outAppendAll_pending l _ ((s.setPrev p).cacheUpdate p)

theorem exec_pending (l : List HostAct) (i : Instr) (s : State) :
    exec i (s.withPending l) = outcomeWithPending l (exec i s) := by
  cases i with
  | index k =>
    exact chunkStep_pending l 1 (fun s => (s.setPrev (s.cacheRead k)).pixelOut (s.cacheRead k)) s
      (outAppendAll_pending l _ (s.setPrev (s.cacheRead k)))
  | run n => exact chunkStep_pending l 1 (fun s => s.pixelOutRepeat s.prev n) s (pixelOutRepeat_pending l _ _ _)
  | rgb r g b => exact chunkStep_pending l 4 (reconstruct (rgbPixel r g b s.prev)) s (reconstruct_pending l _ _)
  | rgba r g b a => exact chunkStep_pending l 5 (reconstruct ⟨r, g, b, a⟩) s (reconstruct_pending l _ _)
  | diff dr dg db => exact chunkStep_pending l 1 (reconstruct (diffPixel dr dg db s.prev)) s (reconstruct_pending l _ _)
  | luma dg dr db => exact chunkStep_pending l 2 (reconstruct (lumaPixel dg dr db s.prev)) s (reconstruct_pending l _ _)

theorem emit_pending (l : List HostAct) (i : Instr) (s : State) :
    emit i (s.withPending l) = (emit i s).map (State.withPending l) := outAppendAll_pending l _ _

theorem emitRun_pending (l : List HostAct) (s : State) :
    emitRun (s.withPending l) = (emitRun s).map (State.withPending l) := by
  unfold emitRun
  rw [emit_pending]
  cases emit (.run s.run.toNat) s <;> rfl

theorem encPixel_pending (l : List HostAct) (cur : Pixel) (s : State) :
    encPixel cur (s.withPending l) = (encPixel cur s).map (State.withPending l) := by
  unfold encPixel
  show (if cur = s.prev then _ else _) = _
  split
  · unfold runDet
    show (if (s.run + 1#6 = 62#6 ∨ s.lastPixel = true) then
      emitRun (State.withPending l (s.setRun (s.run + 1#6))) else _) = _
    rw [emitRun_pending]
    show _ = Option.map (State.withPending l) (if (s.run + 1#6 = 62#6 ∨ s.lastPixel = true) then
      emitRun (s.setRun (s.run + 1#6)) else some (s.setRun (s.run + 1#6)))
    by_cases h : (s.run + 1#6 = 62#6 ∨ s.lastPixel = true)
    · rw [if_pos h, if_pos h]
    · rw [if_neg h, if_neg h]; rfl
  · have hf : runFlush (s.withPending l) = (runFlush s).map (State.withPending l) := by
      unfold runFlush
      rw [emitRun_pending]
      show (if s.run = 0#6 then _ else _) = _
      split <;> simp_all
    rw [hf]
    cases runFlush s with
    | none => rfl
    | some t =>
      show encCachedOrMiss cur (t.withPending l) = (encCachedOrMiss cur t).map (State.withPending l)
      rw [encCachedOrMiss_eq, encCachedOrMiss_eq]
      have h1 : tierCache cur (t.withPending l) = State.withPending l (tierCache cur t) := by
        unfold tierCache
        show (if t.cacheHit cur = true then t.withPending l
          else State.withPending l (t.cacheWrite (pixelHash cur) cur)) = _
        by_cases h : t.cacheHit cur = true
        · rw [if_pos h, if_pos h]
        · rw [if_neg h, if_neg h]
      rw [show tierInstr cur (t.withPending l) = tierInstr cur t from rfl, h1]
      exact emit_pending l _ _

end Sys2Proof.Machine
end

