-- ==== Sys2Proof/Laws/PerInstr.lean ====
section
/-! SUPPORT. One statement for every instruction: the first byte of its encoding tells its kind and its length
(30_encoding.md R100, R101). -/

namespace Sys2Proof.Laws.TagLength

/-- The tag byte of a well-formed instruction's encoding gives the instruction's kind and the number of its bytes. -/
def Statement (i : Instr) : Prop :=
  wellFormed i = true → ∃ b rest, encode i = b :: rest ∧ kind b = i.kind ∧ tagLength b = (encode i).length

theorem rgb (r g b : Byte) : Statement (.rgb r g b) :=
  fun _ => ⟨0xFE#8, [r, g, b], rfl, (by decide : kind 0xFE#8 = .rgb), (by decide : tagLength 0xFE#8 = 4)⟩

theorem rgba (r g b a : Byte) : Statement (.rgba r g b a) :=
  fun _ => ⟨0xFF#8, [r, g, b, a], rfl, (by decide : kind 0xFF#8 = .rgba), (by decide : tagLength 0xFF#8 = 5)⟩

theorem kind_index : ∀ k : BitVec 6, kind (0b00#2 ++ k) = .index := by decide

theorem index (k : BitVec 6) : Statement (.index k) :=
  fun _ => ⟨0b00#2 ++ k, [], rfl, kind_index k, by rw [tagLength, kind_index]; rfl⟩

theorem kind_diff : ∀ x y z : BitVec 2, kind (0b01#2 ++ x ++ y ++ z) = .diff := by decide

theorem diff (dr dg db : Int) : Statement (.diff dr dg db) :=
  fun _ => ⟨_, [], rfl, kind_diff _ _ _, by rw [tagLength, kind_diff]; rfl⟩

theorem kind_luma : ∀ x : BitVec 6, kind (0b10#2 ++ x) = .luma := by decide

theorem luma (dg drOff dbOff : Int) : Statement (.luma dg drOff dbOff) :=
  fun _ => ⟨_, _, rfl, kind_luma _, by rw [tagLength, kind_luma]; rfl⟩

theorem kind_run : ∀ x : BitVec 6, x.toNat < 62 → kind (0b11#2 ++ x) = .run := by decide

theorem run (n : Nat) : Statement (.run n) := by
  intro h
  simp only [wellFormed, runLengthOk, Bool.and_eq_true, decide_eq_true_eq] at h
  have hk : kind (0b11#2 ++ BitVec.ofNat 6 (n - 1)) = .run := kind_run _ (by rw [BitVec.toNat_ofNat]; omega)
  exact ⟨_, [], rfl, hk, by rw [tagLength, hk]; rfl⟩

end Sys2Proof.Laws.TagLength
end

