-- ==== Sys2Proof/Tests/Slice0.lean ====
section
/-! SUPPORT. The model's own tests, with expected values from spec/95_test_vectors.md (S and section numbers name its
vectors), and for every statement with hypotheses a state that meets them. -/

set_option maxRecDepth 20000

namespace Sys2Proof.Tests

open Sys2Proof.Machine

/-! ## Well-formedness: for each check a term it refuses, beside one at each end of its range -/

theorem test_diff_red_low : wellFormed (.diff (-3) 0 0) = false ∧ wellFormed (.diff (-2) 0 0) = true := by decide
theorem test_diff_red_high : wellFormed (.diff 2 0 0) = false ∧ wellFormed (.diff 1 0 0) = true := by decide
theorem test_diff_green_low : wellFormed (.diff 0 (-3) 0) = false ∧ wellFormed (.diff 0 (-2) 0) = true := by decide
theorem test_diff_green_high : wellFormed (.diff 0 2 0) = false ∧ wellFormed (.diff 0 1 0) = true := by decide
theorem test_diff_blue_low : wellFormed (.diff 0 0 (-3)) = false ∧ wellFormed (.diff 0 0 (-2)) = true := by decide
theorem test_diff_blue_high : wellFormed (.diff 0 0 2) = false ∧ wellFormed (.diff 0 0 1) = true := by decide
theorem test_luma_green_low : wellFormed (.luma (-33) 0 0) = false ∧ wellFormed (.luma (-32) 0 0) = true := by decide
theorem test_luma_green_high : wellFormed (.luma 32 0 0) = false ∧ wellFormed (.luma 31 0 0) = true := by decide
theorem test_luma_red_low : wellFormed (.luma 0 (-9) 0) = false ∧ wellFormed (.luma 0 (-8) 0) = true := by decide
theorem test_luma_red_high : wellFormed (.luma 0 8 0) = false ∧ wellFormed (.luma 0 7 0) = true := by decide
theorem test_luma_blue_low : wellFormed (.luma 0 0 (-9)) = false ∧ wellFormed (.luma 0 0 (-8)) = true := by decide
theorem test_luma_blue_high : wellFormed (.luma 0 0 8) = false ∧ wellFormed (.luma 0 0 7) = true := by decide
theorem test_run_low : wellFormed (.run 0) = false ∧ wellFormed (.run 1) = true := by decide
theorem test_run_high : wellFormed (.run 63) = false ∧ wellFormed (.run 62) = true := by decide

/-! ## Decoding: words written out bit by bit from R94 to R99 -/

/-- R94: `00iiiiii`, slots 0, 10 and 63. -/
theorem test_decode_index : decode [0b00000000#8] = .ok (.index 0#6, []) ∧ decode [0b00001010#8] = .ok (.index 10#6, [])
    ∧ decode [0b00111111#8] = .ok (.index 63#6, []) := by decide
/-- R95: `01rrggbb`, fields minus 2; three different fields. -/
theorem test_decode_diff : decode [0b01000000#8] = .ok (.diff (-2) (-2) (-2), []) ∧ decode [0b01111111#8] = .ok (.diff 1 1 1, [])
    ∧ decode [0b01011011#8] = .ok (.diff (-1) 0 1, []) := by decide
/-- R96: `10gggggg rrrrbbbb`, fields minus 32, 8 and 8 (2.3: `BF F0` and `A2 79`). -/
theorem test_decode_luma : decode [0b10111111#8, 0b11110000#8] = .ok (.luma 31 7 (-8), [])
    ∧ decode [0b10100010#8, 0b01111001#8] = .ok (.luma 2 (-1) 1, [])
    ∧ decode [0b10000000#8, 0b00000000#8, 7#8] = .ok (.luma (-32) (-8) (-8), [7#8]) := by decide
/-- R97: `11llllll`, the field plus 1. -/
theorem test_decode_run : decode [0b11000000#8] = .ok (.run 1, []) ∧ decode [0b11000001#8] = .ok (.run 2, [])
    ∧ decode [0b11111101#8] = .ok (.run 62, []) := by decide
/-- R98, S5: `FE` is RGB and never RUN 63. -/
theorem test_decode_rgb : decode [0b11111110#8, 0xC0#8, 0xC1#8, 0xC2#8, 5#8] = .ok (.rgb 0xC0#8 0xC1#8 0xC2#8, [5#8]) := by
  decide
/-- R99, S5: `FF` is RGBA and never RUN 64. -/
theorem test_decode_rgba : decode [0b11111111#8, 1#8, 2#8, 3#8, 4#8] = .ok (.rgba 1#8 2#8 3#8 4#8, []) := by decide
/-- Missing bytes are refused by name. -/
theorem test_decode_missing : decode [] = .error .noTagByte ∧ decode [0xFE#8, 1#8, 2#8] = .error (.operandBytesMissing .rgb)
    ∧ decode [0xFF#8, 1#8, 2#8, 3#8] = .error (.operandBytesMissing .rgba)
    ∧ decode [0x80#8] = .error (.operandBytesMissing .luma) := by decide
/-- R102: the encoder's bytes, from the vectors of 2.3 and 2.4. -/
theorem test_encode : encode (.luma 10 0 0) = [0xAA#8, 0x88#8] ∧ encode (.luma (-32) (-8) 7) = [0x80#8, 0x0F#8]
    ∧ encode (.diff (-1) 1 0) = [0x5E#8] ∧ encode (.diff 0 (-2) 0) = [0x62#8] ∧ encode (.run 2) = [0xC1#8]
    ∧ encode (.index 9#6) = [0x09#8] ∧ encode (.rgb 100#8 50#8 25#8) = [0xFE#8, 0x64#8, 0x32#8, 0x19#8]
    ∧ encode (.rgba 1#8 2#8 3#8 4#8) = [0xFF#8, 1#8, 2#8, 3#8, 4#8] := by decide
/-- The opcode table's numbering: the first byte lowest, bits beyond `nbits` zero. -/
theorem test_table_word : decodeTableWord 32 0x030201FE = some (.rgb 1#8 2#8 3#8)
    ∧ decodeTableWord 8 0xFF = some (.rgba 0#8 0#8 0#8 0#8) ∧ decodeTableWord 16 0x8FBF = some (.luma 31 0 7)
    ∧ decodeTableWord 8 0xFFC0 = some (.run 1) := by decide

/-! ## The hash (2.1) -/

theorem test_hash : pixelHash ⟨0#8, 0#8, 0#8, 255#8⟩ = 53#6 ∧ pixelHash ⟨255#8, 255#8, 255#8, 255#8⟩ = 38#6
    ∧ pixelHash ⟨1#8, 2#8, 3#8, 4#8⟩ = 14#6 ∧ pixelHash ⟨10#8, 20#8, 30#8, 128#8⟩ = 20#6 := by decide

/-! ## States to step from -/

/-- A register map of 32-bit addresses. -/
def mapAt : CsrMap :=
  { addressBits := 32, cmd := 0, status := 4, width := 8, height := 12, channels := 16, colorspace := 20, inBase := 24,
    inLen := 28, outBase := 32, outLen := 36 }

/-- The body of a DECODE after OPINIT, the chunk region holding `bs`. -/
def decodeAt (ch : Byte) (bs : List Byte) : State :=
  { State.reset with
    state := .busy, unread := true, op := .decode, phase := .body, channels := ch, inBase := 100, inLen := bs.length + 22, outBase := 1000,
    outCapacity := 400, pos := 14, mem := Memory.writeList [] 114 bs }

/-- The body of an ENCODE after OPINIT and HEADER_EMIT, one row of pixels, their bytes `bs`. -/
def encodeAt (w : Word32) (ch : Byte) (bs : List Byte) : State :=
  { State.reset with
    state := .busy, unread := true, op := .encode, phase := .body, width := w, height := 1#32, channels := ch, inBase := 100,
    inLen := bs.length, outBase := 1000, outLen := 14, outCapacity := 400, mem := Memory.writeList [] 100 bs }

/-- An issued operation at OPINIT, with `MAGIC` `01 02 03 04`. -/
def startAt (op : Op) (w h : Word32) (ch cs : Byte) (bs : List Byte) : State :=
  { State.reset with
    state := .busy, unread := true, op := op, width := w, height := h, channels := ch, colorspace := cs, inBase := 100,
    inLen := bs.length, outBase := 1000, outCapacity := 400, mem := Memory.writeList [] 100 bs,
    params := ⟨#v[1#8, 2#8, 3#8, 4#8], true, mapAt⟩ }

/-- The same at a later step of `PHASE = HDR`. -/
def headerAt (k : HdrStep) (op : Op) (w h : Word32) (ch cs : Byte) (bs : List Byte) : State :=
  { startAt op w h ch cs bs with hdrStep := k }

/-- An idle engine with host actions pending. -/
def hostAt (l : List HostAct) : State :=
  { State.reset with host := l, params := ⟨#v[1#8, 2#8, 3#8, 4#8], false, mapAt⟩ }

/-- A field of the next state. -/
def after {α : Type} (f : State → α) (o : Host.Outcome State Fault Refusal) : Option α :=
  match o with
  | .next t => some (f t)
  | _ => none

/-- The reason a step stopped. -/
def stopped (o : Host.Outcome State Fault Refusal) : Option (Fault ⊕ Refusal) :=
  match o with
  | .next _ => none
  | .fault f => some (.inl f)
  | .refused r => some (.inr r)

/-- The output, byte by byte. -/
def output (t : State) : List (Option Byte) := (List.range t.outLen).map (fun k => t.mem.read (t.outBase + k))

/-- What a DECODE step shows: the output, `prev`, and a cache slot. -/
def shown (i : BitVec 6) (t : State) : List (Option Byte) × Pixel × Pixel := (output t, t.prev, t.cacheRead i)

/-! ## DECODE, one step each (2.4) -/

theorem test_rgb : after (shown 23#6) (step (decodeAt 3#8 [0xFE#8, 1#8, 2#8, 3#8]))
    = some ([some 1#8, some 2#8, some 3#8], ⟨1#8, 2#8, 3#8, 255#8⟩, ⟨1#8, 2#8, 3#8, 255#8⟩) := by decide
/-- S5, and that the chunk is four bytes long. -/
theorem test_rgb_not_run : after (fun t => (output t, t.pos)) (step (decodeAt 3#8 [0xFE#8, 0xC0#8, 0xC0#8, 0xC0#8]))
    = some ([some 0xC0#8, some 0xC0#8, some 0xC0#8], 18) := by decide
theorem test_rgba_four_channels : after (shown 14#6) (step (decodeAt 4#8 [0xFF#8, 1#8, 2#8, 3#8, 4#8]))
    = some ([some 1#8, some 2#8, some 3#8, some 4#8], ⟨1#8, 2#8, 3#8, 4#8⟩, ⟨1#8, 2#8, 3#8, 4#8⟩) := by decide
theorem test_rgba_three_channels : after (shown 41#6) (step (decodeAt 3#8 [0xFF#8, 10#8, 11#8, 12#8, 128#8]))
    = some ([some 10#8, some 11#8, some 12#8], ⟨10#8, 11#8, 12#8, 128#8⟩, ⟨10#8, 11#8, 12#8, 128#8⟩) := by decide
theorem test_index_unwritten : after (shown 5#6) (step (decodeAt 4#8 [5#8]))
    = some ([some 0#8, some 0#8, some 0#8, some 0#8], zeroPixel, zeroPixel) := by decide
theorem test_index_written :
    after (shown 30#6) (step ((decodeAt 3#8 [0x1E#8]).cacheUpdate ⟨10#8, 11#8, 12#8, 255#8⟩))
    = some ([some 10#8, some 11#8, some 12#8], ⟨10#8, 11#8, 12#8, 255#8⟩, ⟨10#8, 11#8, 12#8, 255#8⟩) := by decide
theorem test_diff_smallest : after (shown 23#6) (step (decodeAt 3#8 [0x40#8]))
    = some ([some 254#8, some 254#8, some 254#8], ⟨254#8, 254#8, 254#8, 255#8⟩, ⟨254#8, 254#8, 254#8, 255#8⟩) := by decide
theorem test_diff_wraps : after (shown 1#6) (step ((decodeAt 3#8 [0x7F#8]).setPrev ⟨255#8, 0#8, 0#8, 255#8⟩))
    = some ([some 0#8, some 1#8, some 1#8], ⟨0#8, 1#8, 1#8, 255#8⟩, ⟨0#8, 1#8, 1#8, 255#8⟩) := by decide
theorem test_luma_largest : after (shown 12#6) (step (decodeAt 3#8 [0xBF#8, 0xFF#8]))
    = some ([some 0x26#8, some 0x1F#8, some 0x26#8], ⟨38#8, 31#8, 38#8, 255#8⟩, ⟨38#8, 31#8, 38#8, 255#8⟩) := by decide
/-- P3: `9F 8F` is `dg = -1`, `dr = -1`, `db = 6`. -/
theorem test_luma_offsets : after (shown 44#6) (step ((decodeAt 3#8 [0x9F#8, 0x8F#8]).setPrev ⟨100#8, 50#8, 25#8, 255#8⟩))
    = some ([some 99#8, some 49#8, some 31#8], ⟨99#8, 49#8, 31#8, 255#8⟩, ⟨99#8, 49#8, 31#8, 255#8⟩) := by decide
theorem test_run_one : after (shown 53#6) (step (decodeAt 3#8 [0xC0#8]))
    = some ([some 0#8, some 0#8, some 0#8], ⟨0#8, 0#8, 0#8, 255#8⟩, zeroPixel) := by decide
theorem test_run_longest : after (fun t => (t.outLen, t.pos)) (step (decodeAt 3#8 [0xFD#8])) = some (186, 15) := by decide
/-- 2.4, TRUNC: 14 + 4 > 16. -/
theorem test_truncated : after (fun t => (t.state, t.err, t.outLen)) (step (decodeAt 3#8 [0xFE#8, 1#8]))
    = some (.error, .truncatedStream, 0) := by decide
/-- R68: no room for a pixel. -/
theorem test_stuck : stopped (step { decodeAt 3#8 [0xC0#8] with outCapacity := 2 }) = some (.inl .outputStuck) := by decide
theorem test_decode_stop : after (fun t => (t.state, t.err, t.outLen)) (step (decodeAt 3#8 []))
    = some (.done, .noError, 0) := by decide

/-! ## ENCODE, one step each (2.3) -/

/-- S1, the first pixel. -/
theorem test_enc_luma : after (fun t => (t.mem.read 1014, t.mem.read 1015, t.outLen, t.pix, t.phase))
    (step (encodeAt 2#32 3#8 [10#8, 10#8, 10#8, 10#8, 10#8, 10#8])) = some (some 0xAA#8, some 0x88#8, 16, 1, .body) := by decide
/-- S1, the second pixel: the last, equal to `prev`. -/
theorem test_enc_last_run : after (fun t => (t.mem.read 1014, t.outLen, t.run, t.phase))
    (step { (encodeAt 2#32 3#8 [10#8, 10#8, 10#8, 10#8, 10#8, 10#8]).setPrev ⟨10#8, 10#8, 10#8, 255#8⟩ with pix := 1 })
    = some (some 0xC0#8, 15, 0#6, .ftr) := by decide
/-- S6: `dr = -2` is DIFF, `dr = -3` is LUMA. -/
theorem test_enc_diff_bound : after (fun t => (t.mem.read 1014, t.outLen)) (step (encodeAt 1#32 3#8 [254#8, 0#8, 0#8]))
    = some (some 0x4A#8, 15) := by decide
theorem test_enc_luma_bound : after (fun t => (t.mem.read 1014, t.mem.read 1015)) (step (encodeAt 1#32 3#8 [253#8, 0#8, 0#8]))
    = some (some 0xA0#8, some 0x58#8) := by decide
theorem test_enc_rgb : after (fun t => (t.mem.read 1014, t.mem.read 1015, t.outLen)) (step (encodeAt 1#32 3#8 [8#8, 0#8, 0#8]))
    = some (some 0xFE#8, some 8#8, 18) := by decide
/-- S2. -/
theorem test_enc_rgba : after (fun t => (t.mem.read 1014, t.mem.read 1018, t.prev, t.cacheRead 14#6))
    (step (encodeAt 1#32 4#8 [1#8, 2#8, 3#8, 4#8]))
    = some (some 0xFF#8, some 4#8, ⟨1#8, 2#8, 3#8, 4#8⟩, ⟨1#8, 2#8, 3#8, 4#8⟩) := by decide
theorem test_enc_index_zero : after (fun t => (t.mem.read 1014, t.prev)) (step (encodeAt 1#32 4#8 [0#8, 0#8, 0#8, 0#8]))
    = some (some 0x00#8, zeroPixel) := by decide
/-- R175: the 62nd pixel of a run. -/
theorem test_enc_full_run : after (fun t => (t.mem.read 1014, t.outLen, t.run))
    (step ((encodeAt 2#32 3#8 [0#8, 0#8, 0#8, 0#8, 0#8, 0#8]).setRun 61#6)) = some (some 0xFD#8, 15, 0#6) := by decide
/-- 2.3: RUNFLUSH of `RUN 2` before `DIFF 1, 0, 0`. -/
theorem test_enc_flush : after (fun t => (t.mem.read 1014, t.mem.read 1015, t.run))
    (step (((encodeAt 1#32 3#8 [101#8, 50#8, 25#8]).setPrev ⟨100#8, 50#8, 25#8, 255#8⟩).setRun 2#6))
    = some (some 0xC1#8, some 0x7A#8, 0#6) := by decide

/-! ## Framing, checks and errors (2.2, 2.3, 2.4) -/

theorem test_header_emit : after output (step (headerAt .header .encode 256#32 128#32 4#8 1#8 []))
    = some [some 1#8, some 2#8, some 3#8, some 4#8, some 0#8, some 0#8, some 1#8, some 0#8,
            some 0#8, some 0#8, some 0#8, some 128#8, some 4#8, some 1#8] := by decide
theorem test_header_parse : after (fun t => (t.width, t.height, t.channels, t.colorspace, t.pos, t.phase))
    (step (headerAt .header .decode 7#32 7#32 7#8 7#8
      [1#8, 2#8, 3#8, 4#8, 0#8, 0#8, 1#8, 0#8, 0#8, 0#8, 0#8, 0x80#8, 4#8, 1#8]))
    = some (256#32, 128#32, 4#8, 1#8, 14, .body) := by decide
/-- The magic before the channel count, the channel count before the colorspace. -/
theorem test_header_errors :
    after State.err (step (headerAt .header .decode 0#32 0#32 0#8 0#8
      [9#8, 2#8, 3#8, 4#8, 0#8, 0#8, 0#8, 1#8, 0#8, 0#8, 0#8, 1#8, 5#8, 2#8])) = some .badMagic
    ∧ after State.err (step (headerAt .header .decode 0#32 0#32 0#8 0#8
      [1#8, 2#8, 3#8, 4#8, 0#8, 0#8, 0#8, 1#8, 0#8, 0#8, 0#8, 1#8, 5#8, 2#8])) = some .invalidChannelCount
    ∧ after State.err (step (headerAt .header .decode 0#32 0#32 0#8 0#8
      [1#8, 2#8, 3#8, 4#8, 0#8, 0#8, 0#8, 1#8, 0#8, 0#8, 0#8, 1#8, 3#8, 2#8])) = some .invalidColorspace := by decide
theorem test_enc_errors :
    after State.err (step (headerAt .check .encode 1#32 1#32 5#8 2#8 [1#8, 1#8, 1#8, 1#8, 1#8])) = some .invalidChannelCount
    ∧ after State.err (step (headerAt .check .encode 1#32 1#32 3#8 2#8 [1#8, 1#8, 1#8])) = some .invalidColorspace
    ∧ after State.err (step (headerAt .check .encode 1#32 2#32 3#8 0#8 [1#8, 1#8, 1#8])) = some .invalidInputLength
    ∧ after State.hdrStep (step (headerAt .check .encode 0#32 5#32 3#8 0#8 [])) = some .header := by decide
/-- P7: an image of no pixels has no body. -/
theorem test_zero_area : after (fun t => (t.phase, t.outLen)) (step (headerAt .header .encode 0#32 5#32 3#8 0#8 []))
    = some (.ftr, 14) := by decide
theorem test_footer : after (fun t => (t.state, t.outLen, t.mem.read 1006, t.mem.read 1007))
    (step { headerAt .header .encode 0#32 5#32 3#8 0#8 [] with phase := .ftr }) = some (.done, 8, some 0#8, some 1#8) := by decide

/-! ## The host -/

theorem test_issue : after (fun t => (t.state, t.op, t.outLen)) (step { hostAt [.issue .decode] with outLen := 5 })
    = some (.busy, .decode, 0) := by decide
theorem test_poll : after (fun t => (t.answer, t.state)) (step { decodeAt 3#8 [] with host := [.readStatus] })
    = some (.status 1#2 0#3, .busy) := by decide
theorem test_write_while_busy :
    stopped (step { decodeAt 3#8 [] with host := [.writeWidth 1#32] }) = some (.inr .hostAccessWhileBusy) := by decide
/-- Awaiting an engine that is not `BUSY` is over at once, with the poll that reads its state. -/
theorem test_await_ends : after (fun t => (t.host, t.answer, t.unread))
    (step { hostAt [.await] with state := .done, unread := true }) = some ([], .status 2#2 0#3, false) := by decide
/-- R71, R297: results read before the final `STATUS` are no move of the host; after it they are. -/
theorem test_read_before_poll : stopped (step { hostAt [.readReg .outLen] with state := .done, unread := true })
      = some (.inr .finalStatusUnread)
    ∧ after (fun t => t.unread) (step { hostAt [.readStatus] with state := .done, unread := true }) = some false
    ∧ after (fun t => t.answer) (step { hostAt [.readReg .outLen] with state := .done, outLen := 7 })
      = some (.number 7) := by decide
/-- R37: the bus reaches the register `CSR_MAP` places, and nothing elsewhere; R36: `STATUS` takes no write. -/
theorem test_bus : after (fun t => (t.width, t.height)) (step (hostAt [.busWrite 8 9])) = some (9#32, 0#32)
    ∧ after State.answer (step { hostAt [.busRead 16] with channels := 4#8 }) = some (.number 4)
    ∧ stopped (step (hostAt [.busWrite 4 1])) = some (.inr .noSuchAccess)
    ∧ stopped (step (hostAt [.busRead 7])) = some (.inr .noSuchAccess)
    ∧ stopped (step (hostAt [.busWrite 16 256])) = some (.inr .noSuchAccess) := by decide
/-- R293 duty 3: one of two input bytes is missing. -/
theorem test_issue_unplaced :
    stopped (step { hostAt [.issue .decode] with inBase := 5, inLen := 2, mem := [(5, 1#8)] })
      = some (.inr .inputNotPlaced) := by decide
/-- R60: the last address of 32 bits exists, the next does not. -/
theorem test_address_width : after (fun t => t.mem) (step (hostAt [.placeByte 4294967295 1#8])) = some [(4294967295, 1#8)]
    ∧ stopped (step (hostAt [.placeByte 4294967296 1#8])) = some (.inl .noSuchAddress) := by decide

/-! ## The instruction placed first after reset -/

theorem test_placed_rgb : after State.prev (step (State.reset.withFetchWord 32 0x030201FE)) = some ⟨1#8, 2#8, 3#8, 255#8⟩ := by
  decide
theorem test_placed_run : step (State.reset.withFetchWord 8 0xFD) = exec (.run 62) (State.reset.withFetchWord 8 0xFD) := by rfl

/-! ## Memory -/

theorem test_memory_overwrite : (Memory.write (Memory.write [] 5 1#8) 5 2#8).read 5 = some 2#8
    ∧ (Memory.write (Memory.write [] 5 1#8) 4 2#8) = [(4, 2#8), (5, 1#8)] ∧ Memory.read [] 5 = none := by decide
theorem test_reset_memory : State.reset.mem.wf := by decide

/-! ## Witnesses: for each statement with hypotheses, a state and operands that meet all of them, clause by clause -/

/-- One pixel `(10,10,10)` to encode, with exactly the room R68 asks for. -/
def encodeReadyState : State :=
  { startAt .encode 1#32 1#32 3#8 0#8 [10#8, 10#8, 10#8] with outCapacity := 26 }

/-- An input of 23 bytes to decode. -/
def decodeStartState : State :=
  { startAt .decode 0#32 0#32 0#8 0#8 ([1#8, 2#8, 3#8, 4#8, 0#8, 0#8, 0#8, 1#8, 0#8, 0#8, 0#8, 1#8, 3#8, 0#8, 0xC0#8]
      ++ [0#8, 0#8, 0#8, 0#8, 0#8, 0#8, 0#8, 1#8]) with outCapacity := 248 }

theorem engineMoves_decodeAt (ch : Byte) (bs : List Byte) : (decodeAt ch bs).engineMoves := ⟨rfl, rfl⟩
theorem engineMoves_encodeAt (w : Word32) (ch : Byte) (bs : List Byte) : (encodeAt w ch bs).engineMoves := ⟨rfl, rfl⟩
theorem engineMoves_headerAt (k : HdrStep) (op : Op) (w h : Word32) (ch cs : Byte) (bs : List Byte) :
    (headerAt k op w h ch cs bs).engineMoves := ⟨rfl, rfl⟩

theorem inv_decodeAt : (decodeAt 3#8 [0xC0#8]).Inv := by
  refine ⟨by decide, by decide, by decide, by decide, fun _ => ⟨by decide, by decide, ?_⟩⟩
  exact ⟨⟨by decide, by decide⟩, by decide, by decide⟩

theorem inv_encodeAt : (encodeAt 1#32 3#8 [10#8, 10#8, 10#8]).Inv := by
  refine ⟨by decide, by decide, by decide, by decide, fun _ => ⟨by decide, by decide, ?_⟩⟩
  exact ⟨⟨⟨by decide, by decide⟩, by decide⟩, by decide, by decide, by decide⟩

theorem inv_reset : State.reset.Inv :=
  ⟨by decide, by decide, by decide, by decide, fun h => absurd h (by decide)⟩

theorem witness_EncodedChunksDecodeBack : wellFormed (.rgb 1#8 2#8 3#8) = true ∧ wellFormed (.rgba 1#8 2#8 3#8 4#8) = true
    ∧ wellFormed (.index 63#6) = true ∧ wellFormed (.diff (-2) 1 0) = true ∧ wellFormed (.luma 31 (-8) 7) = true
    ∧ wellFormed (.run 62) = true := by decide

theorem witness_DecodedBytesAreTheEncoding : decode [0x9F#8, 0x8F#8, 9#8] = .ok (.luma (-1) 0 7, [9#8]) := by decide

/-- Both ends of each range of R103. -/
theorem witness_TagByteRangesGiveKindAndLength : kind 0x00#8 = .index ∧ kind 0x3F#8 = .index ∧ kind 0x40#8 = .diff
    ∧ kind 0x7F#8 = .diff ∧ kind 0x80#8 = .luma ∧ kind 0xBF#8 = .luma ∧ kind 0xC0#8 = .run ∧ kind 0xFD#8 = .run
    ∧ kind 0xFE#8 = .rgb ∧ kind 0xFF#8 = .rgba ∧ tagLength 0x3F#8 = 1 ∧ tagLength 0x40#8 = 1 ∧ tagLength 0x80#8 = 2
    ∧ tagLength 0xFD#8 = 1 ∧ tagLength 0xFE#8 = 4 ∧ tagLength 0xFF#8 = 5 := by decide

/-- 2.1: `(10,10,10)` and `(74,10,10)`. -/
theorem witness_CollidingUpdateOverwritesTheSlot :
    pixelHash ⟨10#8, 10#8, 10#8, 255#8⟩ = pixelHash ⟨74#8, 10#8, 10#8, 255#8⟩
      ∧ (⟨10#8, 10#8, 10#8, 255#8⟩ : Pixel) ≠ ⟨74#8, 10#8, 10#8, 255#8⟩ := by decide

theorem witness_StepRunsTheFetchedChunk :
    let s := decodeAt 3#8 [0x9F#8, 0x8F#8]
    s.atChunk ∧ s.readInBytes s.pos 2 = some [0x9F#8, 0x8F#8] ∧ decode [0x9F#8, 0x8F#8] = .ok (.luma (-1) 0 7, [])
      ∧ s.truncated 2 = false := ⟨⟨engineMoves_decodeAt _ _, rfl, rfl, by decide⟩, by decide, by decide, by decide⟩

theorem witness_StepRunsTheFetchedChunk_truncated :
    let s := decodeAt 3#8 [0xFE#8, 1#8]
    s.atChunk ∧ s.readIn s.pos = some 0xFE#8 ∧ s.truncated (tagLength 0xFE#8) = true :=
  ⟨⟨engineMoves_decodeAt _ _, rfl, rfl, by decide⟩, by decide, by decide⟩

theorem witness_ChunksBeyondTheRegionAreTruncated :
    let s := decodeAt 3#8 [0xFE#8, 1#8, 2#8]
    s.inLen < s.pos + (Instr.rgb 1#8 2#8 3#8).length + 8 ∧ s.pos + 8 < s.inLen := by decide

/-- One byte short of the chunk, for RGB, RGBA and LUMA. -/
theorem witness_truncated_clauses :
    (decodeAt 3#8 [0xFE#8, 1#8, 2#8]).inLen < (decodeAt 3#8 [0xFE#8, 1#8, 2#8]).pos + 4 + 8
      ∧ (decodeAt 3#8 [0xFF#8, 1#8, 2#8, 3#8]).inLen < (decodeAt 3#8 [0xFF#8, 1#8, 2#8, 3#8]).pos + 5 + 8
      ∧ (decodeAt 3#8 [0x80#8]).inLen < (decodeAt 3#8 [0x80#8]).pos + 2 + 8 := by decide

theorem witness_RgbReplacesColourKeepsAlpha :
    let s := { decodeAt 4#8 [0xFE#8, 1#8, 2#8, 3#8] with outCapacity := 4 }
    s.pos + 4 + 8 ≤ s.inLen ∧ s.fits (if s.channels = 4#8 then 4 else 3) := ⟨by decide, by unfold State.fits; decide⟩

theorem witness_RgbaReplacesAllFourChannels :
    let s := { decodeAt 3#8 [0xFF#8, 1#8, 2#8, 3#8, 4#8] with outCapacity := 3 }
    s.pos + 5 + 8 ≤ s.inLen ∧ s.fits (if s.channels = 4#8 then 4 else 3) := ⟨by decide, by unfold State.fits; decide⟩

/-- INDEX and DIFF. -/
theorem witness_IndexAndDiff :
    let s := { decodeAt 3#8 [0x40#8] with outCapacity := 3 }
    s.pos + 1 + 8 ≤ s.inLen ∧ s.fits (if s.channels = 4#8 then 4 else 3) := ⟨by decide, by unfold State.fits; decide⟩

theorem witness_LumaAddsGreenAndOffsetsModulo256 :
    let s := { decodeAt 3#8 [0x80#8, 0#8] with outCapacity := 3 }
    s.pos + 2 + 8 ≤ s.inLen ∧ s.fits (if s.channels = 4#8 then 4 else 3) := ⟨by decide, by unfold State.fits; decide⟩

/-- The longest run, with exactly the room it needs. -/
theorem witness_RunRepeatsThePreviousPixel :
    let s := { decodeAt 4#8 [0xFD#8] with outCapacity := 248 }
    s.pos + 1 + 8 ≤ s.inLen ∧ s.fits (62 * (if s.channels = 4#8 then 4 else 3)) := ⟨by decide, by unfold State.fits; decide⟩

/-- Each channel count. -/
theorem witness_PixelOutFollowsTheChannelCount :
    (decodeAt 4#8 []).fits (if (decodeAt 4#8 []).channels = 4#8 then 4 else 3) ∧ (decodeAt 4#8 []).channels = 4#8
      ∧ (decodeAt 3#8 []).fits (if (decodeAt 3#8 []).channels = 4#8 then 4 else 3) ∧ (decodeAt 3#8 []).channels = 3#8 :=
  ⟨by unfold State.fits; decide, rfl, by unfold State.fits; decide, rfl⟩

/-- A chunk of each of the statement's special kinds, and another. -/
theorem witness_ChunksLeaveEverythingElse :
    let s := decodeAt 3#8 [0xC0#8]
    s.pos + 1 + 8 ≤ s.inLen ∧ (after State.pos (exec (.run 1) s)).isSome = true
      ∧ (after State.pos (exec (.index 3#6) s)).isSome = true ∧ (after State.pos (exec (.diff 0 0 0) s)).isSome = true := by
  decide

theorem witness_ChunksBeyondTheCapacityAreStuck :
    let s := { decodeAt 3#8 [0xC1#8] with outCapacity := 5 }
    wellFormed (.run 2) = true ∧ s.pos + 1 + 8 ≤ s.inLen ∧ ¬ s.fits (2 * (if s.channels = 4#8 then 4 else 3)) :=
  ⟨by decide, by decide, by unfold State.fits; decide⟩

/-- The header and the footer of an ENCODE, one byte short. -/
theorem witness_ChunksBeyondTheCapacityAreStuck_framing :
    let s := { headerAt .header .encode 1#32 1#32 3#8 0#8 [] with outCapacity := 13 }
    let t := { encodeAt 0#32 3#8 [] with phase := .ftr, outCapacity := 21 }
    (s.engineMoves ∧ s.op = .encode ∧ s.phase = .hdr ∧ s.hdrStep = .header ∧ ¬ s.fits 14)
      ∧ (t.engineMoves ∧ t.op = .encode ∧ t.phase = .ftr ∧ ¬ t.fits 8) :=
  ⟨⟨⟨rfl, rfl⟩, rfl, rfl, rfl, by unfold State.fits; decide⟩, ⟨⟨rfl, rfl⟩, rfl, rfl, by unfold State.fits; decide⟩⟩

/-- A full run and a last pixel with no byte left, and a pixel of each chunk with its chunk one byte short: a cached one
after a pending run, DIFF, LUMA, RGB, RGBA. -/
theorem witness_ChunksBeyondTheCapacityAreStuck_pixels :
    let a := { (encodeAt 2#32 3#8 [0#8, 0#8, 0#8, 0#8, 0#8, 0#8]).setRun 61#6 with outCapacity := 14 }
    let b := { encodeAt 1#32 3#8 [0#8, 0#8, 0#8] with outCapacity := 14 }
    let c := { (encodeAt 1#32 4#8 [0#8, 0#8, 0#8, 0#8]).setRun 2#6 with outCapacity := 15 }
    let d := { encodeAt 1#32 3#8 [254#8, 1#8, 0#8] with outCapacity := 14 }
    let e := { encodeAt 1#32 3#8 [38#8, 31#8, 23#8] with outCapacity := 15 }
    let f := { encodeAt 1#32 3#8 [8#8, 0#8, 0#8] with outCapacity := 17 }
    let g := { encodeAt 1#32 4#8 [0#8, 0#8, 0#8, 254#8] with outCapacity := 18 }
    (a.atPixel prevInit ∧ prevInit = a.prev ∧ a.run.toNat = 61 ∧ ¬ a.fits 1)
      ∧ (b.atPixel prevInit ∧ prevInit = b.prev ∧ b.run.toNat ≤ 61 ∧ b.pix + 1 = b.npix ∧ ¬ b.fits 1)
      ∧ (c.atPixel zeroPixel ∧ c.cacheRead (pixelHash zeroPixel) = zeroPixel ∧ zeroPixel ≠ c.prev
          ∧ ¬ c.fits (c.pendingRun.length + 1))
      ∧ (d.atPixel ⟨254#8, 1#8, 0#8, 255#8⟩ ∧ ¬ d.fits (d.pendingRun.length + 1))
      ∧ (e.atPixel ⟨38#8, 31#8, 23#8, 255#8⟩ ∧ ¬ e.fits (e.pendingRun.length + 2))
      ∧ (f.atPixel ⟨8#8, 0#8, 0#8, 255#8⟩ ∧ ¬ f.fits (f.pendingRun.length + 4))
      ∧ (g.atPixel ⟨0#8, 0#8, 0#8, 254#8⟩ ∧ ¬ g.fits (g.pendingRun.length + 5)) := by
  unfold State.fits
  exact ⟨⟨⟨⟨rfl, rfl⟩, rfl, rfl, by decide, by decide⟩, rfl, by decide, by decide⟩,
    ⟨⟨⟨rfl, rfl⟩, rfl, rfl, by decide, by decide⟩, rfl, by decide, by decide, by decide⟩,
    ⟨⟨⟨rfl, rfl⟩, rfl, rfl, by decide, by decide⟩, by decide, by decide, by decide⟩,
    ⟨⟨⟨rfl, rfl⟩, rfl, rfl, by decide, by decide⟩, by decide⟩, ⟨⟨⟨rfl, rfl⟩, rfl, rfl, by decide, by decide⟩, by decide⟩,
    ⟨⟨⟨rfl, rfl⟩, rfl, rfl, by decide, by decide⟩, by decide⟩, ⟨⟨⟨rfl, rfl⟩, rfl, rfl, by decide, by decide⟩, by decide⟩⟩

theorem witness_AbortRecordsOnlyTheCode : (encodeAt 1#32 3#8 []).op = .encode ∧ (encodeAt 1#32 3#8 []).host = [] := ⟨rfl, rfl⟩

/-- The checks of R171, each failing first, and all passing. -/
theorem witness_EncodeChecksInOrder :
    (headerAt .check .encode 1#32 1#32 5#8 2#8 []).engineMoves ∧ (headerAt .check .encode 1#32 1#32 5#8 2#8 []).op = .encode
      ∧ (headerAt .check .encode 1#32 1#32 5#8 2#8 []).phase = .hdr ∧ (headerAt .check .encode 1#32 1#32 5#8 2#8 []).hdrStep = .check
      ∧ (headerAt .check .encode 1#32 1#32 3#8 2#8 []).engineMoves ∧ (headerAt .check .encode 1#32 1#32 4#8 0#8 []).engineMoves
      ∧ (headerAt .check .encode 0#32 1#32 4#8 0#8 []).inLen = 0 := by
  exact ⟨⟨rfl, rfl⟩, rfl, rfl, rfl, ⟨rfl, rfl⟩, ⟨rfl, rfl⟩, rfl⟩

/-- 21 and 22 bytes. -/
theorem witness_ShortStreamsAreTruncated :
    let s := headerAt .check .decode 0#32 0#32 0#8 0#8 (List.replicate 21 0#8)
    let t := headerAt .check .decode 0#32 0#32 0#8 0#8 (List.replicate 22 0#8)
    s.engineMoves ∧ s.op = .decode ∧ s.phase = .hdr ∧ s.hdrStep = .check ∧ s.inLen < 22
      ∧ t.engineMoves ∧ t.op = .decode ∧ t.phase = .hdr ∧ t.hdrStep = .check ∧ ¬ t.inLen < 22 :=
  ⟨⟨rfl, rfl⟩, rfl, rfl, rfl, by decide, ⟨rfl, rfl⟩, rfl, rfl, rfl, by decide⟩

/-- Header bytes for each clause: a wrong magic, a wrong channel count, a wrong colorspace, and a legal header. -/
theorem witness_HeaderParseChecksAndFields :
    ∀ l ∈ [[9#8, 2#8, 3#8, 4#8, 0#8, 0#8, 0#8, 1#8, 0#8, 0#8, 0#8, 1#8, 5#8, 2#8],
           [1#8, 2#8, 3#8, 4#8, 0#8, 0#8, 0#8, 1#8, 0#8, 0#8, 0#8, 1#8, 2#8, 2#8],
           [1#8, 2#8, 3#8, 4#8, 0#8, 0#8, 0#8, 1#8, 0#8, 0#8, 0#8, 1#8, 4#8, 2#8],
           [1#8, 2#8, 3#8, 4#8, 0#8, 0#8, 0#8, 1#8, 0#8, 0#8, 0#8, 1#8, 3#8, 1#8]],
      let s := headerAt .header .decode 0#32 0#32 0#8 0#8 l
      s.engineMoves ∧ s.op = .decode ∧ s.phase = .hdr ∧ s.hdrStep = .header ∧ s.params.checkMagic = true
        ∧ ∀ k, k < 14 → s.readIn k = some (l.getD k 0#8) := by
  intro l hl
  refine ⟨⟨rfl, rfl⟩, rfl, rfl, rfl, rfl, ?_⟩
  revert l
  decide

/-- Without the magic check only the bytes from 4 on need be there. -/
theorem witness_HeaderParseChecksAndFields_unchecked :
    let s := { headerAt .header .decode 0#32 0#32 0#8 0#8 (List.replicate 14 0#8) with
      params := ⟨#v[1#8, 2#8, 3#8, 4#8], false, mapAt⟩, mem := Memory.writeList [] 104 (List.replicate 10 3#8) }
    s.engineMoves ∧ s.op = .decode ∧ s.phase = .hdr ∧ s.hdrStep = .header
      ∧ ∀ k, k < 14 → (k < 4 → s.params.checkMagic = true) → s.readIn k = some 3#8 :=
  ⟨⟨rfl, rfl⟩, rfl, rfl, rfl, by decide⟩

theorem witness_OpInitGivesTheFreshWorkingState :
    let s := startAt .decode 0#32 0#32 0#8 0#8 []
    s.engineMoves ∧ s.phase = .hdr ∧ s.hdrStep = .opInit := ⟨⟨rfl, rfl⟩, rfl, rfl⟩

/-- An image of no pixels and one of one. -/
theorem witness_HeaderEmitWritesFourteenBytes :
    ∀ w ∈ [0#32, 1#32],
      let s := { headerAt .header .encode w 1#32 3#8 0#8 [] with outCapacity := 14 }
      s.engineMoves ∧ s.op = .encode ∧ s.phase = .hdr ∧ s.hdrStep = .header ∧ s.fits 14 := by
  intro w _
  exact ⟨⟨rfl, rfl⟩, rfl, rfl, rfl, Nat.le_refl 14⟩

theorem witness_FooterEmitEndsTheEncode :
    let s := { encodeAt 0#32 3#8 [] with phase := .ftr, outCapacity := 22 }
    s.engineMoves ∧ s.op = .encode ∧ s.phase = .ftr ∧ s.fits 8 := ⟨⟨rfl, rfl⟩, rfl, rfl, Nat.le_refl 22⟩

theorem witness_DecodeStopsAtTheEndOfTheRegion :
    let s := decodeAt 3#8 []
    s.engineMoves ∧ s.op = .decode ∧ s.phase = .body ∧ s.pos + 8 = s.inLen := ⟨⟨rfl, rfl⟩, rfl, rfl, rfl⟩

/-- The first and the last byte of the footer. -/
theorem witness_FooterBytesAreNeverRead :
    let s := decodeAt 3#8 [0xC0#8]
    s.Inv ∧ s.engineMoves ∧ s.op = .decode ∧ s.phase = .body
      ∧ s.inBase + s.inLen - 8 ≤ 115 ∧ 115 < s.inBase + s.inLen ∧ s.inBase + s.inLen - 8 ≤ 122 ∧ 122 < s.inBase + s.inLen :=
  ⟨inv_decodeAt, ⟨rfl, rfl⟩, rfl, rfl, by decide, by decide, by decide, by decide⟩

theorem witness_EqualPixelExtendsTheRun :
    let s := (encodeAt 2#32 3#8 [0#8, 0#8, 0#8, 0#8, 0#8, 0#8]).setRun 60#6
    s.atPixel prevInit ∧ prevInit = s.prev ∧ s.run.toNat < 61 ∧ s.pix + 1 ≠ s.npix :=
  ⟨⟨⟨rfl, rfl⟩, rfl, rfl, by decide, by decide⟩, rfl, by decide, by decide⟩

/-- The 62nd pixel of a run that is not the last of the image, and a last pixel. -/
theorem witness_FullOrLastRunIsEmitted :
    let s := (encodeAt 2#32 3#8 [0#8, 0#8, 0#8, 0#8, 0#8, 0#8]).setRun 61#6
    let t := { encodeAt 1#32 3#8 [0#8, 0#8, 0#8] with outCapacity := 15 }
    (s.atPixel prevInit ∧ prevInit = s.prev ∧ s.run.toNat ≤ 61 ∧ s.run.toNat = 61 ∧ s.fits 1)
      ∧ (t.atPixel prevInit ∧ prevInit = t.prev ∧ t.run.toNat ≤ 61 ∧ t.pix + 1 = t.npix ∧ t.fits 1) :=
  ⟨⟨⟨⟨rfl, rfl⟩, rfl, rfl, by decide, by decide⟩, rfl, by decide, by decide, by unfold State.fits; decide⟩,
    ⟨⟨⟨rfl, rfl⟩, rfl, rfl, by decide, by decide⟩, rfl, by decide, by decide, by unfold State.fits; decide⟩⟩

/-- A pixel equal to the zero slot it hashes to, with a run of two pending. -/
theorem witness_CachedPixelIsAnIndexChunk :
    let s := (encodeAt 1#32 4#8 [0#8, 0#8, 0#8, 0#8]).setRun 2#6
    s.atNewPixel zeroPixel [BitVec.ofNat 8 (pixelHash zeroPixel).toNat] ∧ s.cacheRead (pixelHash zeroPixel) = zeroPixel :=
  ⟨⟨⟨⟨rfl, rfl⟩, rfl, rfl, by decide, by decide⟩, by decide, by decide, by unfold State.fits; decide⟩, by decide⟩

/-- Deltas -2, 1, 0 (2.3). -/
theorem witness_SmallDeltasAreADiffChunk :
    let s := encodeAt 1#32 3#8 [254#8, 1#8, 0#8]
    let cur : Pixel := ⟨254#8, 1#8, 0#8, 255#8⟩
    s.atNewPixel cur [0x4E#8] ∧ s.cacheRead (pixelHash cur) ≠ cur ∧ cur.a = s.prev.a ∧ signedDelta cur.r s.prev.r = -2
      ∧ signedDelta cur.g s.prev.g = 1 ∧ signedDelta cur.b s.prev.b = 0 :=
  ⟨⟨⟨⟨rfl, rfl⟩, rfl, rfl, by decide, by decide⟩, by decide, by decide, by unfold State.fits; decide⟩,
    by decide, by decide, by decide, by decide, by decide⟩

/-- Every LUMA field at a bound (2.3: `BF F0`). -/
theorem witness_BiasedDeltasAreALumaChunk :
    let s := encodeAt 1#32 3#8 [38#8, 31#8, 23#8]
    let cur : Pixel := ⟨38#8, 31#8, 23#8, 255#8⟩
    s.atNewPixel cur [0xBF#8, 0xF0#8] ∧ s.cacheRead (pixelHash cur) ≠ cur ∧ cur.a = s.prev.a
      ∧ signedDelta cur.r s.prev.r = 38 ∧ signedDelta cur.g s.prev.g = 31 ∧ signedDelta cur.b s.prev.b = 23 :=
  ⟨⟨⟨⟨rfl, rfl⟩, rfl, rfl, by decide, by decide⟩, by decide, by decide, by unfold State.fits; decide⟩,
    by decide, by decide, by decide, by decide, by decide⟩

/-- `dr - dg = 8` (2.3: `FE 08 00 00`). -/
theorem witness_LargeDeltasAreAnRgbChunk :
    let s := encodeAt 1#32 3#8 [8#8, 0#8, 0#8]
    let cur : Pixel := ⟨8#8, 0#8, 0#8, 255#8⟩
    s.atNewPixel cur [0xFE#8, 8#8, 0#8, 0#8] ∧ s.cacheRead (pixelHash cur) ≠ cur ∧ cur.a = s.prev.a
      ∧ signedDelta cur.r s.prev.r = 8 ∧ signedDelta cur.g s.prev.g = 0 ∧ signedDelta cur.b s.prev.b = 0 :=
  ⟨⟨⟨⟨rfl, rfl⟩, rfl, rfl, by decide, by decide⟩, by decide, by decide, by unfold State.fits; decide⟩,
    by decide, by decide, by decide, by decide, by decide⟩

/-- Colour deltas 0, alpha changed (2.3). -/
theorem witness_ChangedAlphaIsAnRgbaChunk :
    let s := encodeAt 1#32 4#8 [0#8, 0#8, 0#8, 254#8]
    let cur : Pixel := ⟨0#8, 0#8, 0#8, 254#8⟩
    s.atNewPixel cur [0xFF#8, 0#8, 0#8, 0#8, 254#8] ∧ s.cacheRead (pixelHash cur) ≠ cur ∧ cur.a ≠ s.prev.a :=
  ⟨⟨⟨⟨rfl, rfl⟩, rfl, rfl, by decide, by decide⟩, by decide, by decide, by unfold State.fits; decide⟩, by decide, by decide⟩

theorem witness_EncodeNeverChangesItsOperands :
    let s := encodeAt 1#32 3#8 [10#8, 10#8, 10#8]
    s.Inv ∧ s.engineMoves ∧ s.op = .encode ∧ (after State.pix (step s)).isSome = true :=
  ⟨inv_encodeAt, ⟨rfl, rfl⟩, rfl, by decide⟩

/-- ISSUE with every duty kept, with overlapping buffers, with a buffer beyond the addresses, and with an input byte that is
not placed. -/
theorem witness_IssueStartsAnOperation :
    let s := { hostAt [.issue .encode] with inLen := 1, mem := [(0, 7#8)], outBase := 1, outCapacity := 4294967295 }
    let t := { hostAt [.issue .encode] with inLen := 1, outCapacity := 1 }
    let u := { hostAt [.issue .encode] with outBase := 1, outCapacity := 4294967296 }
    let v := { hostAt [.issue .encode] with inLen := 1, outBase := 1, outCapacity := 1 }
    (s.host = [.issue .encode] ∧ s.hostMayAccess ∧ s.buffersDisjoint = true ∧ s.buffersExist = true ∧ s.inputPlaced)
      ∧ (t.host = [.issue .encode] ∧ t.hostMayAccess ∧ t.buffersDisjoint = false)
      ∧ (u.host = [.issue .encode] ∧ u.hostMayAccess ∧ u.buffersDisjoint = true ∧ u.buffersExist = false)
      ∧ (v.host = [.issue .encode] ∧ v.hostMayAccess ∧ v.buffersDisjoint = true ∧ v.buffersExist = true
          ∧ ¬ v.inputPlaced) := by
  unfold State.hostMayAccess State.inputPlaced
  decide

/-- An access by name and one on the bus, while `BUSY`, and before the final `STATE` is read. -/
theorem witness_HostOnlyPollsWhileBusy :
    ∀ a ∈ [HostAct.readReg .width, HostAct.busRead 8],
      let s := { hostAt [a] with state := .busy }
      let t := { hostAt [a] with state := .done, unread := true }
      s.host = [a] ∧ s.state = .busy ∧ t.host = [a] ∧ t.state ≠ .busy ∧ t.unread = true ∧ a ≠ .readStatus
        ∧ a ≠ .powerOnReset ∧ a ≠ .tick ∧ a ≠ .await ∧ (∀ k, a = .busRead k → csrAt mapAt k ≠ some .status) := by
  intro a ha
  simp only [List.mem_cons, List.not_mem_nil, or_false] at ha
  rcases ha with rfl | rfl
  · exact ⟨rfl, rfl, rfl, by decide, rfl, by decide, by decide, by decide, by decide, fun k h => by cases h⟩
  · refine ⟨rfl, rfl, rfl, by decide, rfl, by decide, by decide, by decide, by decide, fun k h => ?_⟩
    cases h
    decide

theorem witness_PollReturnsTheStatusCodes : (hostAt [.readStatus]).host = [.readStatus] := rfl

/-- Every register the host writes. -/
theorem witness_HostWritesStoreTheValue :
    (hostAt []).hostMayAccess ∧ (hostAt [.writeWidth 7#32]).host = [.writeWidth 7#32]
      ∧ (hostAt [.writeHeight 7#32]).host = [.writeHeight 7#32] ∧ (hostAt [.writeChannels 4#8]).host = [.writeChannels 4#8]
      ∧ (hostAt [.writeColorspace 1#8]).host = [.writeColorspace 1#8] ∧ (hostAt [.writeInBase 7]).host = [.writeInBase 7]
      ∧ (hostAt [.writeInLen 7]).host = [.writeInLen 7] ∧ (hostAt [.writeOutBase 7]).host = [.writeOutBase 7] := by
  unfold State.hostMayAccess
  decide

theorem witness_HostReadsAndPlacesBytes :
    (hostAt [.readReg .outLen]).hostMayAccess ∧ (hostAt [.readReg .outLen]).host = [.readReg .outLen]
      ∧ ({ hostAt [.readByte 5] with mem := [(5, 1#8)] } : State).host = [.readByte 5]
      ∧ ({ hostAt [.readByte 5] with mem := [(5, 1#8)] } : State).mem.read 5 = some 1#8
      ∧ (hostAt [.placeByte 5 1#8]).host = [.placeByte 5 1#8] ∧ (hostAt [.provideOutput 9]).host = [.provideOutput 9]
      ∧ (hostAt []).addressExists 4294967295 = true ∧ (hostAt []).addressExists 4294967296 = false := by
  unfold State.hostMayAccess
  decide

/-- Awaiting a `BUSY` engine, awaiting an idle one, an engine with nothing pending, and a tick of each. -/
theorem witness_AwaitingHostLetsTheEngineMove :
    ({ decodeAt 3#8 [] with host := [.await] } : State).host = [.await]
      ∧ ({ decodeAt 3#8 [] with host := [.await] } : State).state = .busy
      ∧ (hostAt [.await]).host = [.await] ∧ (hostAt [.await]).state ≠ .busy ∧ (decodeAt 3#8 []).engineMoves
      ∧ ({ decodeAt 3#8 [] with host := [.tick] } : State).host = [.tick]
      ∧ ({ decodeAt 3#8 [] with host := [.tick] } : State).state = .busy
      ∧ (hostAt [.tick]).host = [.tick] ∧ (hostAt [.tick]).state ≠ .busy :=
  ⟨rfl, rfl, rfl, by decide, ⟨rfl, rfl⟩, rfl, rfl, rfl, by decide⟩

/-- The second pixel of a row, with 3 channels and with 4. -/
theorem witness_PixelFetchReadsTheChannels :
    let s := encodeAt 2#32 3#8 [1#8, 2#8, 3#8, 4#8, 5#8, 6#8]
    let t := encodeAt 2#32 4#8 [1#8, 2#8, 3#8, 4#8, 5#8, 6#8, 7#8, 8#8]
    (s.channels = 3#8 ∧ s.readIn (3 * 1) = some 4#8 ∧ s.readIn (3 * 1 + 1) = some 5#8 ∧ s.readIn (3 * 1 + 2) = some 6#8)
      ∧ (t.channels = 4#8 ∧ t.readIn (4 * 1) = some 5#8 ∧ t.readIn (4 * 1 + 1) = some 6#8
          ∧ t.readIn (4 * 1 + 2) = some 7#8 ∧ t.readIn (4 * 1 + 3) = some 8#8) := by decide

/-- Idle and `BUSY`. -/
theorem witness_PowerOnResetLeavesMemory :
    (hostAt [.powerOnReset]).host = [.powerOnReset] ∧ (hostAt [.powerOnReset]).state ≠ .busy
      ∧ (hostAt [.powerOnReset]).unread = false
      ∧ ({ decodeAt 3#8 [] with host := [.powerOnReset] } : State).host = [.powerOnReset] := by decide

theorem witness_EngineRestsBetweenOperations : State.reset.state ≠ .busy ∧ State.reset.host = [] := by decide

theorem witness_EveryStepKeepsTheInvariant :
    (decodeAt 3#8 [0xC0#8]).Inv ∧ (after State.pos (step (decodeAt 3#8 [0xC0#8]))).isSome = true
      ∧ State.reset.Inv ∧ (after State.pos (step State.reset)).isSome = true := ⟨inv_decodeAt, by decide, inv_reset, by decide⟩

/-- The step of OPINIT, and a chunk over a fresh cache. -/
theorem witness_CacheSlotsHoldPixelsOfTheirHash :
    let s := startAt .decode 0#32 0#32 0#8 0#8 []
    let t := decodeAt 3#8 [0x7F#8]
    (s.engineMoves ∧ s.phase = .hdr ∧ s.hdrStep = .opInit ∧ after State.state (step s) = some .busy)
      ∧ (t.engineMoves ∧ t.slotsHashed ∧ after State.state (step t) = some .busy) :=
  ⟨⟨⟨rfl, rfl⟩, rfl, rfl, by decide⟩, ⟨rfl, rfl⟩, by unfold State.slotsHashed; decide, by decide⟩

theorem witness_EngineNeverWritesItsInput :
    let s := decodeAt 3#8 [0xC0#8]
    s.Inv ∧ s.engineMoves ∧ (after State.pos (step s)).isSome = true ∧ 0 < s.inLen ∧ 22 < s.inLen :=
  ⟨inv_decodeAt, ⟨rfl, rfl⟩, by decide, by decide, by decide⟩

/-- A DECODE of 15 header and chunk bytes and a footer, all placed, its end unread, at its one chunk. -/
def placedDecode : State :=
  { decodeStartState with phase := .body, hdrStep := .header, channels := 3#8, pos := 14 }

theorem inv_placedDecode : placedDecode.Inv := by
  refine ⟨by decide, by decide, by decide, by decide, fun _ => ⟨by decide, by decide, ?_⟩⟩
  exact ⟨⟨by decide, by decide⟩, by decide, by decide⟩

theorem duties_placedDecode : placedDecode.dutiesKept := by
  unfold State.dutiesKept State.inputPlaced
  decide

/-- While the host awaits the engine, and for a poll of the `BUSY` engine. -/
theorem witness_EngineNeverWritesItsInput_unread :
    placedDecode.Inv ∧ placedDecode.dutiesKept ∧ placedDecode.unread = true ∧ 0 < placedDecode.inLen
      ∧ ∀ l ∈ [[HostAct.await], [HostAct.readStatus], []],
          (after State.pos (step { placedDecode with host := l })).isSome = true :=
  ⟨inv_placedDecode, duties_placedDecode, rfl, by decide, by decide⟩

theorem witness_EngineStepsUnlessItIsStuck : placedDecode.Inv ∧ placedDecode.dutiesKept ∧ placedDecode.engineMoves :=
  ⟨inv_placedDecode, duties_placedDecode, rfl, rfl⟩

theorem witness_EveryStepKeepsTheHostsDuties :
    placedDecode.Inv ∧ placedDecode.dutiesKept ∧ (after State.pos (step placedDecode)).isSome = true :=
  ⟨inv_placedDecode, duties_placedDecode, by decide⟩

theorem distinct_mapAt : csrDistinct mapAt := by
  intro q r
  cases q <;> cases r <;> simp [csrAddr, mapAt]

/-- A write, a read, and each kind of access that is none, at its bound. -/
theorem witness_BusAccessesReachTheMappedRegister :
    csrDistinct (hostAt []).params.csrMap ∧ (hostAt [.busWrite 8 9]).host = [.busWrite (hostAt []).params.csrMap.width 9]
      ∧ (hostAt [.busRead 4]).host = [.busRead (hostAt []).params.csrMap.status] ∧ (hostAt []).hostMayAccess
      ∧ (hostAt [.busRead 0]).host = [.busRead (hostAt []).params.csrMap.cmd]
      ∧ (hostAt [.busWrite 0 2]).host = [.busWrite (hostAt []).params.csrMap.cmd 2]
      ∧ (hostAt [.busWrite 16 256]).host = [.busWrite (hostAt []).params.csrMap.channels (2 ^ 8)]
      ∧ (hostAt [.busRead 40]).host = [.busRead 40] ∧ ∀ r, csrAddr (hostAt []).params.csrMap r ≠ 40 := by
  refine ⟨distinct_mapAt, rfl, rfl, ⟨by decide, rfl⟩, rfl, rfl, rfl, rfl, ?_⟩
  intro r
  cases r <;> decide

theorem witness_ParametersNeverChange : (after State.pos (step State.reset)).isSome = true := by decide

theorem witness_OnlyTheEngineEndsAnOperation :
    ∀ a ∈ [HostAct.await, HostAct.tick, HostAct.powerOnReset],
      let s := { decodeAt 3#8 [] with host := [a] }
      s.state = .busy ∧ s.host = [a] ∧ ∃ st, after State.state (step s) = some st ∧ st ≠ .busy := by
  intro a ha
  refine ⟨rfl, rfl, ?_⟩
  simp only [List.mem_cons, List.not_mem_nil, or_false] at ha
  rcases ha with rfl | rfl | rfl
  · exact ⟨.done, by decide, by decide⟩
  · exact ⟨.done, by decide, by decide⟩
  · exact ⟨.idle, by decide, by decide⟩

theorem witness_EveryEngineStepApproachesTheEnd :
    let s := encodeAt 1#32 3#8 [10#8, 10#8, 10#8]
    s.Inv ∧ s.engineMoves ∧ (after State.pix (step s)).isSome = true := ⟨inv_encodeAt, ⟨rfl, rfl⟩, by decide⟩

/-- Exactly the capacity R68 gives, for the statements about a whole ENCODE. -/
theorem witness_EncodeFinishesInNpixPlusFourSteps : encodeReadyState.encodeReady := by
  refine ⟨⟨⟨rfl, rfl⟩, rfl, rfl, rfl, rfl, rfl, by decide, by decide, by decide⟩, ⟨⟨by decide, by decide⟩, by decide⟩, ?_, by decide⟩
  unfold State.inputPlaced
  decide

/-- The same image in another place, with another history of the free values. -/
theorem witness_EncodeDependsOnItsInputsAlone :
    let t := { encodeReadyState with
      inBase := 200, outBase := 2000, free := 9, mem := Memory.writeList [] 200 [10#8, 10#8, 10#8] }
    encodeReadyState.encodeReady ∧ t.encodeReady ∧ encodeReadyState.width = t.width ∧ encodeReadyState.height = t.height
      ∧ encodeReadyState.channels = t.channels ∧ encodeReadyState.colorspace = t.colorspace
      ∧ encodeReadyState.params.magic = t.params.magic
      ∧ ∀ k, k < encodeReadyState.inLen → encodeReadyState.readIn k = t.readIn k := by
  refine ⟨witness_EncodeFinishesInNpixPlusFourSteps, ⟨⟨⟨rfl, rfl⟩, rfl, rfl, rfl, rfl, rfl, by decide, by decide, by decide⟩,
    ⟨⟨by decide, by decide⟩, by decide⟩, ?_, by decide⟩, rfl, rfl, rfl, rfl, rfl, by decide⟩
  unfold State.inputPlaced
  decide

theorem witness_DecodeFinishesWithinItsInputLength :
    decodeStartState.atStart .decode ∧ decodeStartState.inputPlaced
      ∧ 248 * (decodeStartState.inLen - 22) ≤ decodeStartState.outCapacity := by
  refine ⟨⟨⟨rfl, rfl⟩, rfl, rfl, rfl, rfl, rfl, by decide, by decide, by decide⟩, ?_, by decide⟩
  unfold State.inputPlaced
  decide

theorem witness_DecoderStaysInLockstepWithTheEncoder :
    let s := encodeAt 1#32 3#8 [10#8, 10#8, 10#8]
    let cur : Pixel := ⟨10#8, 10#8, 10#8, 255#8⟩
    let d := decodeAt 3#8 [0xAA#8, 0x88#8]
    s.atPixel cur ∧ cur ≠ s.prev ∧ s.run = 0#6 ∧ (after State.pix (step s)).isSome = true ∧ d.cache = s.cache
      ∧ d.prev = s.prev ∧ d.pos + (Instr.luma 10 0 0).length + 8 ≤ d.inLen ∧ d.fits (if d.channels = 4#8 then 4 else 3) :=
  ⟨⟨⟨rfl, rfl⟩, rfl, rfl, by decide, by decide⟩, by decide, rfl, by decide, rfl, rfl, by decide, by unfold State.fits; decide⟩

/-- The 24 bytes ENCODE leaves for the one pixel (S1: `AA 88`), as an input to DECODE with room for 3 bytes. -/
theorem witness_DecodeOfEncodeReturnsTheInput :
    let d := { startAt .decode 0#32 0#32 0#8 0#8 ([1#8, 2#8, 3#8, 4#8, 0#8, 0#8, 0#8, 1#8, 0#8, 0#8, 0#8, 1#8, 3#8, 0#8]
        ++ [0xAA#8, 0x88#8] ++ [0#8, 0#8, 0#8, 0#8, 0#8, 0#8, 0#8, 1#8]) with outCapacity := 3 }
    encodeReadyState.encodeReady ∧ d.atStart .decode ∧ d.params.magic = encodeReadyState.params.magic
      ∧ encodeReadyState.inLen ≤ d.outCapacity
      ∧ after (fun e => (e.outLen, (List.range 24).map (fun k => e.mem.read (e.outBase + k))))
          (Host.Core.run Sys2Proof.core 5 encodeReadyState) = some (d.inLen, (List.range 24).map d.readIn) :=
  ⟨witness_EncodeFinishesInNpixPlusFourSteps, ⟨⟨rfl, rfl⟩, rfl, rfl, rfl, rfl, rfl, by decide, by decide, by decide⟩, rfl,
    by decide, by decide⟩

end Sys2Proof.Tests
end

section
/-! PROOFS of the scope's statements (00_scope.md): byte deltas (R8), the parameters of R6, and the bus accesses of R37. -/

namespace Sys2Proof.Machine

/-! ## Byte deltas (R8, R179) -/

/-- Settles O5: an 8-bit difference is the one modulo 256, and its signed reading subtracts 256 from 128 on. -/
theorem byteDeltasWrapAndAreSigned : Obligations.ByteDeltasWrapAndAreSigned := by
  intro x y
  have hx := x.isLt
  have hy := y.isLt
  have hd : signedDelta x y = if 2 * (x - y).toNat < 256 then ((x - y).toNat : Int) else (x - y).toNat - 256 :=
    BitVec.toInt_eq_toNat_cond (x - y)
  rw [hd, BitVec.toNat_sub]
  dsimp only
  split <;> split <;> omega

/-! ## The parameters (R6)

An encoder step is taken apart here without the bound on `run` that `encPixel_cases` has: the statement is about every
state. -/

theorem outAppendAll_params {bs : List Byte} {s t : State} (h : s.outAppendAll bs = some t) : t.params = s.params := by
  obtain ⟨rfl, -⟩ := State.outAppendAll_some h
  exact State.withOutput_params s bs

theorem emitRun_params {s t : State} (h : emitRun s = some t) : t.params = s.params := by
  unfold emitRun at h
  split at h
  · rename_i u hu
    cases h
    exact (State.setRun_params u 0#6).trans (outAppendAll_params hu)
  · cases h

theorem runDet_params {last : Bool} {s t : State} (h : runDet last s = some t) : t.params = s.params := by
  simp only [runDet] at h
  split at h
  · exact (emitRun_params h).trans (State.setRun_params s _)
  · cases h
    rfl

theorem runFlush_params {s t : State} (h : runFlush s = some t) : t.params = s.params := by
  unfold runFlush at h
  split at h
  · cases h
    rfl
  · exact emitRun_params h

theorem encCachedOrMiss_params {cur : Pixel} {s t : State} (h : encCachedOrMiss cur s = some t) :
    t.params = s.params := by
  rw [encCachedOrMiss_eq] at h
  exact (outAppendAll_params h).trans (tierCache_params cur s)

theorem encPixel_params {cur : Pixel} {s t : State} (h : encPixel cur s = some t) : t.params = s.params := by
  unfold encPixel at h
  split at h
  · exact runDet_params h
  · split at h
    · rename_i u hu
      exact (encCachedOrMiss_params h).trans (runFlush_params hu)
    · cases h

theorem EngineMove.params_eq {s t : State} (h : EngineMove s t) : t.params = s.params := by
  cases h with
  | pixel _ _ _ cur u _ hu => rw [advancePixel_params, encPixel_params hu]
  | _ => simp

theorem Access.params_eq {s t : State} (h : Access s t) : t.params = s.params := by
  cases h <;> rfl

/-- Settles O50: each of the things a step can be (`step_next`) keeps the parameters. -/
theorem parametersNeverChange : Obligations.ParametersNeverChange := by
  intro s t h
  obtain ⟨l, ⟨-, he⟩ | ⟨-, rfl⟩ | rfl | rfl | ⟨-, ha⟩⟩ := step_next h
  · exact (engineMove_of_step he).params_eq
  · rfl
  · rfl
  · exact State.powerOn_params _
  · exact ha.params_eq

/-! ## Bus accesses (R36, R37)

What `resolveBus` makes of an access decides the step: a granted one becomes the named access of `csrWrite` or `csrRead`,
any other stays a bus access and is refused. -/

theorem resolveBus_write_at {m : CsrMap} (hm : csrDistinct m) (r : CsrReg) (v : Nat) :
    resolveBus m (.busWrite (csrAddr m r) v) = (csrWrite r v).getD (.busWrite (csrAddr m r) v) := by
  simp [resolveBus, csrAt_addr hm]

theorem resolveBus_read_at {m : CsrMap} (hm : csrDistinct m) (r : CsrReg) :
    resolveBus m (.busRead (csrAddr m r)) = (csrRead r).getD (.busRead (csrAddr m r)) := by
  simp [resolveBus, csrAt_addr hm]

theorem resolveBus_write_unmapped {m : CsrMap} {k : Nat} (hk : ∀ r, csrAddr m r ≠ k) (v : Nat) :
    resolveBus m (.busWrite k v) = .busWrite k v := by
  simp [resolveBus, csrAt_none hk]

theorem resolveBus_read_unmapped {m : CsrMap} {k : Nat} (hk : ∀ r, csrAddr m r ≠ k) :
    resolveBus m (.busRead k) = .busRead k := by
  simp [resolveBus, csrAt_none hk]

/-- The access a bus write stands for is a named one: the host's own, which the bus does not resolve again. -/
theorem csrWrite_named {r : CsrReg} {v : Nat} {b : HostAct} (h : csrWrite r v = some b) (m : CsrMap) :
    resolveBus m b = b ∧ b ≠ .await := by
  unfold csrWrite at h
  repeat' split at h
  all_goals cases h
  all_goals exact ⟨rfl, nofun⟩

theorem csrRead_named {r : CsrReg} {b : HostAct} (h : csrRead r = some b) (m : CsrMap) :
    resolveBus m b = b ∧ b ≠ .await := by
  cases r <;> cases h <;> exact ⟨rfl, nofun⟩

/-- Where the bus resolves the host's action to a named one, the step is the same with that one pending instead. -/
theorem step_resolved {s : State} {a b : HostAct} {rest : List HostAct} (hh : s.host = a :: rest) (ha : a ≠ .await)
    (hr : resolveBus s.params.csrMap a = b) (hb : resolveBus s.params.csrMap b = b ∧ b ≠ .await) :
    step s = step { s with host := b :: rest } := by
  rw [step_host hh ha, step_host (s := { s with host := b :: rest }) rfl hb.2]
  simp only [hostMove, hr, hb.1]

theorem step_busWrite_granted {s : State} (hm : csrDistinct s.params.csrMap) (r : CsrReg) {v : Nat} {b : HostAct}
    {rest : List HostAct} (hw : csrWrite r v = some b) (hh : s.host = .busWrite (csrAddr s.params.csrMap r) v :: rest) :
    step s = step { s with host := b :: rest } :=
  step_resolved hh nofun (by rw [resolveBus_write_at hm, hw, Option.getD_some]) (csrWrite_named hw _)

theorem step_busRead_granted {s : State} (hm : csrDistinct s.params.csrMap) (r : CsrReg) {b : HostAct}
    {rest : List HostAct} (hr : csrRead r = some b) (hh : s.host = .busRead (csrAddr s.params.csrMap r) :: rest) :
    step s = step { s with host := b :: rest } :=
  step_resolved hh nofun (by rw [resolveBus_read_at hm, hr, Option.getD_some]) (csrRead_named hr _)

/-- `resolveBus` leaves an access that finds no register, or no right of R36, as it is; log entry 19 then refuses it. -/
theorem step_busWrite_refused {s : State} (hs : s.hostMayAccess) {k v : Nat} {rest : List HostAct}
    (hr : resolveBus s.params.csrMap (.busWrite k v) = .busWrite k v) (hh : s.host = .busWrite k v :: rest) :
    step s = .refused .noSuchAccess := by
  rw [step_host hh nofun]
  simp only [hostMove, hr]
  exact whenHostMay_of hs _

theorem step_busRead_refused {s : State} (hs : s.hostMayAccess) {k : Nat} {rest : List HostAct}
    (hr : resolveBus s.params.csrMap (.busRead k) = .busRead k) (hh : s.host = .busRead k :: rest) :
    step s = .refused .noSuchAccess := by
  rw [step_host hh nofun]
  simp only [hostMove, hr]
  exact whenHostMay_of hs _

theorem step_busWrite_ungranted {s : State} (hm : csrDistinct s.params.csrMap) (hs : s.hostMayAccess) (r : CsrReg)
    {v : Nat} {rest : List HostAct} (hw : csrWrite r v = none)
    (hh : s.host = .busWrite (csrAddr s.params.csrMap r) v :: rest) : step s = .refused .noSuchAccess :=
  step_busWrite_refused hs (by rw [resolveBus_write_at hm, hw, Option.getD_none]) hh

theorem step_busRead_ungranted {s : State} (hm : csrDistinct s.params.csrMap) (hs : s.hostMayAccess) (r : CsrReg)
    {rest : List HostAct} (hr : csrRead r = none) (hh : s.host = .busRead (csrAddr s.params.csrMap r) :: rest) :
    step s = .refused .noSuchAccess :=
  step_busRead_refused hs (by rw [resolveBus_read_at hm, hr, Option.getD_none]) hh

/-- R33: a value of 32 bits fits `WIDTH` and `HEIGHT`. -/
theorem csrWrite_word (v : Word32) :
    csrWrite .width v.toNat = some (.writeWidth v) ∧ csrWrite .height v.toNat = some (.writeHeight v) := by
  simp [csrWrite, v.isLt]

/-- R33: a byte fits `CHANNELS` and `COLORSPACE`. -/
theorem csrWrite_byte (v : Byte) :
    csrWrite .channels v.toNat = some (.writeChannels v) ∧ csrWrite .colorspace v.toNat = some (.writeColorspace v) := by
  simp [csrWrite, v.isLt]

/-- R34: `CMD` takes the values 0 and 1 only. -/
theorem csrWrite_cmd_none {v : Nat} (h : 1 < v) : csrWrite .cmd v = none := by
  have h0 : v ≠ 0 := by omega
  have h1 : v ≠ 1 := by omega
  simp [csrWrite, h0, h1]

/-- R11, R33: a value of more than 32 bits fits neither `WIDTH` nor `HEIGHT`. -/
theorem csrWrite_word_none {v : Nat} (h : 2 ^ 32 ≤ v) : csrWrite .width v = none ∧ csrWrite .height v = none := by
  simp only [csrWrite, if_neg (Nat.not_lt.2 h), and_self]

/-- R11, R33: a value of more than 8 bits fits neither `CHANNELS` nor `COLORSPACE`. -/
theorem csrWrite_byte_none {v : Nat} (h : 2 ^ 8 ≤ v) : csrWrite .channels v = none ∧ csrWrite .colorspace v = none := by
  simp only [csrWrite, if_neg (Nat.not_lt.2 h), and_self]

/-- Settles O58: an access `csrWrite` or `csrRead` grants is the named one, any other is left unresolved and refused. -/
theorem busAccessesReachTheMappedRegister : Obligations.BusAccessesReachTheMappedRegister := by
  intro s rest hm
  refine ⟨?writes, ?reads, ?refused⟩
  case writes =>
    exact ⟨step_busWrite_granted hm .cmd rfl, step_busWrite_granted hm .cmd rfl,
      fun v => ⟨step_busWrite_granted hm .width (csrWrite_word v).1,
        step_busWrite_granted hm .height (csrWrite_word v).2⟩,
      fun v => ⟨step_busWrite_granted hm .channels (csrWrite_byte v).1,
        step_busWrite_granted hm .colorspace (csrWrite_byte v).2⟩,
      fun n => ⟨step_busWrite_granted hm .inBase rfl, step_busWrite_granted hm .inLen rfl,
        step_busWrite_granted hm .outBase rfl⟩⟩
  case reads =>
    exact ⟨step_busRead_granted hm .status rfl, step_busRead_granted hm .width rfl,
      step_busRead_granted hm .height rfl, step_busRead_granted hm .channels rfl,
      step_busRead_granted hm .colorspace rfl, step_busRead_granted hm .inBase rfl,
      step_busRead_granted hm .inLen rfl, step_busRead_granted hm .outBase rfl,
      step_busRead_granted hm .outLen rfl⟩
  case refused =>
    rintro hs k v (hh | hh | hh | ⟨hh, hv⟩ | ⟨hh | hh, hv⟩ | ⟨hh | hh, hv⟩ | ⟨hh | hh, hk⟩)
    · exact step_busRead_ungranted hm hs .cmd rfl hh
    · exact step_busWrite_ungranted hm hs .status rfl hh
    · exact step_busWrite_ungranted hm hs .outLen rfl hh
    · exact step_busWrite_ungranted hm hs .cmd (csrWrite_cmd_none hv) hh
    · exact step_busWrite_ungranted hm hs .width (csrWrite_word_none hv).1 hh
    · exact step_busWrite_ungranted hm hs .height (csrWrite_word_none hv).2 hh
    · exact step_busWrite_ungranted hm hs .channels (csrWrite_byte_none hv).1 hh
    · exact step_busWrite_ungranted hm hs .colorspace (csrWrite_byte_none hv).2 hh
    · exact step_busRead_refused hs (resolveBus_read_unmapped hk) hh
    · exact step_busWrite_refused hs (resolveBus_write_unmapped hk v) hh

end Sys2Proof.Machine
end

section
/-! PROOFS of the state's statements (10_state.md): the invariant of the machine, what an ENCODE leaves alone, the pixel
cache (R28), and the host's accesses to registers and memory (R36). -/

namespace Sys2Proof.Machine

/-! ## What an engine move does to the output -/

/-- From `s` to `t` memory stays canonical and the output within its capacity, and no byte outside the output buffer
changes (R68). -/
def OutputWithin (s t : State) : Prop :=
  t.mem.wf ∧ t.outLen ≤ t.outCapacity
    ∧ ∀ a, a < s.outBase ∨ s.outBase + s.outCapacity ≤ a → t.mem.read a = s.mem.read a

theorem OutputWithin.trans {s t u : State} (h1 : OutputWithin s t) (hb : t.outBase = s.outBase)
    (hc : t.outCapacity = s.outCapacity) (h2 : OutputWithin t u) : OutputWithin s u := by
  obtain ⟨-, -, hr1⟩ := h1
  obtain ⟨hw, hl, hr2⟩ := h2
  rw [hb, hc] at hr2
  exact ⟨hw, hl, fun a ha => (hr2 a ha).trans (hr1 a ha)⟩

section
variable {s t : State} (hw : s.mem.wf) (hl : s.outLen ≤ s.outCapacity)
include hw

theorem OutputWithin.of_append {bs : List Byte} (hf : s.fits bs.length)
    (hm : t.mem = s.mem.writeList (s.outBase + s.outLen) bs) (ho : t.outLen = s.outLen + bs.length)
    (hc : t.outCapacity = s.outCapacity) : OutputWithin s t := by
  unfold State.fits at hf
  refine ⟨hm ▸ Memory.writeList_wf hw _ _, by omega, fun a ha => ?_⟩
  rw [hm]
  exact Memory.read_writeList_out _ _ _ (by omega)

theorem OutputWithin.abort (e : Err) : OutputWithin s (s.abort e) := by
  refine ⟨?_, by simp, fun a ha => ?_⟩
  · rw [State.abort_mem]
    exact Memory.fillFree_wf hw _ _ _
  · rw [State.abort_mem]
    exact Memory.read_fillFree_out _ ha

include hl

theorem OutputWithin.of_same (hm : t.mem = s.mem) (ho : t.outLen = s.outLen) (hc : t.outCapacity = s.outCapacity) :
    OutputWithin s t :=
  .of_append (bs := []) hw hl hm ho hc

theorem OutputWithin.complete : OutputWithin s s.complete := by
  refine ⟨?_, by simpa using hl, fun a ha => ?_⟩
  · rw [State.complete_mem]
    exact Memory.fillFree_wf hw _ _ _
  · rw [State.complete_mem]
    exact Memory.read_fillFree_out _ (by omega)

/-- What one pixel appends fits the output buffer. -/
theorem encPixel_output {cur : Pixel} (hr : s.run.toNat ≤ 61) (h : encPixel cur s = some t) : OutputWithin s t := by
  rcases encPixel_cases hr h with ⟨-, -, -, rfl⟩ | ⟨-, -, hf, rfl⟩ | ⟨-, hf, rfl⟩
  · exact .of_same hw hl rfl rfl rfl
  · exact .of_append hw (bs := [runByte s]) hf rfl rfl rfl
  · rw [← List.length_append] at hf
    exact .of_append hw hf (newPixelResult_mem cur s) (newPixelResult_outLen cur s) (newPixelResult_outCapacity cur s)

/-- What a chunk that completes appends fits the output buffer. -/
theorem exec_output {i : Instr} (ht : s.truncated i.length = false) (h : exec i s = .next (chunkResult i s)) :
    OutputWithin s (chunkResult i s) := by
  have hf : s.fits (chunkBytes i s).length := by
    by_contra hf
    have hb : chunkBytes i s ≠ [] := fun hb => hf (by rw [hb]; exact hl)
    rw [exec_stuck ht hb hf] at h
    cases h
  exact .of_append hw hf (chunkResult_mem i s) (chunkResult_outLen i s) (chunkResult_outCapacity i s)

end

/-! ## The invariant, by position -/

theorem positionInv_hdr {s : State} (hp : s.phase = .hdr) :
    s.positionInv ↔ s.outLen = 0 ∧ (s.hdrStep ≠ .opInit → s.workingFresh)
      ∧ (s.hdrStep = .header → s.op = .encode → s.encodeChecked)
      ∧ (s.hdrStep = .header → s.op = .decode → headerLength + footerLength ≤ s.inLen) := by
  simp only [State.positionInv, hp]

theorem positionInv_encodeBody {s : State} (hp : s.phase = .body) (ho : s.op = .encode) :
    s.positionInv ↔ s.encodeChecked ∧ s.pix < s.npix ∧ s.run.toNat ≤ 61 ∧ (s.channels = 3#8 → s.prev.a = 255#8) := by
  simp only [State.positionInv, hp, ho]

theorem positionInv_decodeBody {s : State} (hp : s.phase = .body) (ho : s.op = .decode) :
    s.positionInv ↔ s.headerLegal ∧ headerLength ≤ s.pos ∧ s.pos + footerLength ≤ s.inLen := by
  simp only [State.positionInv, hp, ho]

theorem positionInv_encodeFooter {s : State} (hp : s.phase = .ftr) (ho : s.op = .encode) :
    s.positionInv ↔ s.encodeChecked ∧ s.pix = s.npix ∧ s.run = 0#6 := by
  simp only [State.positionInv, hp, ho]

theorem State.Inv.of_stopped {s : State} (hw : s.mem.wf) (hr : s.run.toNat ≤ 62)
    (he : s.err = .noError ↔ s.state ≠ .error) (ho : s.state = .idle ∨ s.state = .error → s.outLen = 0)
    (hb : s.state ≠ .busy) : s.Inv :=
  ⟨hw, hr, he, ho, fun h => absurd h hb⟩

theorem State.Inv.abort {s : State} (hw : s.mem.wf) {e : Err} (he : e ≠ .noError) : (s.abort e).Inv :=
  .of_stopped (OutputWithin.abort hw e).1 (by simp) (by simp [he]) (by simp) (by simp)

theorem State.Inv.complete {s : State} (hw : s.mem.wf) (hl : s.outLen ≤ s.outCapacity) (he : s.err = .noError) :
    s.complete.Inv :=
  .of_stopped (OutputWithin.complete hw hl).1 s.complete_run_le (by simp [he]) (by simp) (by simp)

theorem State.Inv.powerOn {s : State} (hw : s.mem.wf) : s.powerOn.Inv := by
  refine .of_stopped ?_ (by simp) (by simp) (by simp) (by simp)
  rw [State.powerOn_mem]
  split
  · exact Memory.fillFree_wf hw _ _ _
  · exact hw

/-- What an operation in progress knows of its state. -/
theorem State.Inv.of_busy {s : State} (h : s.Inv) (hb : s.state = .busy) :
    s.mem.wf ∧ s.err = .noError ∧ s.outLen ≤ s.outCapacity ∧ s.positionInv := by
  obtain ⟨hw, -, he, -, hp⟩ := h
  obtain ⟨-, hl, hp⟩ := hp hb
  exact ⟨hw, he.2 (by simp [hb]), hl, hp⟩

/-- The operation goes on in `t`, without an error and on the same buffers. -/
def GoesOn (s t : State) : Prop :=
  t.state = s.state ∧ t.err = s.err ∧ t.inBase = s.inBase ∧ t.inLen = s.inLen ∧ t.outBase = s.outBase
    ∧ t.outCapacity = s.outCapacity

/-- An operation that goes on keeps the invariant when its output stays within bounds and its new position is legal. -/
theorem State.Inv.goesOn {s t : State} (h : s.Inv) (hb : s.state = .busy) (ho : OutputWithin s t) (hg : GoesOn s t)
    (hr : t.run.toNat ≤ 62) (hp : t.positionInv) : t.Inv := by
  obtain ⟨-, -, he, -, hd⟩ := h
  obtain ⟨hw, hl, -⟩ := ho
  obtain ⟨hst, her, hib, hil, hob, hoc⟩ := hg
  refine ⟨hw, hr, by rw [her, hst]; exact he, by simp [hst, hb], fun _ => ⟨?_, hl, hp⟩⟩
  rw [buffersDisjoint_congr hib hil hob hoc]
  exact (hd hb).1

/-- `encodeChecked` is about the operand registers, which no move of an ENCODE writes. -/
theorem encodeChecked_congr {s t : State} (hw : t.width = s.width) (hh : t.height = s.height)
    (hc : t.channels = s.channels) (hs : t.colorspace = s.colorspace) (hl : t.inLen = s.inLen) :
    t.encodeChecked ↔ s.encodeChecked := by
  simp only [State.encodeChecked, State.headerLegal, hw, hh, hc, hs, hl]

/-! ## The invariant, move by move -/

/-- A pixel leaves a run of at most 61, and none behind the last pixel (R175, R176). -/
theorem encPixel_run {cur : Pixel} {s t : State} (hr : s.run.toNat ≤ 61) (h : encPixel cur s = some t) :
    t.run.toNat ≤ 61 ∧ (s.lastPixel = true → t.run = 0#6) := by
  rcases encPixel_cases hr h with ⟨-, hlt, hlast, rfl⟩ | ⟨-, -, -, rfl⟩ | ⟨-, -, rfl⟩
  · rw [State.setRun_run, run_succ s.run hr]
    exact ⟨by omega, by simp [hlast]⟩
  · exact ⟨by simp, fun _ => rfl⟩
  · exact ⟨by simp, fun _ => newPixelResult_run cur s⟩

section
variable {s : State} (hi : s.Inv) (hb : s.state = .busy)
include hi hb

theorem State.Inv.opInit (hp : s.phase = .hdr) : (Machine.opInit s).Inv := by
  obtain ⟨hw, -, hl, hpos⟩ := hi.of_busy hb
  obtain ⟨h0, -⟩ := (positionInv_hdr hp).1 hpos
  refine hi.goesOn hb (.of_same hw hl rfl rfl rfl) (by simp [GoesOn]) (by simp) ?_
  exact (positionInv_hdr (s := Machine.opInit s) hp).2 ⟨h0, fun _ => ⟨rfl, rfl, rfl⟩, nofun, nofun⟩

/-- ENCVALID and DECVALID pass: what they have checked is what the header step relies on. -/
theorem State.Inv.checkPasses (hp : s.phase = .hdr) (hh : s.hdrStep = .check)
    (he : s.op = .encode → s.encodeChecked) (hd : s.op = .decode → headerLength + footerLength ≤ s.inLen) :
    ({ s with hdrStep := .header } : State).Inv := by
  obtain ⟨hw, -, hl, hpos⟩ := hi.of_busy hb
  obtain ⟨h0, hf, -, -⟩ := (positionInv_hdr hp).1 hpos
  refine hi.goesOn hb (.of_same hw hl rfl rfl rfl) (by simp [GoesOn]) hi.2.1 ?_
  exact (positionInv_hdr (s := { s with hdrStep := .header }) hp).2
    ⟨h0, fun _ => hf (by simp [hh]), fun _ => he, fun _ => hd⟩

theorem State.Inv.headerEmit (hp : s.phase = .hdr) (hh : s.hdrStep = .header) (ho : s.op = .encode) (hf : s.fits 14) :
    (enterEncodeBody (s.withOutput s.headerBytes)).Inv := by
  obtain ⟨hw, -, -, hpos⟩ := hi.of_busy hb
  obtain ⟨-, hfresh, hc, -⟩ := (positionInv_hdr hp).1 hpos
  obtain ⟨-, hprev, hrun⟩ := hfresh (by simp [hh])
  have hc := hc hh ho
  have hout : OutputWithin s (enterEncodeBody (s.withOutput s.headerBytes)) :=
    .of_append hw (by rwa [State.headerBytes_length]) rfl rfl rfl
  refine hi.goesOn hb hout (by simp [GoesOn]) (by simp [hrun]) ?_
  by_cases hn : s.npix = 0
  · have hphase : (enterEncodeBody (s.withOutput s.headerBytes)).phase = .ftr := if_pos hn
    exact (positionInv_encodeFooter hphase ho).2 ⟨hc, hn.symm, hrun⟩
  · have hphase : (enterEncodeBody (s.withOutput s.headerBytes)).phase = .body := if_neg hn
    exact (positionInv_encodeBody hphase ho).2
      ⟨hc, Nat.pos_of_ne_zero hn, by simp [hrun], fun _ => by simp [hprev, prevInit]⟩

theorem State.Inv.headerParse (hp : s.phase = .hdr) (hh : s.hdrStep = .header) (ho : s.op = .decode) (w h : Word32)
    {ch cs : Byte} (hch : legalChannels ch = true) (hcs : legalColorspace cs = true) :
    (enterDecodeBody (s.setHeader w h ch cs)).Inv := by
  obtain ⟨hw, -, hl, hpos⟩ := hi.of_busy hb
  obtain ⟨-, -, -, hlen⟩ := (positionInv_hdr hp).1 hpos
  refine hi.goesOn hb (.of_same hw hl rfl rfl rfl) (by simp [GoesOn]) hi.2.1 ?_
  exact (positionInv_decodeBody (s := enterDecodeBody (s.setHeader w h ch cs)) rfl ho).2
    ⟨⟨hch, hcs⟩, Nat.le_refl _, hlen hh ho⟩

theorem State.Inv.pixel (hp : s.phase = .body) (ho : s.op = .encode) {cur : Pixel} {u : State}
    (hc : s.fetchPixel s.pix = some cur) (hu : encPixel cur s = some u) : (advancePixel cur u).Inv := by
  obtain ⟨hw, -, hl, hpos⟩ := hi.of_busy hb
  obtain ⟨hchk, hpix, hr, -⟩ := (positionInv_encodeBody hp ho).1 hpos
  obtain ⟨hur, hulast⟩ := encPixel_run hr hu
  obtain ⟨hI, huphase, hupix, -⟩ := encPixel_frame hu
  obtain ⟨hst, her, hop, hwidth, hheight, hch, hcs, hib, hil, hob, hoc, -⟩ := hI
  have hchk' : (advancePixel cur u).encodeChecked := (encodeChecked_congr hwidth hheight hch hcs hil).2 hchk
  have hn : u.npix = s.npix := npix_congr hwidth hheight
  have hout : OutputWithin s u := encPixel_output hw hl hr hu
  refine hi.goesOn (t := advancePixel cur u) hb hout ⟨hst, her, hib, hil, hob, hoc⟩ (Nat.le_succ_of_le hur) ?_
  by_cases hlast : s.pix + 1 = s.npix
  · have hphase : (advancePixel cur u).phase = .ftr := by simp [hupix, hn, hlast]
    have hpix' : (advancePixel cur u).pix = (advancePixel cur u).npix := by
      rw [advancePixel_pix, hupix, hlast]
      exact hn.symm
    exact (positionInv_encodeFooter hphase (hop.trans ho)).2 ⟨hchk', hpix', hulast (decide_eq_true hlast)⟩
  · have hphase : (advancePixel cur u).phase = .body := by simp [hupix, hn, hlast, huphase, hp]
    have hpix' : (advancePixel cur u).pix < (advancePixel cur u).npix := by
      rw [advancePixel_pix, hupix, show (advancePixel cur u).npix = s.npix from hn]
      omega
    exact (positionInv_encodeBody hphase (hop.trans ho)).2
      ⟨hchk', hpix', hur, fun h => fetch_alpha hc (hch.symm.trans h)⟩

theorem State.Inv.chunk (hp : s.phase = .body) (ho : s.op = .decode) {i : Instr} (ht : s.truncated i.length = false)
    (hx : exec i s = .next (chunkResult i s)) : (chunkResult i s).Inv := by
  obtain ⟨hw, -, hl, hpos⟩ := hi.of_busy hb
  obtain ⟨⟨hch, hcs⟩, hpos, -⟩ := (positionInv_decodeBody hp ho).1 hpos
  have hend := of_truncated_false ht
  refine hi.goesOn hb (exec_output hw hl ht hx) (by simp [GoesOn]) (by simpa using hi.2.1) ?_
  have hlegal : (chunkResult i s).headerLegal := ⟨by simpa using hch, by simpa using hcs⟩
  refine (positionInv_decodeBody (by simpa using hp) (by simpa using ho)).2 ⟨hlegal, ?_, ?_⟩
  · rw [chunkResult_pos]
    omega
  · rw [chunkResult_pos, chunkResult_inLen]
    exact hend

theorem EngineMove.inv {t : State} (h : EngineMove s t) : t.Inv := by
  obtain ⟨hw, he, hl, -⟩ := hi.of_busy hb
  cases h with
  | opInit hp _ => exact hi.opInit hb hp
  | encCheckFails _ _ _ e he => exact .abort hw he
  | encCheckPasses hp hh ho hc => exact hi.checkPasses hb hp hh (fun _ => hc) (by simp [ho])
  | decCheckFails => exact .abort hw nofun
  | decCheckPasses hp hh ho hl => exact hi.checkPasses hb hp hh (by simp [ho]) (fun _ => hl)
  | headerEmit hp hh ho hf => exact hi.headerEmit hb hp hh ho hf
  | headerFails _ _ _ e he => exact .abort hw he
  | headerParse hp hh ho w h ch cs hch hcs => exact hi.headerParse hb hp hh ho w h hch hcs
  | pixel hp ho _ cur u hc hu => exact hi.pixel hb hp ho hc hu
  | truncated => exact .abort hw nofun
  | chunk hp ho _ bs i _ _ ht hx => exact hi.chunk hb hp ho ht hx
  | stop => exact .complete hw hl he
  | footer _ _ hf =>
    obtain ⟨hw', hl', -⟩ : OutputWithin s (s.withOutput footerBytes) :=
      .of_append (bs := footerBytes) hw hf rfl rfl rfl
    exact .complete hw' hl' he

end

theorem Access.inv {s t : State} (hi : s.Inv) (hm : s.hostMayAccess) (h : Access s t) : t.Inv := by
  obtain ⟨hw, hr, he, ho, -⟩ := hi
  cases h with
  | issue op hd =>
    exact ⟨hw, hr, by simp, fun _ => rfl,
      fun _ => ⟨hd, Nat.zero_le _, (positionInv_hdr rfl).2 ⟨rfl, nofun, nofun, nofun⟩⟩⟩
  | place a v => exact .of_stopped (Memory.write_wf hw a v) hr he ho hm.1
  | _ => exact .of_stopped hw hr he ho hm.1

/-- Settles O47: the invariant does not read the host's list, and each thing a step can be (`step_next`) keeps it. -/
theorem everyStepKeepsTheInvariant : Obligations.EveryStepKeepsTheInvariant := by
  intro s t hi h
  obtain ⟨l, hstep⟩ := step_next h
  have hu : ({ s with host := l } : State).Inv := hi
  rcases hstep with ⟨hb, he⟩ | ⟨-, rfl⟩ | rfl | rfl | ⟨hm, ha⟩
  · exact (engineMove_of_step he).inv hu hb
  · exact hu
  · exact hu
  · exact .powerOn hu.1
  · exact ha.inv hu hm

/-! ## What an ENCODE leaves alone (R33, R135) -/

/-- No engine move writes memory outside the output buffer, or more output than its capacity (R68). -/
theorem EngineMove.outputWithin {s t : State} (hi : s.Inv) (hb : s.state = .busy) (h : EngineMove s t) :
    OutputWithin s t := by
  obtain ⟨hw, -, hl, hpos⟩ := hi.of_busy hb
  cases h with
  | encCheckFails => exact .abort hw _
  | decCheckFails => exact .abort hw _
  | headerFails => exact .abort hw _
  | truncated => exact .abort hw _
  | headerEmit _ _ _ hf =>
    exact .of_append (bs := s.headerBytes) hw (by rwa [State.headerBytes_length]) rfl rfl rfl
  | pixel hp ho _ cur u _ hu =>
    obtain ⟨-, -, hr, -⟩ := (positionInv_encodeBody hp ho).1 hpos
    have hout : OutputWithin s u := encPixel_output hw hl hr hu
    exact hout
  | chunk _ _ _ bs i _ _ ht hx => exact exec_output hw hl ht hx
  | stop => exact .complete hw hl
  | footer _ _ hf =>
    have happ : OutputWithin s (s.withOutput footerBytes) := .of_append (bs := footerBytes) hw hf rfl rfl rfl
    exact happ.trans rfl rfl (.complete happ.1 happ.2.1)
  | _ => exact .of_same hw hl rfl rfl rfl

/-- The operand registers and `CMD.OP` are the same. -/
def OperandsKept (s t : State) : Prop :=
  t.width = s.width ∧ t.height = s.height ∧ t.channels = s.channels ∧ t.colorspace = s.colorspace
    ∧ t.inBase = s.inBase ∧ t.inLen = s.inLen ∧ t.outBase = s.outBase ∧ t.op = s.op

/-- An abort frees the header registers of a DECODE only (R263, U8). -/
theorem OperandsKept.abort {s : State} (ho : s.op = .encode) (e : Err) : OperandsKept s (s.abort e) :=
  ⟨s.abort_width_encode e ho, s.abort_height_encode e ho, s.abort_channels_encode e ho, s.abort_colorspace_encode e ho,
    s.abort_inBase e, s.abort_inLen e, s.abort_outBase e, s.abort_op e⟩

theorem EngineMove.operandsKept {s t : State} (ho : s.op = .encode) (h : EngineMove s t) : OperandsKept s t := by
  cases h with
  | opInit => exact ⟨rfl, rfl, rfl, rfl, rfl, rfl, rfl, rfl⟩
  | encCheckFails => exact .abort ho _
  | encCheckPasses => exact ⟨rfl, rfl, rfl, rfl, rfl, rfl, rfl, rfl⟩
  | headerEmit => exact ⟨rfl, rfl, rfl, rfl, rfl, rfl, rfl, rfl⟩
  | pixel _ _ _ cur u _ hu =>
    obtain ⟨⟨-, -, hop, hw, hh, hc, hs, hib, hil, hob, -⟩, -⟩ := encPixel_frame hu
    exact ⟨hw, hh, hc, hs, hib, hil, hob, hop⟩
  | footer => exact ⟨rfl, rfl, rfl, rfl, rfl, rfl, rfl, rfl⟩
  | _ => simp_all -- the moves of a DECODE

/-- Settles O37: the registers move by move, and memory from the bounds every engine move keeps. -/
theorem encodeNeverChangesItsOperands : Obligations.EncodeNeverChangesItsOperands := by
  intro s t hi hm ho h
  have hmove : EngineMove s t := engineMove_of_step (step_engine hm ▸ h)
  obtain ⟨-, -, hmem⟩ := hmove.outputWithin hi hm.1
  obtain ⟨hw, hh, hc, hs, hib, hil, hob, hop⟩ := hmove.operandsKept ho
  exact ⟨hw, hh, hc, hs, hib, hil, hob, hop, hmem⟩

/-! ## The pixel cache (R28) -/

theorem slotsHashed_congr {s t : State} (hc : t.cache = s.cache) (h : s.slotsHashed) : t.slotsHashed := by
  unfold State.slotsHashed State.cacheRead
  rw [hc]
  exact h

/-- UPDATE writes a pixel to the slot of its own hash (R153). -/
theorem slotsHashed_cacheUpdate {s : State} (p : Pixel) (h : s.slotsHashed) : (s.cacheUpdate p).slotsHashed := by
  intro i
  rw [State.cacheUpdate, State.cacheRead_cacheWrite]
  by_cases hi : i = pixelHash p
  · rw [if_pos hi]
    exact .inr hi.symm
  · rw [if_neg hi]
    exact h i

/-- A chunk leaves the cache or updates it with the pixel it reconstructs (R226 to R231). -/
theorem chunkCache_cases (i : Instr) (s : State) :
    chunkCache i s = s ∨ chunkCache i s = s.cacheUpdate (chunkPixel i s) := by
  cases i with
  | index => exact .inl rfl
  | run => exact .inl rfl
  | _ => exact .inr rfl

/-- All an engine move that does not end the operation does to the cache: OPINIT clears it, any other leaves it or updates
it with one pixel. -/
theorem EngineMove.cache_cases {s t : State} (h : EngineMove s t) (hb : t.state = .busy) :
    t.cache = Vector.replicate 64 zeroPixel
      ∨ ¬ (s.phase = .hdr ∧ s.hdrStep = .opInit) ∧ (t.cache = s.cache ∨ ∃ p, t.cache = (s.cacheUpdate p).cache) := by
  cases h with
  | opInit => exact .inl rfl
  | encCheckPasses _ hh => exact .inr ⟨by simp [hh], .inl rfl⟩
  | decCheckPasses _ hh => exact .inr ⟨by simp [hh], .inl rfl⟩
  | headerEmit _ hh => exact .inr ⟨by simp [hh], .inl rfl⟩
  | headerParse _ hh => exact .inr ⟨by simp [hh], .inl rfl⟩
  | pixel hp _ _ cur u _ hu =>
    obtain ⟨-, -, -, -, -, hc⟩ := encPixel_frame hu
    exact .inr ⟨by simp [hp], hc.imp_right fun hc => ⟨cur, hc⟩⟩
  | chunk hp _ _ bs i =>
    rw [chunkResult_cache]
    refine .inr ⟨by simp [hp], ?_⟩
    rcases chunkCache_cases i s with hc | hc
    · exact .inl (by rw [hc])
    · exact .inr ⟨_, by rw [hc]⟩
  | _ => simp at hb -- the moves that end the operation: `STATE` is `DONE` or `ERROR`

/-- Settles O48: a slot is zero after OPINIT, and afterwards only an UPDATE writes one. -/
theorem cacheSlotsHoldPixelsOfTheirHash : Obligations.CacheSlotsHoldPixelsOfTheirHash := by
  intro s t hm h hb hs
  have hmove : EngineMove s t := engineMove_of_step (step_engine hm ▸ h)
  rcases hmove.cache_cases hb with hzero | ⟨hlater, hc⟩
  · exact fun i => .inl (t.cacheRead_zero i hzero)
  · have hs := hs.resolve_left hlater
    rcases hc with hc | ⟨p, hc⟩
    · exact slotsHashed_congr hc hs
    · exact slotsHashed_congr hc (slotsHashed_cacheUpdate p hs)

/-! ## The host's accesses (R35, R36) -/

/-- Settles O40: a poll reads the two codes, and marks the end as read in `DONE` and in `ERROR`. -/
theorem pollReturnsTheStatusCodes : Obligations.PollReturnsTheStatusCodes := by
  intro s rest hh
  refine ⟨s.state.code, s.err.code, ?_, ?_, ?_⟩
  · rw [step_host hh nofun]
    simp only [hostMove, resolveBus, directMove, readStatus]
    cases s.state <;> rfl
  · cases s.state <;> rfl
  · cases s.err <;> rfl

/-- An access of a host that may make it is the step, with its outcome `o`. -/
theorem step_access {s : State} (hs : s.hostMayAccess) {a : HostAct} {rest : List HostAct} (hh : s.host = a :: rest)
    (ha : a ≠ .await) {o : Host.Outcome State Fault Refusal}
    (ho : hostMove a { s with host := rest } = whenHostMay { s with host := rest } o) : step s = o := by
  rw [step_host hh ha, ho]
  exact whenHostMay_of hs o

theorem whenAddress_eq (s : State) (n : Nat) (o : Host.Outcome State Fault Refusal) :
    whenAddress s n o = if n < 2 ^ s.params.csrMap.addressBits then o else .refused .noSuchAccess := by
  simp only [whenAddress, State.addressExists, decide_eq_true_eq]

section
variable {s : State} {a : Nat}

theorem readHostByte_written {v : Byte} (ha : s.addressExists a = true) (hv : s.mem.read a = some v) :
    readHostByte a s = .next { s with answer := .byte v } := by
  simp [readHostByte, ha, hv]

theorem readHostByte_noAddress (ha : s.addressExists a = false) : readHostByte a s = .fault .noSuchAddress := by
  simp [readHostByte, ha]

theorem writeHostByte_exists (v : Byte) (ha : s.addressExists a = true) :
    writeHostByte a v s = .next { s with mem := s.mem.write a v } := by
  simp [writeHostByte, ha]

theorem writeHostByte_noAddress (v : Byte) (ha : s.addressExists a = false) :
    writeHostByte a v s = .fault .noSuchAddress := by
  simp [writeHostByte, ha]

end

/-- Settles O41, register by register. -/
theorem hostWritesStoreTheValue : Obligations.HostWritesStoreTheValue := by
  intro s rest hs
  refine ⟨fun v hh => ?width, fun v hh => ?height, fun v hh => ?channels, fun v hh => ?colorspace, fun n hh => ?inBase,
    fun n hh => ?inLen, fun n hh => ?outBase⟩
  case inBase => rw [step_access hs hh nofun rfl, whenAddress_eq]
  case outBase => rw [step_access hs hh nofun rfl, whenAddress_eq]
  all_goals exact step_access hs hh nofun rfl

/-- Settles O42: each access as `directMove` gives it, memory by the laws of a written byte. -/
theorem hostReadsAndPlacesBytes : Obligations.HostReadsAndPlacesBytes := by
  intro s rest hs
  refine ⟨fun r hh => ?readReg, fun a v hh ha hv => ?readByte, fun a v hh ha => ?placeByte, fun a v hh ha => ?noAddress,
    fun n hh => ?provideOutput⟩
  case readReg =>
    rw [step_access hs hh nofun rfl]
    cases r <;> rfl
  case readByte =>
    rw [step_access hs hh nofun rfl]
    exact readHostByte_written ha hv
  case placeByte =>
    refine ⟨s.mem.write a v, ?_, Memory.read_write_same _ _ _, fun k hk => Memory.read_write_other _ _ hk⟩
    rw [step_access hs hh nofun rfl]
    exact writeHostByte_exists v ha
  case noAddress =>
    rcases hh with hh | hh
    · rw [step_access hs hh nofun rfl]
      exact readHostByte_noAddress ha
    · rw [step_access hs hh nofun rfl]
      exact writeHostByte_noAddress v ha
  case provideOutput => exact step_access hs hh nofun rfl

/-! ## The state after power-on reset (R40) -/

/-- Settles O44. -/
theorem resetLeavesIdleNoErrorNoOutput : Obligations.ResetLeavesIdleNoErrorNoOutput := ⟨rfl, rfl, rfl⟩

/-- Settles O46: the engine is idle with an empty memory, and the zero of the address registers is an address. -/
theorem resetMeetsTheInvariant : Obligations.ResetMeetsTheInvariant := by
  have hinv : State.reset.Inv := .of_stopped List.Pairwise.nil (by decide) (by decide) (fun _ => rfl) (by decide)
  have hzero : State.reset.addressExists 0 = true := decide_eq_true (Nat.two_pow_pos _)
  exact ⟨hinv, nofun, fun _ => rfl, nofun, hzero, hzero⟩

end Sys2Proof.Machine
end

section
/-! PROOFS of the memory's statements (20_memory.md): appends beyond the output capacity (R68), the input buffer and the
host's duties (R69, R71, R74), whose turn it is (log entry 11), and that every operation goes on and ends (R299). -/

namespace Sys2Proof.Machine

/-! ## What every engine move keeps -/

/-- The operation, its buffers and the host's side of it are the same. -/
def OperationKept (s t : State) : Prop :=
  t.op = s.op ∧ t.inBase = s.inBase ∧ t.inLen = s.inLen ∧ t.outBase = s.outBase ∧ t.outCapacity = s.outCapacity
    ∧ t.unread = s.unread ∧ t.host = s.host

theorem EngineMove.operationKept {s t : State} (h : EngineMove s t) : OperationKept s t := by
  cases h with
  | pixel _ _ _ cur u _ hu =>
    obtain ⟨⟨-, -, hop, -, -, -, -, hib, hil, hob, hoc, -, -, hh, -, hun, -⟩, -⟩ := encPixel_frame hu
    exact ⟨hop, hib, hil, hob, hoc, hun, hh⟩
  | _ => simp [OperationKept]

/-- An engine move goes on, completes or aborts: it never leaves the engine idle. -/
theorem EngineMove.state_cases {s t : State} (h : EngineMove s t) :
    t.state = s.state ∨ t.state = .done ∨ t.state = .error := by
  cases h with
  | pixel _ _ _ cur u _ hu =>
    obtain ⟨⟨hst, -⟩, -⟩ := encPixel_frame hu
    exact .inl hst
  | _ => simp

/-! ## The input buffer (R69, R74) -/

/-- Buffers that are apart: an input byte is no output byte. -/
theorem input_outside_output {s : State} (hd : s.buffersDisjoint = true) {k : Nat} (hk : k < s.inLen) :
    s.inBase + k < s.outBase ∨ s.outBase + s.outCapacity ≤ s.inBase + k := by
  simp only [State.buffersDisjoint, Bool.or_eq_true, decide_eq_true_eq] at hd
  omega

/-- A power-on reset frees at most the output buffer (U13). -/
theorem State.powerOn_read_outside (s : State) {a : Nat} (ha : a < s.outBase ∨ s.outBase + s.outCapacity ≤ a) :
    s.powerOn.mem.read a = s.mem.read a := by
  rw [State.powerOn_mem]
  split
  · exact Memory.read_fillFree_out _ ha
  · rfl

section
variable {s t : State} (hi : s.Inv) (hb : s.state = .busy) (h : EngineMove s t)
include hi hb h

theorem EngineMove.input_unchanged {k : Nat} (hk : k < s.inLen) :
    t.mem.read (s.inBase + k) = s.mem.read (s.inBase + k) := by
  obtain ⟨-, -, hmem⟩ := h.outputWithin hi hb
  obtain ⟨-, -, -, -, hpos⟩ := hi
  obtain ⟨hd, -⟩ := hpos hb
  exact hmem _ (input_outside_output hd hk)

theorem EngineMove.inputPlaced (hp : s.inputPlaced) : t.inputPlaced := by
  obtain ⟨-, hib, hil, -⟩ := h.operationKept
  intro k hk
  rw [readIn_congr hib hil (fun k hk => h.input_unchanged hi hb hk)]
  exact hp k (hil ▸ hk)

end

/-- Settles O49: an engine step by the bounds of its output; while the end is unread the host has only polls, which leave
memory, and a reset, which frees no more than the output buffer. -/
theorem engineNeverWritesItsInput : Obligations.EngineNeverWritesItsInput := by
  refine ⟨fun s t hi hm h k hk => ?_, fun s t hi hd hu h k hk => ?_⟩
  · exact (engineMove_of_step (step_engine hm ▸ h)).input_unchanged hi hm.1 hk
  · obtain ⟨-, -, hbuf, -⟩ := hd
    obtain ⟨hdis, -⟩ := hbuf hu
    obtain ⟨l, ⟨hb, he⟩ | ⟨-, rfl⟩ | rfl | rfl | ⟨hm, -⟩⟩ := step_next h
    · have hil : ({ s with host := l } : State).Inv := hi
      exact (engineMove_of_step he).input_unchanged hil hb hk
    · rfl
    · rfl
    · exact State.powerOn_read_outside { s with host := l } (input_outside_output hdis hk)
    · exact absurd (hu.symm.trans hm.2) nofun

/-! ## The host's duties (R69, R71, R293, R294) -/

theorem buffersExist_congr {s t : State} (hp : t.params = s.params) (hl : t.inLen = s.inLen) (hb : t.inBase = s.inBase)
    (ho : t.outBase = s.outBase) (hc : t.outCapacity = s.outCapacity) : t.buffersExist = s.buffersExist := by
  simp only [State.buffersExist, hp, hl, hb, ho, hc]

theorem addressExists_congr {s t : State} (hp : t.params = s.params) (a : Nat) : t.addressExists a = s.addressExists a := by
  simp only [State.addressExists, hp]

/-- Between operations, the last one's end read, the duties ask for addresses alone. -/
theorem State.dutiesKept.of_read {s : State} (hb : s.state ≠ .busy) (hu : s.unread = false)
    (hin : s.addressExists s.inBase = true) (hout : s.addressExists s.outBase = true) : s.dutiesKept :=
  ⟨fun h => absurd h hb, fun _ => hu, fun h => absurd (hu.symm.trans h) nofun, hin, hout⟩

theorem EngineMove.dutiesKept {s t : State} (hi : s.Inv) (hb : s.state = .busy) (hd : s.dutiesKept)
    (h : EngineMove s t) : t.dutiesKept := by
  obtain ⟨hun, -, hbuf, hin, hout⟩ := hd
  obtain ⟨hdis, hex, hpl⟩ := hbuf (hun hb)
  obtain ⟨-, hib, hil, hob, hoc, hu, -⟩ := h.operationKept
  have hp := h.params_eq
  refine ⟨fun _ => hu.trans (hun hb), fun hidle => ?_, fun _ => ⟨?_, ?_, h.inputPlaced hi hb hpl⟩, ?_, ?_⟩
  · rcases h.state_cases with hst | hst | hst <;> simp [hst, hb] at hidle
  · rw [buffersDisjoint_congr hib hil hob hoc, hdis]
  · rw [buffersExist_congr hp hil hib hob hoc, hex]
  · rw [addressExists_congr hp, hib, hin]
  · rw [addressExists_congr hp, hob, hout]

/-- A poll that reads `DONE` or `ERROR` ends the span of the duties (R71). -/
theorem State.dutiesKept.readStatus {s : State} (hd : s.dutiesKept) : (readStatus s).dutiesKept := by
  obtain ⟨hbusy, hidle, hbuf, hin, hout⟩ := hd
  refine ⟨fun hb => ?_, fun hi => ?_, fun hu => hbuf ?_, hin, hout⟩
  · rw [readStatus_state] at hb
    simpa [hb] using hbusy hb
  · rw [readStatus_state] at hi
    simpa [hi] using hidle hi
  · rw [readStatus_unread] at hu
    split at hu
    · cases hu
    · exact hu

theorem Access.dutiesKept {s t : State} (hd : s.dutiesKept) (hm : s.hostMayAccess) (h : Access s t) : t.dutiesKept := by
  obtain ⟨-, -, -, hin, hout⟩ := hd
  obtain ⟨hb, hu⟩ := hm
  cases h with
  | issue op hdis hex hpl => exact ⟨fun _ => rfl, nofun, fun _ => ⟨hdis, hex, hpl⟩, hin, hout⟩
  | inBase n hn => exact .of_read hb hu hn hout
  | outBase n hn => exact .of_read hb hu hin hn
  | _ => exact .of_read hb hu hin hout

/-- Settles O60: each thing a step can be (`step_next`) keeps the duties, which do not read the host's list. -/
theorem everyStepKeepsTheHostsDuties : Obligations.EveryStepKeepsTheHostsDuties := by
  intro s t hi hd h
  obtain ⟨l, hstep⟩ := step_next h
  have hil : ({ s with host := l } : State).Inv := hi
  have hdl : ({ s with host := l } : State).dutiesKept := hd
  rcases hstep with ⟨hb, he⟩ | ⟨-, rfl⟩ | rfl | rfl | ⟨hm, ha⟩
  · exact (engineMove_of_step he).dutiesKept hil hb hdl
  · exact hdl
  · exact hdl.readStatus
  · obtain ⟨hin, hout⟩ := State.powerOn_addresses { s with host := l }
    exact .of_read (by simp) (by simp) hin hout
  · exact ha.dutiesKept hdl hm

/-! ## Every position has a step, or is stuck (R68, R299) -/

/-- The outcome is a next state, or the fault of an append beyond the output capacity. -/
def StepsOrStuck (o : Host.Outcome State Fault Refusal) : Prop := (∃ t, o = .next t) ∨ o = .fault .outputStuck

theorem StepsOrStuck.next (t : State) : StepsOrStuck (.next t) := .inl ⟨t, rfl⟩

theorem headerEmit_stepsOrStuck (s : State) : StepsOrStuck (headerEmit s) := by
  unfold headerEmit
  split
  · exact .next _
  · exact .inr rfl

theorem footerEmit_stepsOrStuck (s : State) : StepsOrStuck (footerEmit s) := by
  unfold footerEmit
  split
  · exact .next _
  · exact .inr rfl

/-- A byte of a placed input can be read. -/
theorem State.inputPlaced.readIn {s : State} (hp : s.inputPlaced) {k : Nat} (hk : k < s.inLen) :
    ∃ v, s.readIn k = some v := Option.isSome_iff_exists.1 (hp k hk)

theorem State.inputPlaced.readInBytes {s : State} (hp : s.inputPlaced) {k n : Nat} (hk : k + n ≤ s.inLen) :
    ∃ bs, s.readInBytes k n = some bs := readInBytes_isSome fun j hj => hp (k + j) (by omega)

/-- A placed input has every pixel (R172). -/
theorem fetchPixel_placed {s : State} (hc : s.encodeChecked) (hp : s.inputPlaced) {i : Nat} (hi : i < s.npix) :
    ∃ p, s.fetchPixel i = some p := by
  obtain ⟨ps, hlen, hfetch⟩ := input_pixels hc hp
  exact ⟨_, hfetch i ps[i] (List.getElem?_eq_getElem _)⟩

theorem encStep_stepsOrStuck {s : State} (hc : s.encodeChecked) (hp : s.inputPlaced) (hx : s.pix < s.npix) :
    StepsOrStuck (encStep s) := by
  obtain ⟨cur, hcur⟩ := fetchPixel_placed hc hp hx
  simp only [encStep, hx, if_true, hcur]
  cases encPixel cur s with
  | some t => exact .next _
  | none => exact .inr rfl

/-- HEADER_PARSE of a placed input that DECVALID passed finds all its bytes (R131). -/
theorem parseFields_next {s : State} (hp : s.inputPlaced) (hl : headerLength + footerLength ≤ s.inLen) :
    ∃ t, parseFields s = .next t := by
  unfold headerLength footerLength at hl
  obtain ⟨ch, hch⟩ := hp.readIn (k := 12) (by omega)
  obtain ⟨cs, hcs⟩ := hp.readIn (k := 13) (by omega)
  obtain ⟨bs, hbs⟩ := hp.readInBytes (k := 4) (n := 8) (by omega)
  have hsizes : ∃ t, parseSizes ch cs s = .next t := by
    have hlen := readInBytes_length hbs
    unfold parseSizes
    rw [hbs]
    match bs, hlen with
    | [_, _, _, _, _, _, _, _], _ => exact ⟨_, rfl⟩
  simp only [parseFields, hch, hcs]
  split
  · exact ⟨_, rfl⟩
  · split
    · exact ⟨_, rfl⟩
    · exact hsizes

theorem headerParse_next {s : State} (hp : s.inputPlaced) (hl : headerLength + footerLength ≤ s.inLen) :
    ∃ t, headerParse s = .next t := by
  have hfields := parseFields_next hp hl
  unfold headerLength footerLength at hl
  obtain ⟨m, hm⟩ := hp.readInBytes (k := 0) (n := 4) (by omega)
  simp only [headerParse, hm]
  split
  · split
    · exact hfields
    · exact ⟨_, rfl⟩
  · exact hfields

theorem chunkStep_stepsOrStuck (n : Nat) (f : State → Option State) (s : State) : StepsOrStuck (chunkStep n f s) := by
  unfold chunkStep
  split
  · exact .next _
  · split
    · exact .next _
    · exact .inr rfl

theorem exec_stepsOrStuck (i : Instr) (s : State) : StepsOrStuck (exec i s) := by
  cases i with
  | index k => exact chunkStep_stepsOrStuck 1 (fun s => (s.setPrev (s.cacheRead k)).pixelOut (s.cacheRead k)) s
  | _ => exact chunkStep_stepsOrStuck _ _ _

/-- All bytes of a chunk that a placed input holds whole are read, and they decode (R104, R223). -/
theorem fetchChunk_placed {s : State} (hp : s.inputPlaced) {b : Byte} (hb : s.readIn s.pos = some b)
    (hl : s.pos + tagLength b ≤ s.inLen) : ∃ i, s.fetchChunk (tagLength b) = some i := by
  obtain ⟨n, hn⟩ := Nat.exists_eq_add_of_le' (tagLength_pos b)
  obtain ⟨r, hr⟩ := hp.readInBytes (k := s.pos + 1) (n := n) (by omega)
  have hread : s.readInBytes s.pos (tagLength b) = some (b :: r) := by
    rw [hn]
    simp [State.readInBytes, hb, hr]
  obtain ⟨i, hi⟩ := decode_total (readInBytes_length hread)
  exact ⟨i, by simp [State.fetchChunk, hread, hi]⟩

theorem decStep_stepsOrStuck {s : State} (hp : s.inputPlaced) (hr : s.chunksRemain = true) :
    StepsOrStuck (decStep s) := by
  have hr := (chunksRemain_iff s).1 hr
  obtain ⟨b, hb⟩ := hp.readIn (k := s.pos) (by omega)
  simp only [decStep, hb]
  by_cases ht : s.truncated (tagLength b) = true
  · rw [if_pos ht]
    exact .next _
  · rw [if_neg ht]
    have hend := of_truncated_false (by simpa using ht)
    obtain ⟨i, hi⟩ := fetchChunk_placed hp hb (by omega)
    rw [hi]
    exact exec_stepsOrStuck i s

theorem decodeBody_stepsOrStuck {s : State} (hp : s.inputPlaced) : StepsOrStuck (decodeBody s) := by
  unfold decodeBody
  split
  · exact decStep_stepsOrStuck hp ‹_›
  · exact .next _

/-- A header step of a DECODE is never stuck: it appends nothing (R220). -/
theorem headerPhase_decode_next {s : State} (hp : s.inputPlaced) (ho : s.op = .decode)
    (hl : s.hdrStep = .header → headerLength + footerLength ≤ s.inLen) : ∃ t, headerPhase s = .next t := by
  cases hh : s.hdrStep <;> simp only [headerPhase, hh, ho]
  case opInit | check => exact ⟨_, rfl⟩
  case header => exact headerParse_next hp (hl hh)

theorem headerPhase_encode_stepsOrStuck {s : State} (ho : s.op = .encode) : StepsOrStuck (headerPhase s) := by
  cases hh : s.hdrStep <;> simp only [headerPhase, hh, ho]
  case opInit | check => exact .next _
  case header => exact headerEmit_stepsOrStuck s

/-- No DECODE is at a footer step (R32). -/
theorem not_positionInv_decodeFooter {s : State} (hp : s.phase = .ftr) (ho : s.op = .decode) : ¬ s.positionInv := by
  simp only [State.positionInv, hp, ho, not_false_eq_true]

theorem engineStep_stepsOrStuck {s : State} (hpos : s.positionInv) (hp : s.inputPlaced) :
    StepsOrStuck (engineStep s) := by
  cases hph : s.phase <;> cases ho : s.op <;> simp only [engineStep, hph, ho]
  case hdr.encode => exact headerPhase_encode_stepsOrStuck ho
  case hdr.decode =>
    obtain ⟨-, -, -, hl⟩ := (positionInv_hdr hph).1 hpos
    exact .inl (headerPhase_decode_next hp ho fun hh => hl hh ho)
  case body.encode =>
    obtain ⟨hc, hx, -⟩ := (positionInv_encodeBody hph ho).1 hpos
    exact encStep_stepsOrStuck hc hp hx
  case body.decode => exact decodeBody_stepsOrStuck hp
  case ftr.encode => exact footerEmit_stepsOrStuck s
  case ftr.decode => exact absurd hpos (not_positionInv_decodeFooter hph ho)

/-- Settles O59: while `BUSY` the position is legal and the input placed, so each position has its step. -/
theorem engineStepsUnlessItIsStuck : Obligations.EngineStepsUnlessItIsStuck := by
  intro s hi hd hm
  obtain ⟨hun, -, hbuf, -⟩ := hd
  obtain ⟨-, -, hp⟩ := hbuf (hun hm.1)
  obtain ⟨-, -, -, hpos⟩ := hi.of_busy hm.1
  rw [step_engine hm]
  exact engineStep_stepsOrStuck hpos hp

/-! ## Every ENCODE ends (R170, R299) -/

/-- Settles O53: `encode_run` for the pixels of the input; what is `BUSY` after `NPIX + 3` steps was so all along. -/
theorem encodeFinishesInNpixPlusFourSteps : Obligations.EncodeFinishesInNpixPlusFourSteps := by
  intro s h
  obtain ⟨⟨hm, -⟩, hc, hp, -⟩ := id h
  obtain ⟨ps, hlen, hfetch⟩ := input_pixels hc hp
  obtain ⟨t, e, hrun, hbusy, hend, hdone, herr, -, hol, -⟩ := encode_run h hlen hfetch
  refine ⟨fun k hk => run_busy hm.2 hrun hbusy (by omega), e, hend, hdone, herr, ?_⟩
  rw [hol]
  refine encodeOutput_length hc hlen fun h3 p hmem => ?_
  obtain ⟨j, hj⟩ := List.mem_iff_getElem?.1 hmem
  exact fetch_alpha (hfetch j p hj) h3

/-! ## Every DECODE ends (R236, R299) -/

/-- The pixels a chunk appends (R225, R231). -/
def pixelCount (i : Instr) : Nat :=
  match i with
  | .run n => n
  | _ => 1

theorem chunkBytes_length (i : Instr) (s : State) :
    (chunkBytes i s).length = pixelCount i * (if s.channels = 4#8 then 4 else 3) := by
  cases i with
  | run n => exact runBytes_length _ _ _
  | _ => exact (pixelBytes_length _ _).trans (Nat.one_mul _).symm

/-- A tag byte whose field is 62 or 63 is none of a RUN (R97, R100). -/
theorem low6_of_kind_run : ∀ b : Byte, kind b = .run → (low6 b).toNat + 1 ≤ 62 := by decide

theorem decode_run {b : Byte} {bs rest : List Byte} {n : Nat} (h : decode (b :: bs) = .ok (.run n, rest)) :
    kind b = .run ∧ n = (low6 b).toNat + 1 := by
  unfold decode at h
  cases hk : kind b <;> simp only [hk] at h
  case run =>
    cases h
    exact ⟨rfl, rfl⟩
  case index | diff => cases h
  case rgb | rgba | luma => split at h <;> cases h

/-- A decoded RUN is of 62 pixels at most (R97). -/
theorem pixelCount_of_decode {bs rest : List Byte} {i : Instr} (h : decode bs = .ok (i, rest)) : pixelCount i ≤ 62 := by
  cases i with
  | run n =>
    cases bs with
    | nil => cases h
    | cons b bs =>
      obtain ⟨hk, rfl⟩ := decode_run h
      exact low6_of_kind_run b hk
  | _ => simp [pixelCount]

/-- What one chunk appends is at most 62 pixels of 4 bytes. -/
theorem chunkBytes_length_le {bs rest : List Byte} {i : Instr} (h : decode bs = .ok (i, rest)) (s : State) :
    (chunkBytes i s).length ≤ 248 := by
  have hn := pixelCount_of_decode h
  rw [chunkBytes_length]
  split <;> omega

/-- A DECODE in progress with its input placed and room for 62 pixels of 4 bytes for every byte its chunk region has
left. -/
structure State.RoomyDecode (s : State) : Prop where
  inv : s.Inv
  moves : s.engineMoves
  op : s.op = .decode
  placed : s.inputPlaced
  room : 248 * (s.inLen - 22) ≤ s.outCapacity
  bodyRoom : s.phase = .body → s.outLen + 248 * (s.inLen - 8 - s.pos) ≤ s.outCapacity

theorem stepsLeft_pos (s : State) : 0 < s.stepsLeft := by
  unfold State.stepsLeft
  split <;> omega

section
variable {s : State} (ho : s.op = .decode)
include ho

theorem stepsLeft_decodeOpInit (hp : s.phase = .hdr) (hh : s.hdrStep = .opInit) : s.stepsLeft = s.inLen - 22 + 4 := by
  simp only [State.stepsLeft, hp, ho, hh, headerLength, footerLength]
  omega

theorem stepsLeft_decodeCheck (hp : s.phase = .hdr) (hh : s.hdrStep = .check) : s.stepsLeft = s.inLen - 22 + 3 := by
  simp only [State.stepsLeft, hp, ho, hh, headerLength, footerLength]
  omega

theorem stepsLeft_decodeHeader (hp : s.phase = .hdr) (hh : s.hdrStep = .header) : s.stepsLeft = s.inLen - 22 + 2 := by
  simp only [State.stepsLeft, hp, ho, hh, headerLength, footerLength]
  omega

theorem stepsLeft_decodeBody (hp : s.phase = .body) : s.stepsLeft = s.inLen - 8 - s.pos + 1 := by
  simp only [State.stepsLeft, hp, ho, footerLength]

end

section
variable {s : State} (h : s.RoomyDecode)
include h

/-- A chunk takes at least one byte and appends at most 248. -/
theorem State.RoomyDecode.chunk_room (hp : s.phase = .body) {bs rest : List Byte} {i : Instr}
    (hd : decode bs = .ok (i, rest)) (ht : s.truncated i.length = false) :
    s.outLen + (chunkBytes i s).length + 248 * (s.inLen - 8 - (s.pos + i.length)) ≤ s.outCapacity := by
  have hroom := h.bodyRoom hp
  have hbytes := chunkBytes_length_le hd s
  have hlen := instr_length_pos i
  have hend := of_truncated_false ht
  omega

theorem State.RoomyDecode.decodeBody_next (hp : s.phase = .body) : ∃ t, decodeBody s = .next t := by
  unfold decodeBody
  split
  · next hr =>
    rcases decStep_cases s with hmissing | habort | ⟨bs, i, -, hd, ht, hexec⟩
    · rcases decStep_stepsOrStuck h.placed hr with ⟨t, ht⟩ | hstuck
      · exact ⟨t, ht⟩
      · cases hmissing.symm.trans hstuck
    · exact ⟨_, habort⟩
    · have hroom := h.chunk_room hp hd ht
      exact ⟨_, hexec.trans (exec_completes ht (Nat.le_of_add_right_le hroom))⟩
  · exact ⟨_, rfl⟩

/-- Such a DECODE is never stuck. -/
theorem State.RoomyDecode.engineStep_next : ∃ t, engineStep s = .next t := by
  obtain ⟨-, -, -, hpos⟩ := h.inv.of_busy h.moves.1
  have ho := h.op
  cases hp : s.phase <;> simp only [engineStep, hp, ho]
  case hdr =>
    obtain ⟨-, -, -, hl⟩ := (positionInv_hdr hp).1 hpos
    exact headerPhase_decode_next h.placed ho fun hh => hl hh ho
  case body => exact h.decodeBody_next hp
  case ftr => exact absurd hpos (not_positionInv_decodeFooter hp ho)

/-- A move that does not end the DECODE leaves the room its chunk region needs, and fewer steps (R236). -/
theorem State.RoomyDecode.move_progress {t : State} (hm : EngineMove s t) (hb : t.state = .busy) :
    (t.phase = .body → t.outLen + 248 * (t.inLen - 8 - t.pos) ≤ t.outCapacity) ∧ t.stepsLeft < s.stepsLeft := by
  have ho := h.op
  cases hm with
  | opInit hp hh =>
    refine ⟨by simp [hp], ?_⟩
    rw [stepsLeft_decodeCheck (s := opInit s) ho hp rfl, stepsLeft_decodeOpInit ho hp hh, opInit_inLen]
    exact Nat.lt_succ_self _
  | decCheckPasses hp hh =>
    refine ⟨by simp [hp], ?_⟩
    rw [stepsLeft_decodeHeader (s := { s with hdrStep := .header }) ho hp rfl, stepsLeft_decodeCheck ho hp hh]
    exact Nat.lt_succ_self _
  | headerParse hp hh _ w g ch cs =>
    obtain ⟨-, -, -, hpos⟩ := h.inv.of_busy h.moves.1
    obtain ⟨h0, -⟩ := (positionInv_hdr hp).1 hpos
    have hroom := h.room
    rw [stepsLeft_decodeBody (s := enterDecodeBody (s.setHeader w g ch cs)) ho rfl, stepsLeft_decodeHeader ho hp hh]
    simp only [enterDecodeBody_outLen, enterDecodeBody_inLen, enterDecodeBody_pos, enterDecodeBody_outCapacity,
      State.setHeader_outLen, State.setHeader_inLen, State.setHeader_outCapacity, h0, headerLength]
    omega
  | chunk hp _ _ bs i _ hd ht =>
    have hroom := h.chunk_room hp hd ht
    have hlen := instr_length_pos i
    have hend := of_truncated_false ht
    rw [stepsLeft_decodeBody (s := chunkResult i s) (by simpa using ho) (by simpa using hp), stepsLeft_decodeBody ho hp]
    simp only [chunkResult_outLen, chunkResult_inLen, chunkResult_pos, chunkResult_outCapacity]
    omega
  | encCheckPasses | headerEmit | pixel => simp_all -- the moves of an ENCODE
  | _ => simp at hb -- the moves that end the operation

/-- It has a step, which ends it or leaves it such a DECODE with fewer steps to go. -/
theorem State.RoomyDecode.step_progress :
    ∃ t, step s = .next t ∧ (t.state = .done ∨ t.state = .error ∨ t.RoomyDecode ∧ t.stepsLeft < s.stepsLeft) := by
  obtain ⟨t, ht⟩ := h.engineStep_next
  have hmove := engineMove_of_step ht
  refine ⟨t, (step_engine h.moves).trans ht, ?_⟩
  obtain ⟨hbusy, hhost⟩ := h.moves
  rcases hmove.state_cases with hst | hst | hst
  · obtain ⟨hop, -, hil, -, hoc, -, hh⟩ := hmove.operationKept
    obtain ⟨hbody, hless⟩ := h.move_progress hmove (hst.trans hbusy)
    exact .inr (.inr ⟨⟨hmove.inv h.inv hbusy, ⟨hst.trans hbusy, hh.trans hhost⟩, hop.trans h.op,
      hmove.inputPlaced h.inv hbusy h.placed, hil ▸ hoc ▸ h.room, hbody⟩, hless⟩)
  · exact .inl hst
  · exact .inr (.inl hst)

end

/-- The induction on the steps left: they bound the length of its run. -/
theorem State.RoomyDecode.ends (n : Nat) {s : State} (h : s.RoomyDecode) (hn : s.stepsLeft ≤ n) :
    ∃ (k : Nat) (t : State), k ≤ n ∧ Host.Core.run Sys2Proof.core k s = .next t ∧ (t.state = .done ∨ t.state = .error) := by
  induction n generalizing s with
  | zero => exact absurd (stepsLeft_pos s) (by omega)
  | succ n ih =>
    obtain ⟨u, hstep, hend⟩ := h.step_progress
    rcases or_assoc.2 hend with hend | ⟨hu, hless⟩
    · exact ⟨1, u, by omega, run_succ_iff.2 ⟨u, hstep, rfl⟩, hend⟩
    · obtain ⟨k, t, hk, hrun, ht⟩ := ih hu (by omega)
      exact ⟨k + 1, t, by omega, run_succ_iff.2 ⟨u, hstep, hrun⟩, ht⟩

/-- An issued operation meets the invariant. -/
theorem State.atStart.inv {s : State} {op : Op} (h : s.atStart op) : s.Inv := by
  obtain ⟨⟨hb, -⟩, -, hp, hh, he, h0, hw, hr, hd⟩ := h
  exact ⟨hw, hr, by simp [he, hb], fun _ => h0,
    fun _ => ⟨hd, h0 ▸ Nat.zero_le _, (positionInv_hdr hp).2 ⟨h0, by simp [hh], by simp [hh], by simp [hh]⟩⟩⟩

/-- Settles O54: an issued DECODE with that room has `IN_LEN - 22 + 4` steps left. -/
theorem decodeFinishesWithinItsInputLength : Obligations.DecodeFinishesWithinItsInputLength := by
  intro s hs hpl hroom
  obtain ⟨hm, ho, hp, hh, -⟩ := id hs
  have h : s.RoomyDecode := ⟨hs.inv, hm, ho, hpl, hroom, by simp [hp]⟩
  exact h.ends _ (Nat.le_of_eq (stepsLeft_decodeOpInit ho hp hh))

/-! ## Appends beyond the output capacity (R68) -/

theorem step_headerEmit_stuck {s : State} (hm : s.engineMoves) (ho : s.op = .encode) (hp : s.phase = .hdr)
    (hh : s.hdrStep = .header) (hf : ¬ s.fits 14) : step s = .fault .outputStuck := by
  rw [← s.headerBytes_length] at hf
  have hne : s.headerBytes ≠ [] := fun h => by simpa [h] using s.headerBytes_length
  rw [step_engine hm]
  simp only [engineStep, hp, headerPhase, hh, ho, headerEmit, State.outAppendAll_overflow hne hf]

theorem step_footerEmit_stuck {s : State} (hm : s.engineMoves) (ho : s.op = .encode) (hp : s.phase = .ftr)
    (hf : ¬ s.fits 8) : step s = .fault .outputStuck := by
  rw [step_engine hm]
  simp only [engineStep, hp, ho, footerEmit, State.outAppendAll_overflow (bs := footerBytes) nofun hf]

theorem step_pixel_stuck {s : State} {cur : Pixel} (h : s.atPixel cur) (hn : encPixel cur s = none) :
    step s = .fault .outputStuck := by
  rw [step_pixel h, hn]

theorem encPixel_run_stuck {cur : Pixel} {s : State} (he : cur = s.prev) (hr : s.run.toNat ≤ 61)
    (hl : s.run.toNat = 61 ∨ s.lastPixel = true) (hf : ¬ s.fits 1) : encPixel cur s = none := by
  rw [encPixel, if_pos he, runDet_emits hr hl, State.outAppendAll_overflow (bs := [runByte s]) nofun hf]

theorem inDiffRange_iff (d : Int) : inDiffRange d = true ↔ -2 ≤ d ∧ d ≤ 1 := by
  simp [inDiffRange]

theorem diffOk_iff (dr dg db : Int) :
    diffOk dr dg db = true ↔ -2 ≤ dr ∧ dr ≤ 1 ∧ -2 ≤ dg ∧ dg ≤ 1 ∧ -2 ≤ db ∧ db ≤ 1 := by
  simp only [diffOk, Bool.and_eq_true, inDiffRange_iff, and_assoc]

theorem lumaOk_iff (dr dg db : Int) :
    lumaOk dr dg db = true ↔ -32 ≤ dg ∧ dg ≤ 31 ∧ -8 ≤ dr - dg ∧ dr - dg ≤ 7 ∧ -8 ≤ db - dg ∧ db - dg ≤ 7 := by
  simp only [lumaOk, inLumaOffsetRange, Bool.and_eq_true, decide_eq_true_eq, and_assoc]

/-- The bytes of the chunk R174 chooses. -/
theorem encode_tierInstr_length (cur : Pixel) (s : State) :
    (encode (tierInstr cur s)).length =
      if s.cacheRead (pixelHash cur) = cur then 1
      else if cur.a ≠ s.prev.a then 5
      else if diffOk (signedDelta cur.r s.prev.r) (signedDelta cur.g s.prev.g) (signedDelta cur.b s.prev.b) then 1
      else if lumaOk (signedDelta cur.r s.prev.r) (signedDelta cur.g s.prev.g) (signedDelta cur.b s.prev.b) then 2
      else 4 := by
  simp only [tierInstr, State.cacheHit, decide_eq_true_eq, ne_eq, ite_not]
  split_ifs <;> rfl

/-- A chunk that an encoding exists for appends at least one pixel (R97). -/
theorem chunkBytes_ne_nil {i : Instr} (hw : wellFormed i = true) (s : State) : chunkBytes i s ≠ [] := by
  cases i with
  | run n =>
    intro h
    have hlen := chunkBytes_length (.run n) s
    rw [h, List.length_nil, pixelCount] at hlen
    simp only [wellFormed, runLengthOk, Bool.and_eq_true, decide_eq_true_eq] at hw
    split at hlen <;> omega
  | _ => exact pixelBytes_ne_nil _ _

/-- Settles O19: a chunk by `exec_stuck`, and each append of an ENCODE by the overflow of its bytes. -/
theorem chunksBeyondTheCapacityAreStuck : Obligations.ChunksBeyondTheCapacityAreStuck := by
  refine ⟨fun i s hw hl hf => ?_, fun s hm ho => ?_, fun s cur hat hr => ⟨fun he hl hf => ?_, fun hne hf => ?_⟩⟩
  · have hf : ¬ s.fits (chunkBytes i s).length := by
      rw [chunkBytes_length]
      exact hf
    exact exec_stuck (truncated_false hl) (chunkBytes_ne_nil hw s) hf
  · exact ⟨step_headerEmit_stuck hm ho, step_footerEmit_stuck hm ho⟩
  · have hl : s.run.toNat = 61 ∨ s.lastPixel = true := hl.imp_right decide_eq_true
    exact step_pixel_stuck hat (encPixel_run_stuck he hr hl hf)
  · refine step_pixel_stuck hat (encPixel_new_stuck hne ?_)
    rw [encode_tierInstr_length]
    simpa only [diffOk_iff, lumaOk_iff] using hf

/-! ## Whose turn it is (log entry 11)

Each whole step of R298 is the same step under another list of pending actions. -/

theorem opInit_pending (l : List HostAct) (s : State) : opInit (s.withPending l) = (opInit s).withPending l := rfl

theorem encValid_pending (l : List HostAct) (s : State) : encValid (s.withPending l) = (encValid s).withPending l := by
  simp only [encValid, abort_pending]
  split_ifs <;> rfl

theorem decValid_pending (l : List HostAct) (s : State) : decValid (s.withPending l) = (decValid s).withPending l := by
  simp only [decValid, abort_pending]
  split_ifs <;> rfl

theorem headerEmit_pending (l : List HostAct) (s : State) :
    headerEmit (s.withPending l) = outcomeWithPending l (headerEmit s) := by
  unfold headerEmit
  rw [outAppendAll_pending, show (s.withPending l).headerBytes = s.headerBytes from rfl]
  cases s.outAppendAll s.headerBytes <;> rfl

theorem footerEmit_pending (l : List HostAct) (s : State) :
    footerEmit (s.withPending l) = outcomeWithPending l (footerEmit s) := by
  unfold footerEmit
  rw [outAppendAll_pending]
  cases s.outAppendAll footerBytes <;> rfl

theorem parseSizes_pending (l : List HostAct) (ch cs : Byte) (s : State) :
    parseSizes ch cs (s.withPending l) = outcomeWithPending l (parseSizes ch cs s) := by
  unfold parseSizes
  rw [readInBytes_pending]
  split <;> rfl

theorem readIn_pending (l : List HostAct) (k : Nat) (s : State) : (s.withPending l).readIn k = s.readIn k := rfl

theorem parseFields_pending (l : List HostAct) (s : State) :
    parseFields (s.withPending l) = outcomeWithPending l (parseFields s) := by
  simp only [parseFields, readIn_pending, abort_pending, parseSizes_pending]
  cases s.readIn 12 with
  | none => rfl
  | some ch => cases s.readIn 13 <;> dsimp only <;> split_ifs <;> rfl

theorem headerParse_pending (l : List HostAct) (s : State) :
    headerParse (s.withPending l) = outcomeWithPending l (headerParse s) := by
  simp only [headerParse, readInBytes_pending, abort_pending, parseFields_pending]
  cases s.readInBytes 0 4 <;> dsimp only <;> split_ifs <;> rfl

theorem headerPhase_pending (l : List HostAct) (s : State) :
    headerPhase (s.withPending l) = outcomeWithPending l (headerPhase s) := by
  cases hh : s.hdrStep <;> cases ho : s.op <;>
    simp only [headerPhase, hh, ho, opInit_pending, encValid_pending, decValid_pending, headerEmit_pending,
      headerParse_pending] <;> rfl

theorem fetchPixel_pending (l : List HostAct) (i : Nat) (s : State) : (s.withPending l).fetchPixel i = s.fetchPixel i := rfl

theorem encStep_pending (l : List HostAct) (s : State) :
    encStep (s.withPending l) = outcomeWithPending l (encStep s) := by
  by_cases hx : s.pix < s.npix
  · rw [encStep, encStep, if_pos hx, if_pos (show (s.withPending l).pix < (s.withPending l).npix from hx),
      fetchPixel_pending]
    cases s.fetchPixel s.pix with
    | none => rfl
    | some cur =>
      simp only [encPixel_pending]
      cases encPixel cur s <;> rfl
  · rw [encStep, encStep, if_neg hx, if_neg (show ¬ (s.withPending l).pix < (s.withPending l).npix from hx)]
    rfl

theorem fetchChunk_pending (l : List HostAct) (n : Nat) (s : State) : (s.withPending l).fetchChunk n = s.fetchChunk n := by
  simp only [State.fetchChunk, readInBytes_pending]

theorem truncated_pending (l : List HostAct) (n : Nat) (s : State) : (s.withPending l).truncated n = s.truncated n := rfl

theorem decStep_pending (l : List HostAct) (s : State) :
    decStep (s.withPending l) = outcomeWithPending l (decStep s) := by
  simp only [decStep, readIn_pending, truncated_pending, fetchChunk_pending, abort_pending, exec_pending]
  cases s.readIn s.pos with
  | none => rfl
  | some b =>
    dsimp only
    cases s.fetchChunk (tagLength b) <;> split_ifs <;> rfl

theorem decodeBody_pending (l : List HostAct) (s : State) :
    decodeBody (s.withPending l) = outcomeWithPending l (decodeBody s) := by
  rw [decodeBody, decodeBody, decStep_pending, show (s.withPending l).chunksRemain = s.chunksRemain from rfl]
  split <;> rfl

theorem engineStep_pending (l : List HostAct) (s : State) :
    engineStep (s.withPending l) = outcomeWithPending l (engineStep s) := by
  cases hp : s.phase <;> cases ho : s.op <;>
    simp only [engineStep, hp, ho, headerPhase_pending, encStep_pending, decodeBody_pending, footerEmit_pending]
  case ftr.decode => rfl

/-- While the host awaits: the engine's turn until `STATE` leaves `BUSY`, then the poll that reads it. -/
theorem step_await {s : State} {rest : List HostAct} (hh : s.host = .await :: rest) :
    step s = if s.state = .busy then engineTurn s else .next (readStatus { s with host := rest }) := by
  unfold step nextTurn
  rw [hh]

/-- Settles O9: the turns as `nextTurn` gives them, and the engine's step under any list by `engineStep_pending`. -/
theorem awaitingHostLetsTheEngineMove : Obligations.AwaitingHostLetsTheEngineMove := by
  refine ⟨fun s rest hh => ⟨fun hb => ?_, fun hb => ?_⟩, fun s rest hh => ⟨fun hb => ?_, fun hb => ?_⟩,
    fun u hm => step_engine hm, fun s l => ?_⟩
  · rw [step_await hh, if_pos hb]
    exact if_pos hb
  · rw [step_await hh, if_neg hb, step_host (s := { s with host := .readStatus :: rest }) rfl nofun]
    rfl
  · rw [step_host hh nofun]
    exact if_pos hb
  · rw [step_host hh nofun]
    exact if_neg hb
  · exact engineStep_pending l s

end Sys2Proof.Machine
end

section
/-! PROOFS of the encoding's statements (30_encoding.md): the ranges of the tag byte (R103), the fields of a chunk and
their biases (R95 to R97, R102), and that decoding and encoding undo each other (R104). -/

namespace Sys2Proof.Machine

open Sys2Proof.Laws.TagLength (kind_index kind_diff kind_luma kind_run)

/-! ## The ranges of the tag byte (R100, R103) -/

theorem tagBits_eq_iff (b : Byte) (t : BitVec 2) : tagBits b = t ↔ b.toNat / 64 = t.toNat := by
  have hb := b.isLt
  rw [← BitVec.toNat_inj, tagBits, BitVec.extractLsb'_toNat, Nat.shiftRight_eq_div_pow, Nat.mod_eq_of_lt (by omega)]

/-- The tests of R100, in their order, as bounds on the value of the tag byte. -/
theorem kind_eq_of_toNat (b : Byte) : kind b =
    if b.toNat = 0xFE then .rgb else if b.toNat = 0xFF then .rgba else if b.toNat / 64 = 0 then .index
    else if b.toNat / 64 = 1 then .diff else if b.toNat / 64 = 2 then .luma else .run := by
  have hfull (v : Byte) : b = v ↔ b.toNat = v.toNat := BitVec.toNat_inj.symm
  simp only [kind, tagBits_eq_iff, hfull]
  rfl

/-- Settles O4: within a range every test of R100 comes out one way. -/
theorem tagByteRangesGiveKindAndLength : Obligations.TagByteRangesGiveKindAndLength := by
  intro b
  rw [tagLength, kind_eq_of_toNat]
  split_ifs <;> simp [Kind.length] <;> omega

/-! ## Biased fields (R95, R96, R102) -/

theorem biasField_biased {n : Nat} (x : BitVec n) (bias : Nat) : biasField n (biased x.toNat bias) bias = x := by
  rw [biasField, biased, Int.sub_add_cancel, BitVec.ofInt_natCast, BitVec.ofNat_toNat, BitVec.setWidth_eq]

theorem biased_biasField {n bias : Nat} {d : Int} (h : 0 ≤ d + bias) (h' : d + bias < 2 ^ n) :
    biased (biasField n d bias).toNat bias = d := by
  rw [biased, biasField, BitVec.toNat_ofInt, Int.emod_eq_of_lt h (by exact_mod_cast h'), Int.toNat_of_nonneg h,
    Int.add_sub_cancel]

theorem biased_diffField {d : Int} (h : diffDeltaOk d = true) : biased (biasField 2 d 2).toNat 2 = d := by
  simp only [diffDeltaOk, Bool.and_eq_true, decide_eq_true_eq] at h
  exact biased_biasField (by omega) (by omega)

theorem biased_lumaGreenField {d : Int} (h : lumaGreenOk d = true) : biased (biasField 6 d 32).toNat 32 = d := by
  simp only [lumaGreenOk, Bool.and_eq_true, decide_eq_true_eq] at h
  exact biased_biasField (by omega) (by omega)

theorem biased_lumaOffsetField {d : Int} (h : lumaOffsetOk d = true) : biased (biasField 4 d 8).toNat 8 = d := by
  simp only [lumaOffsetOk, Bool.and_eq_true, decide_eq_true_eq] at h
  exact biased_biasField (by omega) (by omega)

theorem diffDeltaOk_biased : ∀ x : BitVec 2, diffDeltaOk (biased x.toNat 2) = true := by decide

theorem lumaGreenOk_biased : ∀ x : BitVec 6, lumaGreenOk (biased x.toNat 32) = true := by decide

theorem lumaOffsetOk_biased : ∀ x : BitVec 4, lumaOffsetOk (biased x.toNat 8) = true := by decide

/-! ## The operands of the bytes an encoding writes (R94 to R97, R102) -/

theorem low6_append (t : BitVec 2) (x : BitVec 6) : low6 (t ++ x) = x := BitVec.extractLsb'_append_eq_right

theorem diffOf_append : ∀ x y z : BitVec 2,
    diffOf (0b01#2 ++ x ++ y ++ z) = .diff (biased x.toNat 2) (biased y.toNat 2) (biased z.toNat 2) := by decide

theorem lumaOf_append (x : BitVec 6) (y z : BitVec 4) :
    lumaOf (0b10#2 ++ x) (y ++ z) = .luma (biased x.toNat 32) (biased y.toNat 8) (biased z.toNat 8) := by
  rw [lumaOf, low6_append, BitVec.extractLsb'_append_eq_left, BitVec.extractLsb'_append_eq_right]

theorem runOf_append {n : Nat} (h : 1 ≤ n) (h' : n ≤ 62) : runOf (0b11#2 ++ BitVec.ofNat 6 (n - 1)) = .run n := by
  rw [runOf, low6_append, BitVec.toNat_ofNat, Nat.mod_eq_of_lt (by omega), Nat.sub_add_cancel h]

/-! ## The bytes of decoded operands (R104) -/

theorem eq_of_kind_rgb : ∀ b : Byte, kind b = .rgb → b = 0xFE#8 := by decide

theorem eq_of_kind_rgba : ∀ b : Byte, kind b = .rgba → b = 0xFF#8 := by decide

theorem append_low6_of_kind_index : ∀ b : Byte, kind b = .index → 0b00#2 ++ low6 b = b := by decide

theorem append_fields_of_kind_diff : ∀ b : Byte, kind b = .diff →
    0b01#2 ++ b.extractLsb' 4 2 ++ b.extractLsb' 2 2 ++ b.extractLsb' 0 2 = b := by decide

theorem append_low6_of_kind_luma : ∀ b : Byte, kind b = .luma → 0b10#2 ++ low6 b = b := by decide

theorem append_low6_of_kind_run : ∀ b : Byte, kind b = .run → 0b11#2 ++ low6 b = b := by decide

theorem encode_index_low6 {b : Byte} (h : kind b = .index) : encode (.index (low6 b)) = [b] := by
  rw [encode, append_low6_of_kind_index b h]

theorem encode_diffOf {b : Byte} (h : kind b = .diff) : encode (diffOf b) = [b] := by
  rw [diffOf, encode, biasField_biased, biasField_biased, biasField_biased, append_fields_of_kind_diff b h]

theorem encode_lumaOf {b0 : Byte} (b1 : Byte) (h : kind b0 = .luma) : encode (lumaOf b0 b1) = [b0, b1] := by
  rw [lumaOf, encode, biasField_biased, biasField_biased, biasField_biased, append_low6_of_kind_luma b0 h,
    BitVec.extractLsb'_append_extractLsb']

theorem encode_runOf {b : Byte} (h : kind b = .run) : encode (runOf b) = [b] := by
  rw [runOf, encode, Nat.add_sub_cancel, BitVec.ofNat_toNat, BitVec.setWidth_eq, append_low6_of_kind_run b h]

theorem wellFormed_diffOf (b : Byte) : wellFormed (diffOf b) = true := by
  simp only [diffOf, wellFormed, diffDeltaOk_biased, Bool.and_self]

theorem wellFormed_lumaOf (b0 b1 : Byte) : wellFormed (lumaOf b0 b1) = true := by
  simp only [lumaOf, wellFormed, lumaGreenOk_biased, lumaOffsetOk_biased, Bool.and_self]

theorem wellFormed_runOf {b : Byte} (h : kind b = .run) : wellFormed (runOf b) = true := by
  simp only [runOf, wellFormed, runLengthOk, Bool.and_eq_true, decide_eq_true_eq]
  exact ⟨Nat.le_add_left 1 _, low6_of_kind_run b h⟩

/-! ## The decoder, kind by kind (R93, R100) -/

theorem decode_of_kind_index {b : Byte} (h : kind b = .index) (rest : List Byte) :
    decode (b :: rest) = .ok (.index (low6 b), rest) := by simp only [decode, h]

theorem decode_of_kind_diff {b : Byte} (h : kind b = .diff) (rest : List Byte) :
    decode (b :: rest) = .ok (diffOf b, rest) := by simp only [decode, h]

theorem decode_of_kind_luma {b0 : Byte} (h : kind b0 = .luma) (b1 : Byte) (rest : List Byte) :
    decode (b0 :: b1 :: rest) = .ok (lumaOf b0 b1, rest) := by simp only [decode, h]

theorem decode_of_kind_run {b : Byte} (h : kind b = .run) (rest : List Byte) :
    decode (b :: rest) = .ok (runOf b, rest) := by simp only [decode, h]

/-! ## Encoding and decoding undo each other (R102, R104) -/

/-- Settles O1: the tag byte tells the kind, and each field minus its bias is the operand it was made of. -/
theorem encodedChunksDecodeBack : Obligations.EncodedChunksDecodeBack := by
  intro i rest h
  cases i with
  | rgb r g b => rfl
  | rgba r g b a => rfl
  | index k => exact (decode_of_kind_index (kind_index k) rest).trans (by rw [low6_append])
  | diff dr dg db =>
    simp only [wellFormed, Bool.and_eq_true] at h
    obtain ⟨⟨hr, hg⟩, hb⟩ := h
    refine (decode_of_kind_diff (kind_diff _ _ _) rest).trans ?_
    rw [diffOf_append, biased_diffField hr, biased_diffField hg, biased_diffField hb]
  | luma dg drOff dbOff =>
    simp only [wellFormed, Bool.and_eq_true] at h
    obtain ⟨⟨hg, hr⟩, hb⟩ := h
    refine (decode_of_kind_luma (kind_luma _) _ rest).trans ?_
    rw [lumaOf_append, biased_lumaGreenField hg, biased_lumaOffsetField hr, biased_lumaOffsetField hb]
  | run n =>
    simp only [wellFormed, runLengthOk, Bool.and_eq_true, decide_eq_true_eq] at h
    obtain ⟨h1, h62⟩ := h
    have hk : kind (0b11#2 ++ BitVec.ofNat 6 (n - 1)) = .run := kind_run _ (by rw [BitVec.toNat_ofNat]; omega)
    exact (decode_of_kind_run hk rest).trans (by rw [runOf_append h1 h62])

/-- Settles O2: each kind's operands are in range, and encoding them gives back the bytes they were read from. -/
theorem decodedBytesAreTheEncoding : Obligations.DecodedBytesAreTheEncoding := by
  intro bs rest i h
  match bs with
  | [] => cases h
  | b :: tail =>
    cases hk : kind b with
    | rgb =>
      obtain rfl := eq_of_kind_rgb b hk
      match tail with
      | _ :: _ :: _ :: _ =>
        cases h
        exact ⟨rfl, rfl⟩
    | rgba =>
      obtain rfl := eq_of_kind_rgba b hk
      match tail with
      | _ :: _ :: _ :: _ :: _ =>
        cases h
        exact ⟨rfl, rfl⟩
    | index =>
      cases (decode_of_kind_index hk tail).symm.trans h
      exact ⟨rfl, by rw [encode_index_low6 hk]; rfl⟩
    | diff =>
      cases (decode_of_kind_diff hk tail).symm.trans h
      exact ⟨wellFormed_diffOf b, by rw [encode_diffOf hk]; rfl⟩
    | luma =>
      match tail with
      | [] => simp [decode, hk] at h
      | b1 :: tail =>
        cases (decode_of_kind_luma hk b1 tail).symm.trans h
        exact ⟨wellFormed_lumaOf b b1, by rw [encode_lumaOf b1 hk]; rfl⟩
    | run =>
      cases (decode_of_kind_run hk tail).symm.trans h
      exact ⟨wellFormed_runOf hk, by rw [encode_runOf hk]; rfl⟩

theorem decode_eq_of_encode_eq {bs : List Byte} {i : Instr} (hw : wellFormed i = true) (he : encode i = bs) :
    decode bs = .ok (i, []) := by
  have hd := encodedChunksDecodeBack i [] hw
  rwa [List.append_nil, he] at hd

/-- Settles O3: each chunk is well formed, and the word is its encoding. -/
theorem sampleWordsDecodeToTheirChunks : Obligations.SampleWordsDecodeToTheirChunks := by
  refine ⟨?_, ?_, ?_, ?_, ?_, ?_⟩ <;> exact decode_eq_of_encode_eq (by decide) (by decide)

end Sys2Proof.Machine
end

section
/-! PROOFS of the framing's statements (40_framing.md): what HEADER_EMIT and FOOTER_EMIT write (R130, R133), what
HEADER_PARSE checks and reads (R131), and that a DECODE's body never reads a footer byte (R134). -/

namespace Sys2Proof.Machine

/-! ## The footer is never read (R134)

Every operation of a DECODE's body commutes with writing one byte that lies in the footer: such a byte is beyond the chunk
region, and it is no byte of the output buffer. -/

/-- The state with one byte of memory changed. -/
abbrev State.withByte (a : Nat) (v : Byte) (s : State) : State := { s with mem := s.mem.write a v }

/-- An outcome with one byte of memory changed in its next state. -/
def outcomeWithByte (a : Nat) (v : Byte) : Host.Outcome State Fault Refusal → Host.Outcome State Fault Refusal
  | .next t => .next (t.withByte a v)
  | .fault f => .fault f
  | .refused r => .refused r

section
variable {s : State} {a : Nat} {v : Byte}

theorem readIn_withByte {k : Nat} (h : s.inBase + k ≠ a) : (s.withByte a v).readIn k = s.readIn k := by
  simp only [State.readIn, Memory.read_write_other _ _ h]

/-- Bytes of the input that end before the changed one are read as they were. -/
theorem readInBytes_withByte {k n : Nat} (h : s.inBase + k + n ≤ a) :
    (s.withByte a v).readInBytes k n = s.readInBytes k n := by
  induction n generalizing k with
  | zero => rfl
  | succ n ih => simp only [State.readInBytes, readIn_withByte (show s.inBase + k ≠ a by omega), ih (k := k + 1) (by omega)]

theorem fetchChunk_withByte {n : Nat} (h : s.inBase + s.pos + n ≤ a) :
    (s.withByte a v).fetchChunk n = s.fetchChunk n := by
  simp only [State.fetchChunk, readInBytes_withByte h]

theorem truncated_withByte (n : Nat) : (s.withByte a v).truncated n = s.truncated n := rfl

theorem chunksRemain_withByte : (s.withByte a v).chunksRemain = s.chunksRemain := rfl

variable (hw : s.mem.wf) (ha : a < s.outBase ∨ s.outBase + s.outCapacity ≤ a)
include hw ha

theorem abort_withByte (e : Err) : State.abort e (s.withByte a v) = (s.abort e).withByte a v :=
  calc State.abort e (s.withByte a v)
      = { s.abort e with mem := (s.mem.write a v).fillFree s.outBase s.free s.outCapacity } := by
        unfold State.abort
        by_cases h : s.op = .decode <;> simp [h, State.freeOutput, State.freeHeader, State.freeInternals]
    _ = (s.abort e).withByte a v := by rw [Memory.write_fillFree_comm hw _ _ ha, ← State.abort_mem s e]

theorem chunkResult_withByte {i : Instr} (hf : s.fits (chunkBytes i s).length) :
    chunkResult i (s.withByte a v) = (chunkResult i s).withByte a v := by
  unfold State.fits at hf
  calc chunkResult i (s.withByte a v)
      = { chunkResult i s with
          mem := (s.mem.write a v).writeList (s.outBase + s.outLen) (chunkBytes i s) } := by cases i <;> rfl
    _ = (chunkResult i s).withByte a v := by
        rw [Memory.write_writeList_comm hw _ _ (by omega), ← chunkResult_mem]

variable (hl : s.outLen ≤ s.outCapacity)
include hl

theorem complete_withByte : (s.withByte a v).complete = s.complete.withByte a v :=
  calc (s.withByte a v).complete
      = { s.complete with
          mem := (s.mem.write a v).fillFree (s.outBase + s.outLen) s.free (s.outCapacity - s.outLen) } := rfl
    _ = s.complete.withByte a v := by rw [Memory.write_fillFree_comm hw _ _ (by omega), ← State.complete_mem]

/-- A chunk does the same: whether it is truncated or stuck, and what it appends, depends on no byte of memory. -/
theorem exec_withByte (i : Instr) : exec i (s.withByte a v) = outcomeWithByte a v (exec i s) := by
  have hbytes : chunkBytes i (s.withByte a v) = chunkBytes i s := by cases i <;> rfl
  cases ht : s.truncated i.length with
  | true =>
    rw [exec_truncated ht, exec_truncated (s := s.withByte a v) ht, abort_withByte hw ha]
    rfl
  | false =>
    by_cases hf : s.fits (chunkBytes i s).length
    · rw [exec_completes ht hf, exec_completes (s := s.withByte a v) ht (by rw [hbytes]; exact hf),
        chunkResult_withByte hw ha hf]
      rfl
    · have hne : chunkBytes i s ≠ [] := fun h => hf (by rw [h]; exact hl)
      rw [exec_stuck ht hne hf, exec_stuck (s := s.withByte a v) ht (by rw [hbytes]; exact hne) (by rw [hbytes]; exact hf)]
      rfl

variable (hfoot : s.inBase + s.inLen - 8 ≤ a)
include hfoot

/-- DSTEP reads its tag byte, and its operand bytes after TRUNC, all of them before the footer (R224). -/
theorem decStep_withByte (hr : s.chunksRemain = true) :
    decStep (s.withByte a v) = outcomeWithByte a v (decStep s) := by
  have hpos := (chunksRemain_iff s).1 hr
  have htag : (s.withByte a v).readIn s.pos = s.readIn s.pos := readIn_withByte (by omega)
  simp only [decStep, htag, truncated_withByte, abort_withByte hw ha]
  cases s.readIn s.pos with
  | none => rfl
  | some b =>
    dsimp only
    cases ht : s.truncated (tagLength b) with
    | true => rfl
    | false =>
      have hend := of_truncated_false ht
      rw [fetchChunk_withByte (by omega)]
      cases s.fetchChunk (tagLength b) with
      | none => rfl
      | some i => exact exec_withByte hw ha hl i

theorem decodeBody_withByte : decodeBody (s.withByte a v) = outcomeWithByte a v (decodeBody s) := by
  simp only [decodeBody, decodeStop, chunksRemain_withByte, complete_withByte hw ha hl]
  by_cases hr : s.chunksRemain = true
  · rw [if_pos hr, if_pos hr, decStep_withByte hw ha hl hfoot hr]
  · rw [if_neg hr, if_neg hr]
    rfl

end

theorem step_decodeBody {s : State} (hm : s.engineMoves) (ho : s.op = .decode) (hp : s.phase = .body) :
    step s = decodeBody s := by
  simp only [step_engine hm, engineStep, hp, ho]

/-- Settles O28: a footer byte lies in the input, so outside the output buffer (R69), and beyond every byte the body
reads. -/
theorem footerBytesAreNeverRead : Obligations.FooterBytesAreNeverRead := by
  intro s a v hi hm ho hp hfoot hin
  obtain ⟨hw, -, hl, hpos⟩ := hi.of_busy hm.1
  obtain ⟨-, -, -, -, hbusy⟩ := hi
  obtain ⟨hd, -⟩ := hbusy hm.1
  obtain ⟨-, -, hend⟩ := (positionInv_decodeBody hp ho).1 hpos
  have ha : a < s.outBase ∨ s.outBase + s.outCapacity ≤ a := by
    have := input_outside_output hd (k := a - s.inBase) (by unfold footerLength at hend; omega)
    unfold footerLength at hend
    omega
  have hstep : step (s.withByte a v) = outcomeWithByte a v (step s) := by
    rw [step_decodeBody hm ho hp, step_decodeBody (s := s.withByte a v) hm ho hp]
    exact decodeBody_withByte hw ha hl hfoot
  cases h : step s <;> exact hstep.trans (congrArg (outcomeWithByte a v) h)

/-! ## HEADER_EMIT and FOOTER_EMIT (R130, R133) -/

/-- R63: the four bytes of a header word, as quotients of its value. -/
theorem beBytes_eq_ofNat (w : Word32) : beBytes w =
    [BitVec.ofNat 8 (w.toNat / 2 ^ 24), BitVec.ofNat 8 (w.toNat / 2 ^ 16), BitVec.ofNat 8 (w.toNat / 2 ^ 8),
      BitVec.ofNat 8 w.toNat] := by
  simp only [beBytes, BitVec.extractLsb', Nat.shiftRight_eq_div_pow, Nat.pow_zero, Nat.div_one]

theorem step_headerEmit {s : State} (hm : s.engineMoves) (ho : s.op = .encode) (hp : s.phase = .hdr)
    (hh : s.hdrStep = .header) (hf : s.fits 14) :
    step s = .next (enterEncodeBody (s.withOutput s.headerBytes)) := by
  rw [← s.headerBytes_length] at hf
  simp only [step_engine hm, engineStep, hp, headerPhase, hh, ho, headerEmit, State.outAppendAll_fits _ hf]

/-- Settles O25: the one closed-form append, with the header's words written out. -/
theorem headerEmitWritesFourteenBytes : Obligations.HeaderEmitWritesFourteenBytes := by
  intro s hm ho hp hh hf
  refine ⟨_, step_headerEmit hm ho hp hh hf, ?_, rfl, rfl, rfl, rfl, rfl, rfl, by simp [SameInterface]⟩
  rw [← beBytes_eq_ofNat, ← beBytes_eq_ofNat]
  exact s.withOutput_appended s.headerBytes

theorem step_footerEmit {s : State} (hm : s.engineMoves) (ho : s.op = .encode) (hp : s.phase = .ftr) (hf : s.fits 8) :
    step s = .next (s.withOutput footerBytes).complete := by
  simp only [step_engine hm, engineStep, hp, ho, footerEmit, State.outAppendAll_fits (bs := footerBytes) hf]

/-- The end of an operation frees no byte of the result and none outside the output buffer (U9). -/
theorem State.complete_read_kept (s : State) {a : Nat}
    (ha : a < s.outBase + s.outLen ∨ s.outBase + s.outCapacity ≤ a) : s.complete.mem.read a = s.mem.read a := by
  rw [State.complete_mem]
  exact Memory.read_fillFree_out _ (by omega)

/-- Settles O26: the footer is appended, and the bytes freed at the end lie beyond it. -/
theorem footerEmitEndsTheEncode : Obligations.FooterEmitEndsTheEncode := by
  intro s hm ho hp hf
  obtain ⟨hbase, hlen, hin, hout⟩ := s.withOutput_appended footerBytes
  have hcap : (s.withOutput footerBytes).outCapacity = s.outCapacity := rfl
  have hkept := @State.complete_read_kept (s.withOutput footerBytes)
  rw [hbase, hlen, hcap, footerBytes_length] at hkept
  rw [footerBytes_length] at hout
  refine ⟨_, step_footerEmit hm ho hp hf, rfl, rfl, rfl, fun k v hk => ?_, fun a ha => ?_⟩
  · have hk8 : k < 8 := (List.getElem?_eq_some_iff.1 hk).1
    rw [hkept (by omega)]
    exact hin k v hk
  · unfold State.fits at hf
    rw [hkept (by omega), hout a (by omega)]

/-! ## HEADER_PARSE (R131) -/

/-- R63: the value of a header word, its first byte the most significant. -/
theorem beWord_toNat (b3 b2 b1 b0 : Byte) :
    (beWord b3 b2 b1 b0).toNat = b3.toNat * 2 ^ 24 + b2.toNat * 2 ^ 16 + b1.toNat * 2 ^ 8 + b0.toNat := by
  unfold beWord
  rw [BitVec.toNat_append, BitVec.toNat_append, BitVec.toNat_append, ← Nat.shiftLeft_add_eq_or_of_lt b2.isLt,
    ← Nat.shiftLeft_add_eq_or_of_lt b1.isLt, ← Nat.shiftLeft_add_eq_or_of_lt b0.isLt]
  simp only [Nat.shiftLeft_eq]
  omega

theorem legalChannels_false (c : Byte) : legalChannels c = false ↔ c ≠ 3#8 ∧ c ≠ 4#8 := by
  simp [legalChannels]

theorem legalColorspace_false (c : Byte) : legalColorspace c = false ↔ c ≠ 0#8 ∧ c ≠ 1#8 := by
  simp [legalColorspace]

theorem step_headerParse {s : State} (hm : s.engineMoves) (ho : s.op = .decode) (hp : s.phase = .hdr)
    (hh : s.hdrStep = .header) : step s = headerParse s := by
  simp only [step_engine hm, engineStep, hp, headerPhase, hh, ho]

/-- The state HEADER_PARSE leaves when the header bytes `b` pass its checks. -/
def headerParsed (b : Nat → Byte) (s : State) : State :=
  enterDecodeBody (s.setHeader (beWord (b 4) (b 5) (b 6) (b 7)) (beWord (b 8) (b 9) (b 10) (b 11)) (b 12) (b 13))

section
variable {s : State} {b : Nat → Byte}

/-- The checks of bytes 12 and 13, and then the fields, from the bytes read. -/
theorem parseFields_eq (hb : ∀ k, k < 14 → 4 ≤ k → s.readIn k = some (b k)) :
    parseFields s =
      if b 12 ≠ 3#8 ∧ b 12 ≠ 4#8 then .next (s.abort .invalidChannelCount)
      else if b 13 ≠ 0#8 ∧ b 13 ≠ 1#8 then .next (s.abort .invalidColorspace)
      else .next (headerParsed b s) := by
  have hsizes : parseSizes (b 12) (b 13) s = .next (headerParsed b s) := by
    simp [parseSizes, State.readInBytes, hb, headerParsed]
  simp only [parseFields, hb 12 (by decide) (by decide), hb 13 (by decide) (by decide), legalChannels_false,
    legalColorspace_false, hsizes]

/-- The magic check comes first, and is skipped when `CHECK_MAGIC` is false (R132). -/
theorem headerParse_eq (hb : ∀ k, k < 4 → s.params.checkMagic = true → s.readIn k = some (b k)) :
    headerParse s =
      if s.params.checkMagic = true ∧ [b 0, b 1, b 2, b 3] ≠ s.params.magic.toList then .next (s.abort .badMagic)
      else parseFields s := by
  by_cases hc : s.params.checkMagic = true
  · have hmagic : s.readInBytes 0 4 = some [b 0, b 1, b 2, b 3] := by simp [State.readInBytes, hb, hc]
    simp only [headerParse, hc, hmagic, if_true, true_and, ne_eq, ite_not]
  · simp only [headerParse, hc, false_and, if_false, Bool.false_eq_true]

end

/-- Settles O23: the checks in their order by `headerParse_eq` and `parseFields_eq`, then the fields one by one. -/
theorem headerParseChecksAndFields : Obligations.HeaderParseChecksAndFields := by
  intro s b hm ho hp hh hb
  rw [step_headerParse hm ho hp hh, headerParse_eq fun k hk hc => hb k (by omega) fun _ => hc,
    parseFields_eq fun k hk h4 => hb k hk (by omega)]
  split_ifs
  · rfl
  · rfl
  · rfl
  · exact ⟨_, rfl, beWord_toNat _ _ _ _, beWord_toNat _ _ _ _, rfl, rfl, rfl, rfl, rfl, rfl, rfl, rfl, rfl, rfl,
      by simp [SameInterface, headerParsed]⟩

end Sys2Proof.Machine
end

section
/-! PROOFS of the pixel cache's statements (41_pixel_cache.md): the hash (R150, R151), a collision of two pixels (R156), the
frame of the six chunks (R155, R226 to R231), and the lockstep of the encoder and the decoder (R158). -/

namespace Sys2Proof.Machine

/-! ## The hash and a collision (R150 to R156) -/

theorem pixelHash_toNat (p : Pixel) :
    (pixelHash p).toNat = (3 * p.r.toNat + 5 * p.g.toNat + 7 * p.b.toNat + 11 * p.a.toNat) % 64 :=
  BitVec.toNat_ofNat _ 6

/-- Settles O6: the sum's terms may be reduced modulo 64 one by one. -/
theorem hashDependsOnLowSixBits : Obligations.HashDependsOnLowSixBits := by
  intro p
  refine ⟨pixelHash_toNat p, ?_⟩
  rw [pixelHash_toNat]
  omega

theorem State.cacheRead_cacheUpdate (s : State) (p : Pixel) (j : BitVec 6) :
    (s.cacheUpdate p).cacheRead j = if j = pixelHash p then p else s.cacheRead j :=
  s.cacheRead_cacheWrite (pixelHash p) j p

/-- Settles O7: the slot the two pixels share holds what was written to it last. -/
theorem collidingUpdateOverwritesTheSlot : Obligations.CollidingUpdateOverwritesTheSlot := by
  intro s p q hpq hne
  have hslot : ((s.cacheUpdate p).cacheUpdate q).cacheRead (pixelHash q) = q := by
    rw [State.cacheRead_cacheUpdate, if_pos rfl]
  refine ⟨hslot, ?_⟩
  rw [State.cacheHit, hpq, hslot]
  exact decide_eq_false hne.symm

/-! ## The frame of the six chunks (R155, R226 to R231) -/

theorem chunkResult_sameInterface (i : Instr) (s : State) : SameInterface s (chunkResult i s) := by
  simp [SameInterface]

/-- A chunk writes no slot but the one its pixel hashes to. -/
theorem chunkResult_cacheRead_other (i : Instr) (s : State) {j : BitVec 6} (hj : j ≠ pixelHash (chunkPixel i s)) :
    (chunkResult i s).cacheRead j = s.cacheRead j := by
  have hread : (chunkResult i s).cacheRead j = (chunkCache i s).cacheRead j := by
    simp only [State.cacheRead, chunkResult_cache]
  rw [hread]
  rcases chunkCache_cases i s with hc | hc
  · rw [hc]
  · rw [hc, State.cacheRead_cacheUpdate, if_neg hj]

/-- INDEX and RUN leave the cache (R155). -/
theorem chunkCache_of_index_or_run {i : Instr} (hk : i.kind = .index ∨ i.kind = .run) (s : State) : chunkCache i s = s := by
  cases i with
  | index => rfl
  | run => rfl
  | _ => rcases hk with hk | hk <;> cases hk

theorem chunkPixel_of_run {i : Instr} (hk : i.kind = .run) (s : State) : chunkPixel i s = s.prev := by
  cases i with
  | run => rfl
  | _ => cases hk

/-- Settles O18: the one closed-form state a chunk in the region answers (`exec_next`), field by field. -/
theorem chunksLeaveEverythingElse : Obligations.ChunksLeaveEverythingElse := by
  intro i s t hin h
  obtain rfl : t = chunkResult i s := exec_next (truncated_false hin) h
  obtain ⟨-, hlen, -, hout⟩ := chunkResult_appended i s
  refine ⟨chunkResult_sameInterface i s, chunkResult_phase i s, chunkResult_run i s, chunkResult_pix i s,
    chunkResult_pos i s, by omega, fun a ha => hout a (by omega), fun j hj => ?_, fun hk => ?_, fun hk => ?_⟩
  · rw [chunkResult_prev] at hj
    exact chunkResult_cacheRead_other i s hj
  · rw [chunkResult_cache, chunkCache_of_index_or_run hk]
  · rw [chunkResult_prev, chunkPixel_of_run hk]

/-! ## Lockstep (R158) -/

/-- The one state an ENCODE's step answers at a pixel that differs from `prev` (R174). -/
theorem step_newPixel {s e : State} {cur : Pixel} (hat : s.atPixel cur) (hne : cur ≠ s.prev)
    (h : step s = .next e) : e = advancePixel cur (newPixelResult cur s) := by
  rw [step_pixel hat] at h
  by_cases hf : s.fits (s.pendingRun.length + (encode (tierInstr cur s)).length)
  · rw [encPixel_new hne hf] at h
    cases h
    rfl
  · rw [encPixel_new_stuck hne hf] at h
    cases h

/-- A decoder with the encoder's cache and `prev`, and room for one pixel, completes the chunk the encoder chooses. -/
theorem exec_tierInstr {s d : State} {cur : Pixel} (hc : d.cache = s.cache) (hp : d.prev = s.prev)
    (hin : d.pos + (tierInstr cur s).length + 8 ≤ d.inLen) (hf : d.fits (if d.channels = 4#8 then 4 else 3)) :
    exec (tierInstr cur s) d = .next (chunkResult (tierInstr cur s) d) := by
  refine exec_completes (truncated_false hin) ?_
  rw [chunkBytes_tier hc hp, pixelBytes_length]
  exact hf

/-- Settles O55: the chunk is `tierInstr`, which over the encoder's cache and `prev` gives the pixel back
(`chunkPixel_tier`, `chunkBytes_tier`) and leaves the cache the encoder leaves (`chunkCache_tier`). -/
theorem decoderStaysInLockstepWithTheEncoder : Obligations.DecoderStaysInLockstepWithTheEncoder := by
  intro s d e cur hat hne hrun h hc hp
  obtain rfl : e = advancePixel cur (newPixelResult cur s) := step_newPixel hat hne h
  have hbytes := newPixelResult_appended cur s
  rw [pendingRun_of_zero hrun, List.nil_append] at hbytes
  refine ⟨tierInstr cur s, tierInstr_wellFormed cur s, hbytes, fun hin hf => ?_⟩
  have hpixel : (chunkResult (tierInstr cur s) d).prev = cur := by rw [chunkResult_prev, chunkPixel_tier hc hp]
  have hout := chunkResult_appended (tierInstr cur s) d
  rw [chunkBytes_tier hc hp] at hout
  refine ⟨_, exec_tierInstr hc hp hin hf, hpixel, hpixel, ?_, hout⟩
  rw [chunkResult_cache, chunkCache_tier hc hp, advancePixel_cache, newPixelResult_cache]

end Sys2Proof.Machine
end

section
/-! PROOFS of the encoder's statements (42_encoder.md): its checks (R171), PIXEL_FETCH (R172), what one pixel emits (R174 to
R183), that ENCODE is a function of its inputs (R185), and that DECODE undoes it (R186). -/

namespace Sys2Proof.Machine

/-! ## The operand checks and PIXEL_FETCH (R171, R172) -/

theorem step_encodeCheck {s : State} (hm : s.engineMoves) (ho : s.op = .encode) (hp : s.phase = .hdr)
    (hh : s.hdrStep = .check) : step s = .next (encValid s) := by
  simp only [step_engine hm, engineStep, hp, headerPhase, hh, ho]

/-- Settles O21: the model's `legalChannels` and `legalColorspace` are the two byte tests of R171. -/
theorem encodeChecksInOrder : Obligations.EncodeChecksInOrder := by
  intro s hm ho hp hh
  rw [step_encodeCheck hm ho hp hh]
  simp only [encValid, legalChannels_false, legalColorspace_false]
  split_ifs <;> rfl

/-- Settles O29: pixel `i` starts at `i * CHANNELS`, with `CHANNELS` 3 or 4. -/
theorem pixelFetchReadsTheChannels : Obligations.PixelFetchReadsTheChannels := by
  intro s i r g b
  refine ⟨fun hc hr hg hb => ?_, fun a hc hr hg hb ha => ?_⟩
  · simp [State.fetchPixel, hc, Nat.mul_comm i, hr, hg, hb]
  · simp [State.fetchPixel, hc, Nat.mul_comm i, hr, hg, hb, ha]

/-! ## A pixel equal to `prev` (R175) -/

/-- Settles O30: the pixel counts, and nothing is written but `run` and `pix`. -/
theorem equalPixelExtendsTheRun : Obligations.EqualPixelExtendsTheRun := by
  intro s cur hat heq hrun hlast
  have hnotLast : s.lastPixel = false := decide_eq_false hlast
  have hstep : step s = .next (advancePixel cur (s.setRun (s.run + 1#6))) := by
    rw [step_pixel hat, encPixel_extend heq hrun hnotLast]
  obtain ⟨-, -, hp, -⟩ := hat
  exact ⟨_, hstep, run_succ s.run (by omega), rfl, rfl, rfl, (if_neg hlast).trans hp, heq, rfl, rfl,
    by simp [SameInterface]⟩

/-- Settles O31: the RUN byte of `run + 1` pixels is appended and the count cleared. -/
theorem fullOrLastRunIsEmitted : Obligations.FullOrLastRunIsEmitted := by
  intro s cur hat heq hrun hend hfit
  have hend' : s.run.toNat = 61 ∨ s.lastPixel = true := hend.imp_right decide_eq_true
  have hstep : step s = .next (advancePixel cur ((s.withOutput [runByte s]).setRun 0#6)) := by
    rw [step_pixel hat, encPixel_emit heq hrun hend' hfit]
  obtain ⟨-, -, hp, -⟩ := hat
  exact ⟨_, hstep, s.withOutput_appended [runByte s], rfl, rfl, hp ▸ rfl, heq, rfl, rfl, by simp [SameInterface]⟩

/-! ## A pixel that differs from `prev` (R174, R176 to R178) -/

/-- With room for it, such a pixel appends the pending run and the bytes of the chunk `tierInstr` chooses. -/
theorem newPixel_done {s : State} {cur : Pixel} {bs : List Byte} (h : s.atNewPixel cur bs)
    (hb : encode (tierInstr cur s) = bs) :
    step s = .next (advancePixel cur (newPixelResult cur s))
      ∧ NewPixelDone s (advancePixel cur (newPixelResult cur s)) cur bs := by
  subst hb
  obtain ⟨hat, hne, -, hfit⟩ := h
  have hstep : step s = .next (advancePixel cur (newPixelResult cur s)) := by rw [step_pixel hat, encPixel_new hne hfit]
  obtain ⟨-, -, hp, -⟩ := hat
  refine ⟨hstep, newPixelResult_appended cur s, rfl, newPixelResult_run cur s, ?_, ?_, newPixelResult_pos cur s,
    by simp [SameInterface]⟩
  · rw [advancePixel_pix, newPixelResult_pix]
  · rw [advancePixel_phase, newPixelResult_pix, newPixelResult_phase, hp,
      npix_congr (newPixelResult_width cur s) (newPixelResult_height cur s)]

theorem tierCache_hit {s : State} {cur : Pixel} (h : s.cacheRead (pixelHash cur) = cur) : tierCache cur s = s :=
  if_pos (decide_eq_true h)

theorem not_cacheHit {s : State} {cur : Pixel} (h : s.cacheRead (pixelHash cur) ≠ cur) : ¬ s.cacheHit cur = true :=
  mt of_decide_eq_true h

theorem tierCache_miss {s : State} {cur : Pixel} (h : s.cacheRead (pixelHash cur) ≠ cur) :
    tierCache cur s = s.cacheUpdate cur := if_neg (not_cacheHit h)

/-- A miss writes the pixel to its slot, whichever chunk it becomes (R178). -/
theorem newPixel_cacheUpdated {s : State} {cur : Pixel} (h : s.cacheRead (pixelHash cur) ≠ cur) :
    CacheUpdated s (advancePixel cur (newPixelResult cur s)) cur := by
  intro j
  rw [← s.cacheRead_cacheUpdate cur j, ← tierCache_miss h]
  simp only [State.cacheRead, advancePixel_cache, newPixelResult_cache]

/-- A miss, whose chunk has the bytes `bs`. -/
theorem newPixel_miss {s : State} {cur : Pixel} {bs : List Byte} (h : s.atNewPixel cur bs)
    (hmiss : s.cacheRead (pixelHash cur) ≠ cur) (hb : encode (tierInstr cur s) = bs) :
    ∃ t, step s = .next t ∧ NewPixelDone s t cur bs ∧ CacheUpdated s t cur := by
  obtain ⟨hstep, hdone⟩ := newPixel_done h hb
  exact ⟨_, hstep, hdone, newPixel_cacheUpdated hmiss⟩

/-- Settles O32: a hit is the slot's number, and leaves the cache. -/
theorem cachedPixelIsAnIndexChunk : Obligations.CachedPixelIsAnIndexChunk := by
  intro s cur h hhit
  have hchunk : tierInstr cur s = .index (pixelHash cur) := if_pos (decide_eq_true hhit)
  obtain ⟨hstep, hdone⟩ := newPixel_done h (by rw [hchunk, encode_index_byte])
  refine ⟨_, hstep, hdone, ?_⟩
  rw [advancePixel_cache, newPixelResult_cache, tierCache_hit hhit]

/-! ## The bytes of DIFF and LUMA (R180, R181) -/

/-- A biased operand in range of its field is the field's value, as a byte. -/
theorem ofInt_eq_biasField {n bias : Nat} {d : Int} (h : 0 ≤ d + bias) (h' : d + bias < 2 ^ n) :
    BitVec.ofInt 8 (d + bias) = (biasField n d bias).setWidth 8 := by
  obtain ⟨m, hm⟩ := Int.eq_ofNat_of_zero_le h
  rw [hm] at h'
  have hlt : m < 2 ^ n := by exact_mod_cast h'
  apply BitVec.eq_of_toNat_eq
  rw [biasField, hm, BitVec.ofInt_natCast, BitVec.ofInt_natCast, BitVec.toNat_setWidth, BitVec.toNat_ofNat,
    BitVec.toNat_ofNat, Nat.mod_eq_of_lt hlt]

theorem diffByte_fields : ∀ x y z : BitVec 2, 0b01#2 ++ x ++ y ++ z
    = 0x40#8 ||| (x.setWidth 8 <<< 4) ||| (y.setWidth 8 <<< 2) ||| z.setWidth 8 := by decide

theorem lumaByte0_field : ∀ x : BitVec 6, 0b10#2 ++ x = 0x80#8 ||| x.setWidth 8 := by decide

theorem lumaByte1_fields : ∀ x y : BitVec 4, x ++ y = (x.setWidth 8 <<< 4) ||| y.setWidth 8 := by decide

theorem encode_diff_byte {dr dg db : Int} (h : diffOk dr dg db = true) : encode (.diff dr dg db) =
    [0x40#8 ||| (BitVec.ofInt 8 (dr + 2) <<< 4) ||| (BitVec.ofInt 8 (dg + 2) <<< 2) ||| BitVec.ofInt 8 (db + 2)] := by
  obtain ⟨hr, hr', hg, hg', hb, hb'⟩ := (diffOk_iff dr dg db).1 h
  have field {d : Int} (h : -2 ≤ d) (h' : d ≤ 1) : BitVec.ofInt 8 (d + 2) = (biasField 2 d 2).setWidth 8 :=
    ofInt_eq_biasField (bias := 2) (by omega) (by omega)
  rw [encode, diffByte_fields, field hr hr', field hg hg', field hb hb']

theorem encode_luma_bytes {dr dg db : Int} (h : lumaOk dr dg db = true) : encode (.luma dg (dr - dg) (db - dg)) =
    [0x80#8 ||| BitVec.ofInt 8 (dg + 32),
      (BitVec.ofInt 8 (dr - dg + 8) <<< 4) ||| BitVec.ofInt 8 (db - dg + 8)] := by
  obtain ⟨hg, hg', hr, hr', hb, hb'⟩ := (lumaOk_iff dr dg db).1 h
  have green : BitVec.ofInt 8 (dg + 32) = (biasField 6 dg 32).setWidth 8 :=
    ofInt_eq_biasField (bias := 32) (by omega) (by omega)
  have offset {d : Int} (h : -8 ≤ d) (h' : d ≤ 7) : BitVec.ofInt 8 (d + 8) = (biasField 4 d 8).setWidth 8 :=
    ofInt_eq_biasField (bias := 8) (by omega) (by omega)
  rw [encode, lumaByte0_field, lumaByte1_fields, green, offset hr hr', offset hb hb']

/-! ## The chunk of a miss (R180 to R183) -/

/-- Settles O33: DIFF_OK comes first. -/
theorem smallDeltasAreADiffChunk : Obligations.SmallDeltasAreADiffChunk := by
  intro s cur dr dg db bs h hmiss ha hr hr' hg hg' hb hb'
  have hdiff : diffOk dr dg db = true := (diffOk_iff _ _ _).2 ⟨hr, hr', hg, hg', hb, hb'⟩
  exact newPixel_miss h hmiss
    (by rw [tierInstr, if_neg (not_cacheHit hmiss), if_pos ha, if_pos hdiff, encode_diff_byte hdiff])

/-- Settles O34: LUMA_OK comes after DIFF_OK. -/
theorem biasedDeltasAreALumaChunk : Obligations.BiasedDeltasAreALumaChunk := by
  intro s cur dr dg db bs h hmiss ha hnd hg hg' hr hr' hb hb'
  have hdiff : ¬ diffOk dr dg db = true := mt (diffOk_iff _ _ _).1 hnd
  have hluma : lumaOk dr dg db = true := (lumaOk_iff _ _ _).2 ⟨hg, hg', hr, hr', hb, hb'⟩
  exact newPixel_miss h hmiss
    (by rw [tierInstr, if_neg (not_cacheHit hmiss), if_pos ha, if_neg hdiff, if_pos hluma, encode_luma_bytes hluma])

/-- Settles O35: RGB is what is left when alpha is unchanged. -/
theorem largeDeltasAreAnRgbChunk : Obligations.LargeDeltasAreAnRgbChunk := by
  intro s cur dr dg db h hmiss ha hnd hnl
  have hdiff : ¬ diffOk dr dg db = true := mt (diffOk_iff _ _ _).1 hnd
  have hluma : ¬ lumaOk dr dg db = true := mt (lumaOk_iff _ _ _).1 hnl
  exact newPixel_miss h hmiss
    (by rw [tierInstr, if_neg (not_cacheHit hmiss), if_pos ha, if_neg hdiff, if_neg hluma, encode])

/-- Settles O36: a changed alpha decides before the colour deltas are looked at. -/
theorem changedAlphaIsAnRgbaChunk : Obligations.ChangedAlphaIsAnRgbaChunk := by
  intro s cur h hmiss ha
  exact newPixel_miss h hmiss (by rw [tierInstr, if_neg (not_cacheHit hmiss), if_neg ha, encode])

/-! ## ENCODE is a function of its inputs (R185) -/

/-- The whole output depends on the pixels, the operands and `MAGIC` alone: OPINIT has cleared the working state. -/
theorem encodeOutput_congr (ps : List Pixel) {s t : State} (hp : s.params.magic = t.params.magic) (hw : s.width = t.width)
    (hh : s.height = t.height) (hc : s.channels = t.channels) (hcs : s.colorspace = t.colorspace) :
    encodeOutput ps s = encodeOutput ps t := by
  have hchunks : encChunks ps (opInit s) = encChunks ps (opInit t) := encChunks_congr ps rfl rfl rfl
  simp only [encodeOutput, State.headerBytes, hp, hw, hh, hc, hcs, hchunks]

/-- Settles O56: both inputs are the same pixels, so `encode_run` gives both the same output list. -/
theorem encodeDependsOnItsInputsAlone : Obligations.EncodeDependsOnItsInputsAlone := by
  intro s1 s2 h1 h2 hw hh hc hcs hmagic hbytes
  obtain ⟨-, hchecked1, hplaced1, -⟩ := id h1
  obtain ⟨-, hchecked2, -, -⟩ := id h2
  obtain ⟨ps, hlen, hfetch⟩ := input_pixels hchecked1 hplaced1
  have hnpix : s1.npix = s2.npix := npix_congr hw hh
  have hinLen : s1.inLen = s2.inLen := by rw [hchecked1.2, hchecked2.2, hw, hh, hc]
  have hread (k : Nat) : s2.readIn k = s1.readIn k := by
    by_cases hk : k < s1.inLen
    · exact (hbytes k hk).symm
    · rw [State.readIn, State.readIn, if_neg hk, if_neg (hinLen ▸ hk)]
  obtain ⟨-, t1, -, -, hrun1, hdone1, -, hbase1, hol1, hout1⟩ := encode_run h1 hlen hfetch
  obtain ⟨-, t2, -, -, hrun2, hdone2, -, hbase2, hol2, hout2⟩ := encode_run h2 (hlen.trans hnpix)
    fun j p hj => (fetchPixel_congr hread hc.symm j).trans (hfetch j p hj)
  rw [← encodeOutput_congr ps hmagic hw hh hc hcs] at hol2 hout2
  refine ⟨t1, t2, hrun1, hnpix ▸ hrun2, hdone1, hdone2, hol1.trans hol2.symm, fun k hk => ?_⟩
  have hv : (encodeOutput ps s1)[k]? = some _ := List.getElem?_eq_getElem (hol1 ▸ hk)
  rw [hbase1, hbase2, hout1 k _ hv, hout2 k _ hv]

/-! ## DECODE undoes ENCODE (R186) -/

theorem step_opInit {s : State} (hm : s.engineMoves) (hp : s.phase = .hdr) (hh : s.hdrStep = .opInit) :
    step s = .next (opInit s) := by
  simp only [step_engine hm, engineStep, hp, headerPhase, hh]

theorem step_decodeCheck {s : State} (hm : s.engineMoves) (ho : s.op = .decode) (hp : s.phase = .hdr)
    (hh : s.hdrStep = .check) : step s = .next (decValid s) := by
  simp only [step_engine hm, engineStep, hp, headerPhase, hh, ho]

/-- HEADER_PARSE takes the header registers of `s` from the header bytes of `s`, with or without the magic check. -/
theorem headerParse_headerBytes {s d : State} {rest : List Byte} (hmagic : d.params.magic = s.params.magic)
    (hlegal : s.headerLegal) (hin : ∀ k v, (s.headerBytes ++ rest)[k]? = some v → d.readIn k = some v) :
    headerParse d = .next (enterDecodeBody (d.setHeader s.width s.height s.channels s.colorspace)) := by
  have hread (pre bs post : List Byte) (h : s.headerBytes ++ rest = pre ++ bs ++ post) :
      d.readInBytes pre.length bs.length = some bs := readInBytes_mid hin h
  have hm := hread [] s.params.magic.toList (beBytes s.width ++ beBytes s.height ++ [s.channels, s.colorspace] ++ rest)
    (by simp [State.headerBytes])
  have hsizes := hread s.params.magic.toList (beBytes s.width ++ beBytes s.height) ([s.channels, s.colorspace] ++ rest)
    (by simp [State.headerBytes])
  have hch := hread (s.params.magic.toList ++ beBytes s.width ++ beBytes s.height) [s.channels] (s.colorspace :: rest)
    (by simp [State.headerBytes])
  have hcs := hread (s.params.magic.toList ++ beBytes s.width ++ beBytes s.height ++ [s.channels]) [s.colorspace] rest
    (by simp [State.headerBytes])
  simp only [List.length_append, List.length_cons, List.length_nil, Vector.length_toList, beBytes_length]
    at hm hsizes hch hcs
  exact headerParse_of (hmagic ▸ rfl) hm hsizes hch hcs hlegal.1 hlegal.2

/-- A DECODE of a stream with the header of `s`, at its first chunk. -/
def decodeEntered (s d : State) : State :=
  enterDecodeBody ({ opInit d with hdrStep := .header }.setHeader s.width s.height s.channels s.colorspace)

/-- The three steps of a DECODE before its first chunk (R220). -/
theorem run_decodeEntered {s d : State} {rest : List Byte} (h : d.atStart .decode)
    (hmagic : d.params.magic = s.params.magic) (hlegal : s.headerLegal) (hlen : 22 ≤ d.inLen)
    (hin : ∀ k v, (s.headerBytes ++ rest)[k]? = some v → d.readIn k = some v) :
    Host.Core.run Sys2Proof.core 3 d = .next (decodeEntered s d) := by
  obtain ⟨hm, ho, hp, hh, -⟩ := h
  have hcheck : decValid (opInit d) = { opInit d with hdrStep := .header } := if_neg (Nat.not_lt.2 hlen)
  have hparse := headerParse_headerBytes (d := { opInit d with hdrStep := .header }) hmagic hlegal hin
  refine run_succ_iff.2 ⟨opInit d, step_opInit hm hp hh, run_succ_iff.2 ⟨{ opInit d with hdrStep := .header }, ?_,
    run_succ_iff.2 ⟨decodeEntered s d, ?_, rfl⟩⟩⟩
  · rw [step_decodeCheck (s := opInit d) hm ho hp rfl, hcheck]
  · exact (step_headerParse (s := { opInit d with hdrStep := .header }) hm ho hp rfl).trans hparse

/-- The chunks of a stream lie between its header and its footer. -/
theorem readIn_chunkRegion {s d : State} {bs : List Byte}
    (hin : ∀ k v, (s.headerBytes ++ bs ++ footerBytes)[k]? = some v → d.readIn k = some v) (k : Nat) (v : Byte)
    (hk : bs[k]? = some v) : d.readIn (14 + k) = some v := by
  have hlt := (List.getElem?_eq_some_iff.1 hk).1
  apply hin
  rw [List.append_assoc, List.getElem?_append_right (by rw [State.headerBytes_length]; omega), State.headerBytes_length,
    Nat.add_sub_cancel_left, List.getElem?_append_left hlt, hk]

/-- The whole of DECODE (R220) on the stream of the header of `s`, the chunks `cs` and the footer. -/
theorem run_decode_stream {s d : State} {cs : List Instr} (h : d.atStart .decode) (hmagic : d.params.magic = s.params.magic)
    (hlegal : s.headerLegal) (hwf : ∀ i ∈ cs, wellFormed i = true)
    (hlen : d.inLen = (s.headerBytes ++ encodeAll cs ++ footerBytes).length)
    (hin : ∀ k v, (s.headerBytes ++ encodeAll cs ++ footerBytes)[k]? = some v → d.readIn k = some v)
    (hroom : (chunksBytes cs (decodeEntered s d)).length ≤ d.outCapacity) :
    ∃ t : State, Host.Core.run Sys2Proof.core (3 + (cs.length + 1)) d = .next t ∧ t.state = .done
      ∧ t.width = s.width ∧ t.height = s.height ∧ t.channels = s.channels ∧ t.colorspace = s.colorspace
      ∧ t.outLen = (chunksBytes cs (decodeEntered s d)).length
      ∧ ∀ k v, (chunksBytes cs (decodeEntered s d))[k]? = some v → t.mem.read (t.outBase + k) = some v := by
  obtain ⟨hm, ho, -, -, -, hol, -, -, hdisj⟩ := id h
  simp only [List.length_append, State.headerBytes_length, footerBytes_length] at hlen
  have hstart := run_decodeEntered (rest := encodeAll cs ++ footerBytes) h hmagic hlegal (by omega)
    (by rw [← List.append_assoc]; exact hin)
  have hregion : ∀ k v, (encodeAll cs)[k]? = some v → (decodeEntered s d).readIn (14 + k) = some v :=
    readIn_chunkRegion hin
  have hfits : (decodeEntered s d).fits (chunksBytes cs (decodeEntered s d)).length := by
    change d.outLen + _ ≤ d.outCapacity
    omega
  obtain ⟨t, hrun, hp, hpos, hsame, happ⟩ := decode_body cs (d := decodeEntered s d) hm ho rfl
    (fun i hi => by simpa using encodedChunksDecodeBack i [] (hwf i hi)) hregion
    (by change 14 + _ + 8 = d.inLen; omega) hdisj hfits
  obtain ⟨hst, -, hop, hw, hht, hc, hcs, -, -, hob, -, -, -, hhost, -⟩ := hsame
  obtain ⟨-, htlen, hbytes, -⟩ := happ
  have hstop : step t = .next t.complete := by
    rw [step_decodeBody ⟨hst.trans hm.1, hhost.trans hm.2⟩ (hop.trans ho) hp, decodeBody, if_neg, decodeStop]
    rw [chunksRemain_iff]
    omega
  have h0 : (decodeEntered s d).outLen = 0 := hol
  rw [h0, Nat.zero_add] at htlen
  rw [h0, Nat.add_zero, ← hob] at hbytes
  refine ⟨t.complete, run_add_iff.2 ⟨_, hstart, run_add_iff.2 ⟨t, hrun, run_succ_iff.2 ⟨_, hstop, rfl⟩⟩⟩, rfl,
    hw, hht, hc, hcs, htlen, fun k v hk => ?_⟩
  have hlt := (List.getElem?_eq_some_iff.1 hk).1
  have hkept : t.complete.mem.read (t.outBase + k) = t.mem.read (t.outBase + k) :=
    t.complete_read_kept (.inl (by omega))
  exact hkept.trans (hbytes k v hk)

/-- Settles O57: the stream of `encode_run` is the header, the chunks of the input's pixels and the footer;
`run_decode_stream` appends what those chunks give, which `chunksBytes_encChunks` says are the pixels again. -/
theorem decodeOfEncodeReturnsTheInput : Obligations.DecodeOfEncodeReturnsTheInput := by
  intro s h
  obtain ⟨-, hchecked, hplaced, -⟩ := id h
  obtain ⟨ps, hlen, hfetch⟩ := input_pixels hchecked hplaced
  obtain ⟨-, e, -, -, hrun, hdone, -, hbase, hol, hout⟩ := encode_run h hlen hfetch
  refine ⟨e, hrun, hdone, fun d hd hmagic hinLen hread hcap => ?_⟩
  have hpixels : chunksBytes (encChunks ps (opInit s)) (decodeEntered s d) = ps.flatMap (pixelBytes s.channels) :=
    chunksBytes_encChunks ps (s := opInit s) (d := decodeEntered s d) rfl rfl (by simp) fun _ => rfl
  obtain ⟨hrawLen, hraw⟩ := pixels_bytes hchecked hlen hfetch
  have hstream : ∀ k v, (encodeOutput ps s)[k]? = some v → d.readIn k = some v := fun k v hk => by
    have hlt := (List.getElem?_eq_some_iff.1 hk).1
    rw [hread k (by omega), hbase, hout k v hk]
  obtain ⟨t, htrun, htdone, hw, hh, hc, hcs, htlen, htbytes⟩ := run_decode_stream hd hmagic hchecked.1
    (encChunks_wellFormed ps (s := opInit s) (by simp)) (hinLen.trans hol) hstream (by rw [hpixels, hrawLen]; exact hcap)
  rw [hpixels] at htlen htbytes
  refine ⟨_, t, htrun, htdone, htlen.trans hrawLen, hw, hh, hc, hcs, fun j hj => ?_⟩
  have hj' : (ps.flatMap (pixelBytes s.channels))[j]? = some _ := List.getElem?_eq_getElem (hrawLen ▸ hj)
  exact (htbytes j _ hj').trans (hraw j _ hj').symm

end Sys2Proof.Machine
end

section
/-! PROOFS of the decoder's statements (43_decoder.md): what each chunk does and which bytes it is read from (R224 to R231),
where the body stops (R221, R232), and that every engine step approaches the end of its operation (R236, R299). -/

namespace Sys2Proof.Machine

/-! ## Every engine step approaches the end (R236, R299) -/

section
variable {s : State} (ho : s.op = .encode)
include ho

theorem stepsLeft_encodeOpInit (hp : s.phase = .hdr) (hh : s.hdrStep = .opInit) : s.stepsLeft = s.npix + 4 := by
  simp only [State.stepsLeft, hp, ho, hh]

theorem stepsLeft_encodeCheck (hp : s.phase = .hdr) (hh : s.hdrStep = .check) : s.stepsLeft = s.npix + 3 := by
  simp only [State.stepsLeft, hp, ho, hh]

theorem stepsLeft_encodeHeader (hp : s.phase = .hdr) (hh : s.hdrStep = .header) : s.stepsLeft = s.npix + 2 := by
  simp only [State.stepsLeft, hp, ho, hh]

theorem stepsLeft_encodeBody (hp : s.phase = .body) : s.stepsLeft = s.npix - s.pix + 1 := by
  simp only [State.stepsLeft, hp, ho]

end

theorem stepsLeft_footer {s : State} (hp : s.phase = .ftr) : s.stepsLeft = 1 := by
  simp only [State.stepsLeft, hp]

theorem stepsLeft_opInit {s : State} (hp : s.phase = .hdr) (hh : s.hdrStep = .opInit) :
    (opInit s).stepsLeft + 1 = s.stepsLeft := by
  cases ho : s.op with
  | encode =>
    rw [stepsLeft_encodeCheck (s := opInit s) ho hp rfl, stepsLeft_encodeOpInit ho hp hh]
    rfl
  | decode =>
    rw [stepsLeft_decodeCheck (s := opInit s) ho hp rfl, stepsLeft_decodeOpInit ho hp hh]
    rfl

/-- HEADER_EMIT leaves one step for each pixel and the footer (R170). -/
theorem stepsLeft_enterEncodeBody {s : State} (ho : s.op = .encode) : (enterEncodeBody s).stepsLeft = s.npix + 1 := by
  by_cases h0 : s.npix = 0
  · rw [stepsLeft_footer (s := enterEncodeBody s) (if_pos h0), h0]
  · rw [stepsLeft_encodeBody (s := enterEncodeBody s) ho (if_neg h0)]
    rfl

/-- One pixel of an ENCODE's body is one step fewer (R174). -/
theorem stepsLeft_advancePixel {s : State} (cur : Pixel) (ho : s.op = .encode) (hp : s.phase = .body)
    (hx : s.pix < s.npix) : (advancePixel cur s).stepsLeft < s.stepsLeft := by
  rw [stepsLeft_encodeBody ho hp]
  by_cases hl : s.pix + 1 = s.npix
  · rw [stepsLeft_footer (s := advancePixel cur s) (if_pos hl)]
    omega
  · rw [stepsLeft_encodeBody (s := advancePixel cur s) ho ((if_neg hl).trans hp)]
    change s.npix - (s.pix + 1) + 1 < _
    omega

theorem stepsLeft_congr {s t : State} (hsame : SameInterface s t) (hp : t.phase = s.phase) (hx : t.pix = s.pix)
    (hpos : t.pos = s.pos) : t.stepsLeft = s.stepsLeft := by
  obtain ⟨-, -, ho, hw, hh, -, -, -, hl, -, -, -, hhdr, -⟩ := hsame
  unfold State.stepsLeft State.npix
  rw [hp, ho, hw, hh, hl, hhdr, hx, hpos]

/-- A move of the engine ends the operation or leaves it fewer steps. -/
theorem EngineMove.stepsLeft_lt {s t : State} (h : EngineMove s t) (hb : t.state = .busy) : t.stepsLeft < s.stepsLeft := by
  cases h with
  | opInit hp hh => exact Nat.lt_of_succ_le (stepsLeft_opInit hp hh).le
  | encCheckPasses hp hh ho =>
    rw [stepsLeft_encodeHeader (s := { s with hdrStep := .header }) ho hp rfl, stepsLeft_encodeCheck ho hp hh]
    exact Nat.lt_succ_self _
  | decCheckPasses hp hh ho =>
    rw [stepsLeft_decodeHeader (s := { s with hdrStep := .header }) ho hp rfl, stepsLeft_decodeCheck ho hp hh]
    exact Nat.lt_succ_self _
  | headerEmit hp hh ho =>
    rw [stepsLeft_enterEncodeBody (s := s.withOutput s.headerBytes) ho, stepsLeft_encodeHeader ho hp hh]
    exact Nat.lt_succ_self _
  | headerParse hp hh ho w g ch cs =>
    rw [stepsLeft_decodeBody (s := enterDecodeBody (s.setHeader w g ch cs)) ho rfl, stepsLeft_decodeHeader ho hp hh]
    change s.inLen - 8 - 14 + 1 < _
    omega
  | pixel hp ho hx cur u _ hu =>
    obtain ⟨hsame, huphase, hupix, hupos, -⟩ := encPixel_frame hu
    rw [← stepsLeft_congr hsame huphase hupix hupos]
    obtain ⟨-, -, huop, hw, hh, -⟩ := hsame
    exact stepsLeft_advancePixel cur (huop.trans ho) (huphase.trans hp) (by rw [hupix, npix_congr hw hh]; exact hx)
  | chunk hp ho _ _ i _ _ ht =>
    have hlen := instr_length_pos i
    have hend := of_truncated_false ht
    rw [stepsLeft_decodeBody (s := chunkResult i s) (by simpa using ho) (by simpa using hp), stepsLeft_decodeBody ho hp,
      chunkResult_inLen, chunkResult_pos]
    omega
  | encCheckFails | decCheckFails | headerFails | truncated | stop | footer => simp at hb -- the moves that end it

/-- Settles O52: a step of the engine is one of its moves, each of which counts down from any state, in `Inv` or not. -/
theorem everyEngineStepApproachesTheEnd : Obligations.EveryEngineStepApproachesTheEnd := by
  intro s t _ hm h
  rw [step_engine hm] at h
  exact or_iff_not_imp_left.2 fun hb => (engineMove_of_step h).stepsLeft_lt (not_not.1 hb)

/-! ## The step at a chunk, and its truncation (R223, R224) -/

/-- TRUNC before any operand byte is read (R224). -/
theorem decStep_truncated {s : State} {b : Byte} (hb : s.readIn s.pos = some b) (ht : s.truncated (tagLength b) = true) :
    decStep s = .next (s.abort .truncatedStream) := by
  simp only [decStep, hb, ht, if_true]

/-- Settles O8: the chunk of `step_chunk`, or TRUNC. -/
theorem stepRunsTheFetchedChunk : Obligations.StepRunsTheFetchedChunk := by
  intro s hat
  refine ⟨fun bs i hbs hd ht => step_chunk hat hbs hd ht, fun b hb ht => ?_⟩
  obtain ⟨hm, ho, hp, hr⟩ := hat
  rw [step_decodeBody hm ho hp, decodeBody, if_pos hr, decStep_truncated hb ht]

/-- Settles O10: an INDEX, a DIFF or a RUN is its tag byte alone. -/
theorem chunksBeyondTheRegionAreTruncated : Obligations.ChunksBeyondTheRegionAreTruncated := by
  intro i s h
  refine ⟨exec_truncated (truncated_true h), fun hpos => ?_⟩
  cases hk : i.kind with
  | luma => exact .inl rfl
  | rgb => exact .inr (.inl rfl)
  | rgba => exact .inr (.inr rfl)
  | index | diff | run =>
    simp only [Instr.length, hk, Kind.length] at h
    omega

/-! ## What a chunk in the region does (R225 to R231) -/

/-- A chunk in the region, with room for its pixels, completes. -/
theorem exec_completes_of_room {i : Instr} {s : State} (hin : s.pos + i.length + 8 ≤ s.inLen)
    (hf : s.fits (pixelCount i * (if s.channels = 4#8 then 4 else 3))) : exec i s = .next (chunkResult i s) := by
  rw [← chunkBytes_length] at hf
  exact exec_completes (truncated_false hin) hf

/-- R153: a chunk other than INDEX and RUN writes the slot of the pixel it reconstructs. -/
theorem chunkResult_cacheUpdated {i : Instr} (hi : i.kind ≠ .index) (hr : i.kind ≠ .run) (s : State) :
    CacheUpdated s (chunkResult i s) (chunkPixel i s) := by
  intro j
  have hc : chunkCache i s = s.cacheUpdate (chunkPixel i s) := by
    cases i with
    | index => exact absurd rfl hi
    | run => exact absurd rfl hr
    | _ => rfl
  simp only [State.cacheRead, chunkResult_cache, hc]
  exact s.cacheRead_cacheUpdate _ j

/-- What RGB, RGBA, DIFF and LUMA have in common (R226, R227, R229, R230). -/
theorem exec_reconstructs {i : Instr} (hi : i.kind ≠ .index) (hr : i.kind ≠ .run) {s : State}
    (hin : s.pos + i.length + 8 ≤ s.inLen) (hf : s.fits (if s.channels = 4#8 then 4 else 3)) :
    ∃ t, exec i s = .next t ∧ t.prev = chunkPixel i s ∧ CacheUpdated s t (chunkPixel i s)
      ∧ Appended s t (pixelBytes s.channels (chunkPixel i s)) ∧ t.pos = s.pos + i.length := by
  have hbytes : chunkBytes i s = pixelBytes s.channels (chunkPixel i s) := by
    cases i with
    | run => exact absurd rfl hr
    | _ => rfl
  have hexec : exec i s = .next (chunkResult i s) := by
    refine exec_completes (truncated_false hin) ?_
    rw [hbytes, pixelBytes_length]
    exact hf
  exact ⟨_, hexec, chunkResult_prev i s, chunkResult_cacheUpdated hi hr s, hbytes ▸ chunkResult_appended i s,
    chunkResult_pos i s⟩

/-- R8: `wrap8` of a channel plus a signed operand. -/
theorem wrapAdd_toNat (c : Byte) (d : Int) : ((wrapAdd c d).toNat : Int) = ((c.toNat : Int) + d) % 256 := by
  rw [wrapAdd, BitVec.toNat_ofInt, Int.toNat_of_nonneg (Int.emod_nonneg _ (by decide))]
  rfl

theorem pixelOut_fits {s : State} (p : Pixel) (hf : s.fits (if s.channels = 4#8 then 4 else 3)) :
    s.pixelOut p = some (s.withOutput (pixelBytes s.channels p)) := by
  rw [← pixelBytes_length _ p] at hf
  exact State.outAppendAll_fits _ hf

/-- Settles O17: `pixelBytes` by the channel count. -/
theorem pixelOutFollowsTheChannelCount : Obligations.PixelOutFollowsTheChannelCount := by
  intro p s hf
  have happ := s.withOutput_appended (pixelBytes s.channels p)
  refine ⟨_, pixelOut_fits p hf, fun h4 => ?_, fun h3 => ?_⟩
  · rwa [h4] at happ ⊢
  · rwa [h3] at happ ⊢

/-- Settles O11. -/
theorem rgbReplacesColourKeepsAlpha : Obligations.RgbReplacesColourKeepsAlpha := fun r g b _ =>
  ⟨exec_reconstructs (i := .rgb r g b) nofun nofun, fun h => exec_truncated (truncated_true h), rfl⟩

/-- Settles O12. -/
theorem rgbaReplacesAllFourChannels : Obligations.RgbaReplacesAllFourChannels := fun r g b a _ =>
  ⟨exec_reconstructs (i := .rgba r g b a) nofun nofun, fun h => exec_truncated (truncated_true h), rfl⟩

/-! ## The fields of a chunk's bytes (R94 to R97, R102) -/

theorem low6_eq_ofNat (b : Byte) : low6 b = BitVec.ofNat 6 b.toNat := rfl

theorem low6_toNat (b : Byte) : (low6 b).toNat = b.toNat % 64 := by
  rw [low6_eq_ofNat, BitVec.toNat_ofNat]

theorem diffOf_eq (b : Byte) :
    diffOf b = .diff ((b.toNat / 16 % 4 : Nat) - 2) ((b.toNat / 4 % 4 : Nat) - 2) ((b.toNat % 4 : Nat) - 2) := by
  simp only [diffOf, biased, BitVec.extractLsb'_toNat, Nat.shiftRight_eq_div_pow, Nat.pow_zero, Nat.div_one,
    Nat.reducePow, Nat.cast_ofNat]

theorem lumaOf_eq (b0 b1 : Byte) :
    lumaOf b0 b1 = .luma ((b0.toNat % 64 : Nat) - 32) ((b1.toNat / 16 : Nat) - 8) ((b1.toNat % 16 : Nat) - 8) := by
  have hhigh : b1.toNat / 16 % 16 = b1.toNat / 16 := Nat.mod_eq_of_lt (by omega)
  simp only [lumaOf, biased, low6_toNat, BitVec.extractLsb'_toNat, Nat.shiftRight_eq_div_pow, Nat.pow_zero, Nat.div_one,
    Nat.reducePow, Nat.cast_ofNat, hhigh]

/-! ## INDEX, DIFF, LUMA and RUN (R228 to R231) -/

/-- Settles O13. -/
theorem indexReadsTheSlotAndKeepsTheCache : Obligations.IndexReadsTheSlotAndKeepsTheCache := by
  refine ⟨fun i s hin hf => ?_, fun b hb => ?_⟩
  · have hexec := exec_completes_of_room (i := .index i) hin ((Nat.one_mul _).symm ▸ hf)
    exact ⟨_, hexec, rfl, rfl, chunkResult_appended (.index i) s, rfl⟩
  · obtain ⟨hindex, -⟩ := tagByteRangesGiveKindAndLength b
    rw [decode_of_kind_index (hindex hb).1, low6_eq_ofNat]

/-- Settles O14: the common effect, each channel by `wrapAdd_toNat`. -/
theorem diffAddsItsDeltasModulo256 : Obligations.DiffAddsItsDeltasModulo256 := by
  refine ⟨fun dr dg db s hin hf => ?_, fun b hlo hhi => ?_⟩
  · obtain ⟨t, hexec, hprev, hcache, hout, hpos⟩ := exec_reconstructs (i := .diff dr dg db) nofun nofun hin hf
    refine ⟨t, hexec, ?_⟩
    rw [hprev]
    exact ⟨wrapAdd_toNat _ _, wrapAdd_toNat _ _, wrapAdd_toNat _ _, rfl, hcache, hout, hpos⟩
  · obtain ⟨-, hdiff, -⟩ := tagByteRangesGiveKindAndLength b
    rw [decode_of_kind_diff (hdiff hlo hhi).1, diffOf_eq]

/-- Settles O15: the common effect, each channel by `wrapAdd_toNat`. -/
theorem lumaAddsGreenAndOffsetsModulo256 : Obligations.LumaAddsGreenAndOffsetsModulo256 := by
  refine ⟨fun dg drOff dbOff s => ⟨fun hin hf => ?_, fun h => exec_truncated (truncated_true h)⟩, fun b0 b1 hlo hhi => ?_⟩
  · obtain ⟨t, hexec, hprev, hcache, hout, hpos⟩ := exec_reconstructs (i := .luma dg drOff dbOff) nofun nofun hin hf
    refine ⟨t, hexec, ?_⟩
    rw [hprev, Int.add_assoc, Int.add_assoc]
    exact ⟨wrapAdd_toNat _ _, wrapAdd_toNat _ _, wrapAdd_toNat _ _, rfl, hcache, hout, hpos⟩
  · obtain ⟨-, -, hluma, -⟩ := tagByteRangesGiveKindAndLength b0
    rw [decode_of_kind_luma (hluma hlo hhi).1, lumaOf_eq]

/-- Settles O16. -/
theorem runRepeatsThePreviousPixel : Obligations.RunRepeatsThePreviousPixel := by
  refine ⟨fun n s hin hf => ?_, fun b hlo hhi => ?_⟩
  · have hexec := exec_completes_of_room (i := .run n) hin hf
    exact ⟨_, hexec, rfl, rfl, chunkResult_appended (.run n) s, rfl⟩
  · obtain ⟨-, -, -, hrun, -⟩ := tagByteRangesGiveKindAndLength b
    rw [decode_of_kind_run (hrun hlo hhi).1, runOf, low6_toNat]

/-! ## Where a DECODE begins and stops (R221, R232) -/

/-- Settles O22. -/
theorem shortStreamsAreTruncated : Obligations.ShortStreamsAreTruncated := by
  intro s hm ho hp hh
  rw [step_decodeCheck hm ho hp hh]
  split
  · next h => exact congrArg _ (if_pos h)
  · next h => exact congrArg _ (if_neg h)

theorem step_decodeStop {s : State} (hm : s.engineMoves) (ho : s.op = .decode) (hp : s.phase = .body)
    (hend : s.pos + 8 = s.inLen) : step s = .next s.complete := by
  rw [step_decodeBody hm ho hp, decodeBody, if_neg, decodeStop]
  rw [chunksRemain_iff]
  omega

/-- Settles O27: DSTOP frees only the output bytes beyond the result (U9). -/
theorem decodeStopsAtTheEndOfTheRegion : Obligations.DecodeStopsAtTheEndOfTheRegion := by
  intro s hm ho hp hend
  exact ⟨_, step_decodeStop hm ho hp hend, rfl, rfl, rfl, rfl, rfl, rfl, rfl, rfl, rfl, rfl, rfl, rfl,
    fun _ ha => s.complete_read_kept ha⟩

end Sys2Proof.Machine
end

section
/-! PROOFS of the exceptions' statements (60_exceptions.md): how an operation starts (R265), what the host may do while it
lasts (R266), what takes it out of `BUSY` (R267), what ABORT leaves (R263), and the rest between operations (R264). -/

namespace Sys2Proof.Machine

/-! ## The turn of the engine (R276, R294) -/

theorem engineTurn_busy {s : State} (hb : s.state = .busy) : engineTurn s = engineStep s := if_pos hb

theorem engineTurn_rests {s : State} (hb : s.state ≠ .busy) : engineTurn s = .next s := if_neg hb

/-- With nothing pending the turn is the engine's. -/
theorem step_nothing_pending {s : State} (hh : s.host = []) : step s = engineTurn s := by
  unfold step nextTurn
  rw [hh]

/-- Settles O45: the turn is the engine's, and it takes none. -/
theorem engineRestsBetweenOperations : Obligations.EngineRestsBetweenOperations := fun _ hb hh =>
  (step_nothing_pending hh).trans (engineTurn_rests hb)

/-! ## What ends an operation (R267, R294) -/

/-- No bus access stands for a reset or for standing back. -/
theorem eq_of_resolveBus {m : CsrMap} {a b : HostAct} (hb : b = .powerOnReset ∨ b = .tick ∨ b = .await)
    (h : resolveBus m a = b) : a = b := by
  subst h
  rcases resolveBus_cases m a with hsame | ⟨-, hreset, htick, hawait, -⟩
  · exact hsame.symm
  · rcases hb with hb | hb | hb
    · exact absurd hb hreset
    · exact absurd hb htick
    · exact absurd hb hawait

/-- Settles O51: of what `directMove_next` allows, a poll leaves `STATE` as it is and an access wants it not `BUSY`. -/
theorem onlyTheEngineEndsAnOperation : Obligations.OnlyTheEngineEndsAnOperation := by
  intro s t a rest hb hh h hend
  by_cases ha : a = .await
  · subst ha
    rw [step_await hh, if_pos hb, engineTurn_busy hb] at h
    exact .inr ⟨.inr rfl, s.host, h⟩
  · rw [step_host hh ha] at h
    rcases directMove_next h with ⟨-, rfl⟩ | ⟨hreset, -⟩ | ⟨hback, hturn⟩ | ⟨⟨hidle, -⟩, -⟩
    · exact absurd hb hend
    · exact .inl (eq_of_resolveBus (.inl rfl) hreset)
    · rw [engineTurn_busy (s := { s with host := rest }) hb] at hturn
      exact .inr ⟨hback.imp (eq_of_resolveBus (.inr (.inl rfl))) (eq_of_resolveBus (.inr (.inr rfl))), rest, hturn⟩
    · exact absurd hb hidle

/-! ## What ABORT leaves (R263) -/

theorem State.abort_read_outside (s : State) (e : Err) {a : Nat} (ha : a < s.outBase ∨ s.outBase + s.outCapacity ≤ a) :
    (s.abort e).mem.read a = s.mem.read a := by
  rw [State.abort_mem]
  exact Memory.read_fillFree_out _ ha

/-- Settles O20: field by field; in `ERROR` the engine rests. -/
theorem abortRecordsOnlyTheCode : Obligations.AbortRecordsOnlyTheCode := by
  intro s e
  refine ⟨s.abort_err e, s.abort_state e, s.abort_outLen e, fun ho => ?operands, s.abort_inBase e, s.abort_inLen e,
    s.abort_outBase e, fun a ha => s.abort_read_outside e ha, fun hh => ?rests⟩
  case operands =>
    obtain ⟨hw, hht, hc, hcs, -⟩ := OperandsKept.abort ho e
    exact ⟨hw, hht, hc, hcs⟩
  case rests =>
    have hstate : (s.abort e).state ≠ .busy := by rw [State.abort_state]; exact nofun
    exact engineRestsBetweenOperations _ hstate ((s.abort_host e).trans hh)

/-! ## ISSUE, duty by duty (R69, R265, R293) -/

section
variable {s : State} (op : Op)

theorem issueCommand_overlapping (hd : s.buffersDisjoint = false) : issueCommand op s = .refused .overlappingBuffers :=
  if_pos hd

theorem issueCommand_beyond (hd : s.buffersDisjoint = true) (he : s.buffersExist = false) :
    issueCommand op s = .refused .bufferBeyondMemory := by
  simp [issueCommand, hd, he]

theorem issueCommand_notPlaced (hd : s.buffersDisjoint = true) (he : s.buffersExist = true) (hp : ¬ s.inputPlaced) :
    issueCommand op s = .refused .inputNotPlaced := by
  have hin : s.inputPresent = false := Bool.eq_false_iff.2 (mt (inputPresent_iff s).1 hp)
  simp [issueCommand, hd, he, hin]

theorem issueCommand_starts (hd : s.buffersDisjoint = true) (he : s.buffersExist = true) (hp : s.inputPlaced) :
    issueCommand op s = .next (s.startOperation op) := by
  have hin : s.inputPresent = true := (inputPresent_iff s).2 hp
  simp [issueCommand, hd, he, hin]

end

/-- Settles O38: the step is `issueCommand`, whose tests do not look at the pending list. -/
theorem issueStartsAnOperation : Obligations.IssueStartsAnOperation := by
  intro s op rest hh hs
  have hstep : step s = issueCommand op { s with host := rest } := step_access hs hh nofun rfl
  rw [hstep]
  exact ⟨issueCommand_starts (s := { s with host := rest }) op, issueCommand_overlapping (s := { s with host := rest }) op,
    issueCommand_beyond (s := { s with host := rest }) op, issueCommand_notPlaced (s := { s with host := rest }) op⟩

/-! ## The host during an operation (R71, R266) -/

/-- Settles O39: by `resolveBus_cases` the bus hides no poll but that of the address of `STATUS`, no reset and no standing
back, and `directMove_denied` denies the rest. -/
theorem hostOnlyPollsWhileBusy : Obligations.HostOnlyPollsWhileBusy := by
  intro s a rest hh hpoll hreset htick hawait hbus
  rw [step_host hh hawait]
  have hpoll' : resolveBus s.params.csrMap a ≠ .readStatus := by
    intro h
    rcases resolveBus_cases s.params.csrMap a with hsame | ⟨-, -, -, -, hstatus⟩
    · exact hpoll (hsame.symm.trans h)
    · obtain ⟨k, hk, hat⟩ := hstatus h
      exact hbus k hk hat
  exact directMove_denied (s := { s with host := rest }) hpoll' (fun h => hreset (eq_of_resolveBus (.inl rfl) h))
    (fun h => htick (eq_of_resolveBus (.inr (.inl rfl)) h)) (fun h => hawait (eq_of_resolveBus (.inr (.inr rfl)) h))

end Sys2Proof.Machine
end

section
/-! PROOFS of the statements about reset and hazards (70_reset_and_hazards.md): what OPINIT sets (R291) and what a power-on
reset leaves (R290). -/

namespace Sys2Proof.Machine

/-- Settles O24: the step is `opInit`, which sets the whole cache, `prev` and `run` without reading them. -/
theorem opInitGivesTheFreshWorkingState : Obligations.OpInitGivesTheFreshWorkingState := by
  intro s hm hp hh
  have hslots : ∀ i, (opInit s).cacheRead i = zeroPixel := fun i => State.cacheRead_zero _ i (opInit_cache s)
  have hsame : SameInterface { s with hdrStep := .check } (opInit s) :=
    ⟨rfl, rfl, rfl, rfl, rfl, rfl, rfl, rfl, rfl, rfl, rfl, rfl, rfl, rfl, rfl, rfl, rfl⟩
  exact ⟨opInit s, step_opInit hm hp hh, hslots, opInit_prev s, opInit_run s, opInit_mem s, opInit_outLen s,
    (opInit_phase s).trans hp, opInit_hdrStep s, opInit_pix s, opInit_pos s, hsame⟩

theorem step_powerOnReset {s : State} {rest : List HostAct} (hh : s.host = .powerOnReset :: rest) :
    step s = .next { s with host := rest }.powerOn :=
  step_host hh nofun

/-- A power-on reset between operations, the end of the last one read, frees no byte (R290). -/
theorem State.powerOn_mem_between {s : State} (hb : s.state ≠ .busy) (hu : s.unread = false) :
    s.powerOn.mem = s.mem := by
  rw [State.powerOn_mem, if_neg]
  simp [hb, hu]

/-- Settles O43: memory by `powerOn_mem_between` and, for a reset that ends an operation, by `powerOn_read_outside`. -/
theorem powerOnResetLeavesMemory : Obligations.PowerOnResetLeavesMemory := by
  intro s rest hh
  let u : State := { s with host := rest }
  exact ⟨u.powerOn, step_powerOnReset hh, u.powerOn_state, u.powerOn_err, u.powerOn_outLen, u.powerOn_host,
    u.powerOn_unread, State.powerOn_mem_between (s := u), fun _ ha => u.powerOn_read_outside ha⟩

end Sys2Proof.Machine
end
